-- ==== Sys2Proof/Word.lean ====
section
/-! DEFINITION. The words of the machine (spec/00_scope.md R7), its packets (R60), the bit strings it moves (R7), the names of
its control registers (spec/10_state.md R12) and the form in which a memory is held. -/

namespace Sys2Proof

/-- One byte of IN or OUT (R22). -/
abbrev Byte := BitVec 8

/-- A 64-bit value: field ARG, field VAL, a node word, a symbol (R6, R60, R62). -/
abbrev Word := BitVec 64

/-- One command packet, `CMD[79:0]` (R60). -/
abbrev Packet := BitVec 80

/-- A bit string, first bit first in time (R7). A code is one (R65). -/
abbrev Code := List Bool

/-- A memory of cells of `w` bits: the cells written since power-on, by address. At `w = 8` it is a list of `Host.Cell`. -/
abbrev Memory (w : Nat) := List (Nat × BitVec w)

/-- The fifteen control registers, in the order of their numbers 0 to 14 (R12). -/
inductive Reg where
  | symw | rbyte | rbit | rlim | wbyte | wbit | wacc | wlim
  | root | tcur | naddr | ncnt | flags | err | einfo
  deriving DecidableEq, Repr

end Sys2Proof
end

