-- ==== Sys2Proof/Syntax.lean ====
section
/-! DEFINITION. The commands, one constructor per row of spec/opcode_table.json (spec/30_encoding.md R61). -/

namespace Sys2Proof

/-- A command with its operands. A bit count `n` is the field IMM as it stands (R68), so an illegal count is a term that
`Instr.wellFormed` refuses; a register operand is its name. -/
inductive Instr where
  | reset
  | setreg (reg : Reg) (value : Word)
  | getreg (reg : Reg)
  | wrnode (word : Word)
  | rdnode
  | rdbits (n : BitVec 8)
  | wrbits (n : BitVec 8) (value : Word)
  | rewind (n : BitVec 8)
  | hasmore (n : BitVec 8)
  | flush
  | treset
  | tstep (b : Bool)
  | dsym
  | decode
  | encsym (symbol : Word)
  | enceof
  | encode
  deriving DecidableEq, Repr

end Sys2Proof
end

