-- ==== Sys2Proof/WellFormed.lean ====
section
/-! DEFINITION. Which terms of Instr are legal commands (spec/30_encoding.md R67, items 3 and 6; items 1, 2, 4 and 5 have no
term: an Instr has no other opcode, field, direction or register). -/

namespace Sys2Proof

/-- The access column of R12: SETREG may write the register. -/
def Reg.writable : Reg → Bool
  | .symw | .rbyte | .rbit | .rlim | .wbyte | .wlim | .root | .naddr | .ncnt => true
  | .wbit | .wacc | .tcur | .flags | .err | .einfo => false

/-- The legal bit counts of RDBITS, WRBITS, REWIND and HASMORE, 1 to 64 (R6, R67 item 3). -/
def bitCountOk (n : BitVec 8) : Bool := decide (1 ≤ n.toNat ∧ n.toNat ≤ 64)

/-- Legality of a command: it depends on the command alone, never on the state (R67). -/
def Instr.wellFormed : Instr → Bool
  | .setreg r _ => r.writable
  | .rdbits n => bitCountOk n
  | .wrbits n _ => bitCountOk n
  | .rewind n => bitCountOk n
  | .hasmore n => bitCountOk n
  | .reset => true
  | .getreg _ => true
  | .wrnode _ => true
  | .rdnode => true
  | .flush => true
  | .treset => true
  | .tstep _ => true
  | .dsym => true
  | .decode => true
  | .encsym _ => true
  | .enceof => true
  | .encode => true

end Sys2Proof
end

