-- ==== Sys2Proof/Decode.lean ====
section
/-! DEFINITION. The command packet CMD80 and its decoding (spec/30_encoding.md R60, R61, R67, R68; spec/opcode_table.json), and
after it the encoder. -/

namespace Sys2Proof

/-! ## Fields of a packet (R60) -/

/-- Field OP, `CMD[79:72]`. -/
def opOf (p : Packet) : BitVec 8 := p.extractLsb' 72 8

/-- Field IMM, `CMD[71:64]`. -/
def immOf (p : Packet) : BitVec 8 := p.extractLsb' 64 8

/-- Field ARG, `CMD[63:0]`. -/
def argOf (p : Packet) : Word := p.extractLsb' 0 64

/-- The packet `OP ∥ IMM ∥ ARG`. -/
def packet (op imm : BitVec 8) (arg : Word) : Packet := op ++ imm ++ arg

/-- `zext_64(OP ∥ IMM)`, the info word of ILLEGAL_COMMAND (R63, R201). -/
def headInfo (op imm : BitVec 8) : Word := (op ++ imm).setWidth 64

/-! ## Opcodes and register numbers -/

/-- The seventeen opcodes of R61. -/
inductive Op where
  | reset | setreg | getreg | wrnode | rdnode
  | rdbits | wrbits | rewind | hasmore | flush
  | treset | tstep | dsym | decode
  | encsym | enceof | encode
  deriving DecidableEq, Repr

/-- The OP column of R61. -/
def Op.code : Op → BitVec 8
  | .reset => 0x01
  | .setreg => 0x02
  | .getreg => 0x03
  | .wrnode => 0x04
  | .rdnode => 0x05
  | .rdbits => 0x10
  | .wrbits => 0x11
  | .rewind => 0x12
  | .hasmore => 0x13
  | .flush => 0x14
  | .treset => 0x20
  | .tstep => 0x21
  | .dsym => 0x22
  | .decode => 0x23
  | .encsym => 0x30
  | .enceof => 0x31
  | .encode => 0x32

/-- Every opcode, in the table's order. -/
def Op.all : List Op :=
  [.reset, .setreg, .getreg, .wrnode, .rdnode, .rdbits, .wrbits, .rewind, .hasmore, .flush,
   .treset, .tstep, .dsym, .decode, .encsym, .enceof, .encode]

/-- The opcode a value of OP names; none for the reserved values (R61, R67 item 1). -/
def Op.ofCode (b : BitVec 8) : Option Op := Op.all.find? fun o => o.code == b

/-- The `match` column of spec/opcode_table.json. -/
def Op.pattern (o : Op) : Packet := packet o.code 0 0

/-- The `mask` column of spec/opcode_table.json: the bits the row fixes. -/
def Op.mask : Op → Packet
  | .reset => 0xFFFFFFFFFFFFFFFFFFFF
  | .setreg => 0xFF000000000000000000
  | .getreg => 0xFF00FFFFFFFFFFFFFFFF
  | .wrnode => 0xFFFF0000000000000000
  | .rdnode => 0xFFFFFFFFFFFFFFFFFFFF
  | .rdbits => 0xFF00FFFFFFFFFFFFFFFF
  | .wrbits => 0xFF000000000000000000
  | .rewind => 0xFF00FFFFFFFFFFFFFFFF
  | .hasmore => 0xFF00FFFFFFFFFFFFFFFF
  | .flush => 0xFFFFFFFFFFFFFFFFFFFF
  | .treset => 0xFFFFFFFFFFFFFFFFFFFF
  | .tstep => 0xFFFEFFFFFFFFFFFFFFFF
  | .dsym => 0xFFFFFFFFFFFFFFFFFFFF
  | .decode => 0xFFFFFFFFFFFFFFFFFFFF
  | .encsym => 0xFFFF0000000000000000
  | .enceof => 0xFFFFFFFFFFFFFFFFFFFF
  | .encode => 0xFFFFFFFFFFFFFFFFFFFF

/-- The number column of R12. -/
def Reg.number : Reg → BitVec 8
  | .symw => 0
  | .rbyte => 1
  | .rbit => 2
  | .rlim => 3
  | .wbyte => 4
  | .wbit => 5
  | .wacc => 6
  | .wlim => 7
  | .root => 8
  | .tcur => 9
  | .naddr => 10
  | .ncnt => 11
  | .flags => 12
  | .err => 13
  | .einfo => 14

/-- Every register, by number. -/
def Reg.all : List Reg :=
  [.symw, .rbyte, .rbit, .rlim, .wbyte, .wbit, .wacc, .wlim, .root, .tcur, .naddr, .ncnt, .flags, .err, .einfo]

/-- The register a number names; none for 15 to 255 (R12, R67 item 5). -/
def Reg.ofNumber (b : BitVec 8) : Option Reg := Reg.all.find? fun r => r.number == b

/-! ## Decoding -/

/-- Why a packet is illegal: the items 1 to 6 of R67, in that order. The block reports one fault for all of them. -/
inductive Illegal where
  | undefinedOpcode
  | nonZeroField
  | bitCount
  | direction
  | registerNumber
  | readOnlyRegister
  deriving DecidableEq, Repr

/-- What a packet decodes to. -/
inductive Decoded where
  | legal (i : Instr)
  | illegal (why : Illegal)
  deriving DecidableEq, Repr

/-- The command `i`, provided every field it does not use is zero (R67 item 2). -/
def whenZero (unused : Bool) (d : Decoded) : Decoded :=
  if unused then d else .illegal .nonZeroField

/-- The command `i`, provided its bit count is legal (R67 item 3). -/
def whenCount (n : BitVec 8) (i : Instr) : Decoded :=
  if bitCountOk n then .legal i else .illegal .bitCount

/-- SETREG's register operand: a register (R67 item 5) that may be written (item 6). -/
def decodeSetreg (imm : BitVec 8) (arg : Word) : Decoded :=
  match Reg.ofNumber imm with
  | none => .illegal .registerNumber
  | some r => if r.writable then .legal (.setreg r arg) else .illegal .readOnlyRegister

/-- GETREG's register operand (R67 item 5). -/
def decodeGetreg (imm : BitVec 8) : Decoded :=
  match Reg.ofNumber imm with
  | none => .illegal .registerNumber
  | some r => .legal (.getreg r)

/-- TSTEP's direction bit: `b = IMM[0]`, `IMM[7:1]` zero (R68, R67 item 4). -/
def decodeTstep (imm : BitVec 8) : Decoded :=
  if imm.toNat ≤ 1 then .legal (.tstep (imm.getLsbD 0)) else .illegal .direction

/-- The fields IMM and ARG under each opcode: the IMM and ARG columns of R61 and the conditions of R67. -/
def decodeFields (o : Op) (imm : BitVec 8) (arg : Word) : Decoded :=
  match o with
  | .reset => whenZero (imm == 0 && arg == 0) (.legal .reset)
  | .setreg => decodeSetreg imm arg
  | .getreg => whenZero (arg == 0) (decodeGetreg imm)
  | .wrnode => whenZero (imm == 0) (.legal (.wrnode arg))
  | .rdnode => whenZero (imm == 0 && arg == 0) (.legal .rdnode)
  | .rdbits => whenZero (arg == 0) (whenCount imm (.rdbits imm))
  | .wrbits => whenCount imm (.wrbits imm arg)
  | .rewind => whenZero (arg == 0) (whenCount imm (.rewind imm))
  | .hasmore => whenZero (arg == 0) (whenCount imm (.hasmore imm))
  | .flush => whenZero (imm == 0 && arg == 0) (.legal .flush)
  | .treset => whenZero (imm == 0 && arg == 0) (.legal .treset)
  | .tstep => whenZero (arg == 0) (decodeTstep imm)
  | .dsym => whenZero (imm == 0 && arg == 0) (.legal .dsym)
  | .decode => whenZero (imm == 0 && arg == 0) (.legal .decode)
  | .encsym => whenZero (imm == 0) (.legal (.encsym arg))
  | .enceof => whenZero (imm == 0 && arg == 0) (.legal .enceof)
  | .encode => whenZero (imm == 0 && arg == 0) (.legal .encode)

/-- The command a packet holds, or why it is illegal: total on all `2^80` packets (R61, R67). -/
def decode (p : Packet) : Decoded :=
  match Op.ofCode (opOf p) with
  | none => .illegal .undefinedOpcode
  | some o => decodeFields o (immOf p) (argOf p)

/-! ## Encoding -/

/-- The opcode of a command. -/
def Instr.op : Instr → Op
  | .reset => .reset
  | .setreg _ _ => .setreg
  | .getreg _ => .getreg
  | .wrnode _ => .wrnode
  | .rdnode => .rdnode
  | .rdbits _ => .rdbits
  | .wrbits _ _ => .wrbits
  | .rewind _ => .rewind
  | .hasmore _ => .hasmore
  | .flush => .flush
  | .treset => .treset
  | .tstep _ => .tstep
  | .dsym => .dsym
  | .decode => .decode
  | .encsym _ => .encsym
  | .enceof => .enceof
  | .encode => .encode

/-- The field IMM of a command's packet (R61, R68). -/
def Instr.imm : Instr → BitVec 8
  | .setreg r _ => r.number
  | .getreg r => r.number
  | .rdbits n => n
  | .wrbits n _ => n
  | .rewind n => n
  | .hasmore n => n
  | .tstep b => if b then 1 else 0
  | .reset | .wrnode _ | .rdnode | .flush | .treset | .dsym | .decode | .encsym _ | .enceof | .encode => 0

/-- The field ARG of a command's packet (R61, R68). -/
def Instr.arg : Instr → Word
  | .setreg _ v => v
  | .wrnode w => w
  | .wrbits _ v => v
  | .encsym v => v
  | .reset | .getreg _ | .rdnode | .rdbits _ | .rewind _ | .hasmore _ | .flush | .treset | .tstep _ | .dsym
  | .decode | .enceof | .encode => 0

/-- The packet of a command (R60, R61, R69). -/
def encode (i : Instr) : Packet := packet i.op.code i.imm i.arg

/-- The info word of ILLEGAL_COMMAND for a command's own packet (R201). -/
def Instr.headInfo (i : Instr) : Word := Sys2Proof.headInfo i.op.code i.imm

/-! ## The opcode table's numbering -/

/-- The packet whose low `nbits` bits are `w`'s and whose other bits are zero. The block's one word is the packet, and the table
numbers its bits as R60 does, so nothing is reordered. -/
def packetOfTableWord (nbits w : Nat) : Packet := BitVec.ofNat 80 (w % 2 ^ nbits)

/-- The command the decoder reads from a word of spec/opcode_table.json; none where it refuses. -/
def decodeTableWord (nbits w : Nat) : Option Instr :=
  match decode (packetOfTableWord nbits w) with
  | .legal i => some i
  | .illegal _ => none

end Sys2Proof
end

