-- ==== Sys2Proof/Config.lean ====
section
/-! DEFINITION. What an instance of the block fixes: the sizes of its spaces (spec/00_scope.md R6) and the unspecified contents
of its memories at power-on (spec/93_implementation_defined.md U3). -/

namespace Sys2Proof

/-- The parameters INSIZE, OUTSIZE and NNODES, OPEN in R6 and fixed for the life of an instance (R27). The types hold the
bounds of R6 but for `1 ≤ NNODES`, which `Sizes.ok` says. -/
structure Sizes where
  inSize : Fin (2 ^ 60 + 1)
  outSize : Fin (2 ^ 60 + 1)
  nNodes : Fin (2 ^ 32)
  deriving DecidableEq, Repr

/-- `1 ≤ NNODES` (R6). -/
def Sizes.ok (z : Sizes) : Bool := decide (1 ≤ z.nNodes.val)

namespace Config

/-- DESIGN CHOICE (log entry 3), unsafe only for a claim about `State.reset` itself: the sizes the spec's test vectors use
(spec/95_test_vectors.md section 0). No claim about all states rests on them. -/
def vectorSizes : Sizes := ⟨64, 64, 32⟩

/-- FREE VALUE (log entry 4), safe: the byte an address of IN holds at power-on (U3). It has no body. -/
opaque powerOnIn : Nat → Byte

/-- FREE VALUE (log entry 4), safe: the byte an address of OUT holds at power-on (U3). It has no body. -/
opaque powerOnOut : Nat → Byte

/-- FREE VALUE (log entry 4), safe: the word a word address of NODE holds at power-on (U3). It has no body. -/
opaque powerOnNode : Nat → Word

end Config

end Sys2Proof
end

