-- ==== Sys2Proof/Machine/State.lean ====
section
/-! DEFINITION. The state of the block (spec/10_state.md), its responses (spec/30_encoding.md R62, R63), the host's moves
(spec/70_reset_and_hazards.md R239), the reasons a step can stop, and the state at power-on (R30, R230). -/

namespace Sys2Proof.Machine

/-- The faults of the block, by name (R63, R201). A fault is an ANSWER of the block, after which the machine goes on (R203): it
is no `Fault` below. -/
inductive FaultCode where
  | illegalCommand
  | unsupportedConfig
  | incompatibleTable
  | truncatedInput
  | internalConsistency
  | readUnderrun
  | rewindUnderflow
  | writeOverrun
  | nodeRange
  | badValue
  deriving DecidableEq, Repr

/-- The field STAT, by name (R63). -/
inductive Stat where
  | done
  | symbol
  | eof
  | exhausted
  | fault (c : FaultCode)
  | errSticky
  deriving DecidableEq, Repr

/-- A response packet: the fields STAT and VAL (R62). `Response.pack` gives its 72 bits. -/
structure Response where
  stat : Stat
  val : Word
  deriving DecidableEq, Repr

/-- What the host can do while no command executes (R51, R239): issue a packet, write a byte of IN or OUT, or copy a byte of OUT
to IN (reading OUT and writing IN). NODE it reaches by packets only (R22). DESIGN CHOICE, log entry 1. -/
inductive HostMove where
  | command (p : Packet)
  | writeIn (a : Nat) (b : Byte)
  | writeOut (a : Nat) (b : Byte)
  | copyOutToIn (src dst : Nat)
  deriving DecidableEq, Repr

/-- The block: its fifteen control registers at their widths (R12) and its three memories (R22); then the model's own fields:
the sizes of the instance (log entry 3), the host's next moves, oldest first (log entry 1), and the last response returned
(log entry 2). -/
structure State where
  symw : BitVec 7
  rbyte : BitVec 61
  rbit : BitVec 3
  rlim : BitVec 61
  wbyte : BitVec 61
  wbit : BitVec 3
  wacc : BitVec 8
  wlim : BitVec 61
  root : BitVec 32
  tcur : BitVec 32
  naddr : BitVec 33
  ncnt : BitVec 32
  flags : BitVec 1
  err : BitVec 8
  einfo : BitVec 64
  inMem : List Host.Cell
  outMem : List Host.Cell
  nodeMem : List (Nat × BitVec 64)
  size : Sizes
  script : List HostMove
  rsp : Option Response
  deriving DecidableEq, Repr

/-- Why a run stops: an address that does not exist (R22, R47). Safe: the model stops where the spec gives nothing. The block
raises one only in a state whose limit registers pass the sizes, which no run reaches (R29, R141); a host move raises one when
it names an address outside the space (R239 gives the host no such move). Log entry 7. -/
inductive Fault where
  /-- Safe. `getBits` in a state with RLIM above INSIZE, or a host write or copy to IN at or above INSIZE. -/
  | noInByte (a : Nat)
  /-- Safe. `put` or `flushPad` in a state with WLIM above OUTSIZE, or a host access to OUT at or above OUTSIZE. -/
  | noOutByte (a : Nat)
  /-- Safe. `descend` in a state with NCNT above NNODES. -/
  | noNodeWord (a : Nat)
  deriving DecidableEq, Repr

/-- Why a command has no transition. -/
inductive Refusal where
  /-- Safe. An arm of `exec` whose command has no meaning yet: none is left. -/
  | notModelled (mnemonic : String)
  /-- Safe. ENCSYM, ENCEOF or ENCODE in a state where WF(tree) of R28 is false: "the model has no transition for a packer command
  outside it" (spec/93_implementation_defined.md U5). Log entry 5. -/
  | treeNotWellFormed
  deriving DecidableEq, Repr

/-- The block of sizes `z` right after power-on: every control register 0 (R30), no byte or word written (U3), nothing issued
and nothing answered. -/
def State.powerOn (z : Sizes) : State where
  symw := 0
  rbyte := 0
  rbit := 0
  rlim := 0
  wbyte := 0
  wbit := 0
  wacc := 0
  wlim := 0
  root := 0
  tcur := 0
  naddr := 0
  ncnt := 0
  flags := 0
  err := 0
  einfo := 0
  inMem := []
  outMem := []
  nodeMem := []
  size := z
  script := []
  rsp := none

/-- The machine right after reset: power-on (R30) of the instance whose sizes the spec's vectors use (log entry 3). -/
def State.reset : State := State.powerOn Config.vectorSizes

end Sys2Proof.Machine
end

