-- ==== Sys2Proof/Machine/Ops.lean ====
section
/-! DEFINITION. The named operations over memory and registers, the answer of a command, and TAKING A FAULT with the sticky gate
and the order of checks (spec/60_exceptions.md R203, R205, R206). -/

namespace Sys2Proof

/-! ## A memory: the cells written since power-on -/

/-- The cell at an address, none if nothing has been written there since power-on (U3, log entry 4). -/
def Memory.cell? {w : Nat} : Memory w → Nat → Option (BitVec w)
  | [], _ => none
  | (b, v) :: m, a => if b = a then some v else Memory.cell? m a

/-- Write a cell, keeping the addresses strictly rising. -/
def Memory.store {w : Nat} : Memory w → Nat → BitVec w → Memory w
  | [], a, v => [(a, v)]
  | (b, u) :: m, a, v =>
    if a < b then (a, v) :: (b, u) :: m
    else if a = b then (a, v) :: m
    else (b, u) :: Memory.store m a v

/-- Every address of the memory is above `lo`. -/
def Memory.above {w : Nat} (lo : Nat) (m : Memory w) : Bool := m.all fun c => decide (lo < c.1)

/-- The canonical form: addresses strictly rising. An unlisted address holds no written cell, and every listed one does, so two
memories with the same written cells are the same list. -/
def Memory.wf {w : Nat} : Memory w → Bool
  | [] => true
  | (a, _) :: m => Memory.above a m && Memory.wf m

/-- Every listed address lies in a space of `n` cells (R47). -/
def Memory.within {w : Nat} (n : Nat) (m : Memory w) : Bool := m.all fun c => decide (c.1 < n)

namespace Machine

/-! ## Reading the memories (R22) -/

/-- `IN[a]`: the byte last written, or the byte it held at power-on (U3). -/
def State.inByte (s : State) (a : Nat) : Byte := (Memory.cell? (w := 8) s.inMem a).getD (Config.powerOnIn a)

/-- `OUT[a]`: as `inByte`. The block never reads it; the host does (R22). -/
def State.outByte (s : State) (a : Nat) : Byte := (Memory.cell? (w := 8) s.outMem a).getD (Config.powerOnOut a)

/-- `NODE[a]`, the word at word address `a`. -/
def State.nodeWord (s : State) (a : Nat) : Word := (Memory.cell? (w := 64) s.nodeMem a).getD (Config.powerOnNode a)

/-! ## Writing the state -/

/-- `IN[a] <- b`, a host move (R22: the block only reads IN). -/
def State.storeIn (s : State) (a : Nat) (b : Byte) : State := { s with inMem := Memory.store (w := 8) s.inMem a b }

/-- `OUT[a] <- b`: all eight bits of one byte (R45). -/
def State.storeOut (s : State) (a : Nat) (b : Byte) : State := { s with outMem := Memory.store (w := 8) s.outMem a b }

/-- `NODE[a] <- v` (R143). -/
def State.storeNode (s : State) (a : Nat) (v : Word) : State := { s with nodeMem := Memory.store (w := 64) s.nodeMem a v }

/-- The read cursor at bit position `q` (R14). -/
def State.setReadPos (s : State) (q : Nat) : State :=
  { s with rbyte := BitVec.ofNat 61 (q / 8), rbit := BitVec.ofNat 3 (q % 8) }

/-- The write cursor: the byte address, the bits held and the partial byte (R16, R17). -/
def State.setWrite (s : State) (byte : BitVec 61) (bit : BitVec 3) (acc : BitVec 8) : State :=
  { s with wbyte := byte, wbit := bit, wacc := acc }

/-- The tree cursor (R20). -/
def State.setTcur (s : State) (i : BitVec 32) : State := { s with tcur := i }

/-- The node word address (R21). -/
def State.setNaddr (s : State) (a : BitVec 33) : State := { s with naddr := a }

/-- FLAGS (R24). -/
def State.setFlags (s : State) (f : BitVec 1) : State := { s with flags := f }

/-- What the host does next. -/
def State.setScript (s : State) (l : List HostMove) : State := { s with script := l }

/-- Every control register at its reset value; the memories keep their contents (R140, R230). -/
def State.resetRegs (s : State) : State :=
  { s with
    symw := 0, rbyte := 0, rbit := 0, rlim := 0, wbyte := 0, wbit := 0, wacc := 0, wlim := 0,
    root := 0, tcur := 0, naddr := 0, ncnt := 0, flags := 0, err := 0, einfo := 0 }

/-! ## Answers -/

/-- The STAT column of R63. -/
def FaultCode.code : FaultCode → BitVec 8
  | .illegalCommand => 0x81
  | .unsupportedConfig => 0x82
  | .incompatibleTable => 0x83
  | .truncatedInput => 0x84
  | .internalConsistency => 0x85
  | .readUnderrun => 0x86
  | .rewindUnderflow => 0x87
  | .writeOverrun => 0x88
  | .nodeRange => 0x89
  | .badValue => 0x8A

/-- The STAT column of R63. -/
def Stat.code : Stat → BitVec 8
  | .done => 0x00
  | .symbol => 0x01
  | .eof => 0x02
  | .exhausted => 0x03
  | .fault c => c.code
  | .errSticky => 0x8F

/-- The response packet `RSP[71:0]` = `STAT ∥ VAL` (R62). -/
def Response.pack (r : Response) : BitVec 72 := r.stat.code ++ r.val

/-- `respond(STAT, VAL)` (R7): the command ends with this response. -/
def State.respond (s : State) (stat : Stat) (val : Word) : State := { s with rsp := some ⟨stat, val⟩ }

/-- What one step of the machine answers. -/
abbrev Outcome := Host.Outcome State Fault Refusal

/-! ## Taking a fault -/

/-- ERR and EINFO record the first fault since RESET (R25, R203). -/
def State.latch (s : State) (c : FaultCode) (info : Word) : State :=
  if s.err = 0 then { s with err := c.code, einfo := info } else s

/-- TAKING A FAULT, `fault(code, info)` (R203): latch the first fault and answer with STAT = code, VAL = info. Nothing else
changes: no mode, no vector, no cursor. There is no return from it but RESET (R208). -/
def State.raise (s : State) (c : FaultCode) (info : Word) : State := (s.latch c info).respond (.fault c) info

/-- The sticky-fault gate's answer (R205): STAT = ERR_STICKY, VAL = ERR, and nothing changes. -/
def State.refuseSticky (s : State) : State := s.respond .errSticky (s.err.setWidth 64)

/-- RESET and GETREG pass the sticky-fault gate (R205; log entry 10). -/
def Instr.passesGate : Instr → Bool
  | .reset => true
  | .getreg _ => true
  | .setreg _ _ | .wrnode _ | .rdnode | .rdbits _ | .wrbits _ _ | .rewind _ | .hasmore _ | .flush | .treset
  | .tstep _ | .dsym | .decode | .encsym _ | .enceof | .encode => false

/-- The order of checks every command runs inside (R206): the sticky-fault gate, then legality, then the command's own
pseudocode. -/
def issue (i : Instr) (s : State) (body : Outcome) : Outcome :=
  if s.err ≠ 0 ∧ Instr.passesGate i = false then .next s.refuseSticky
  else if i.wellFormed then body
  else .next (s.raise .illegalCommand i.headInfo)

/-- What the block does with a packet that decodes to no command: the sticky-fault gate looks at OP alone (R205, R208; R140 says
otherwise of an illegal RESET packet, log entry 10), then the packet is illegal (R67, R206). -/
def illegalPacket (p : Packet) (s : State) : State :=
  if s.err ≠ 0 ∧ opOf p ≠ Op.reset.code ∧ opOf p ≠ Op.getreg.code then s.refuseSticky
  else s.raise .illegalCommand (headInfo (opOf p) (immOf p))

/-! ## Results of the helper procedures (R8) -/

/-- How a helper procedure ends: with a value, by `raise` with the changes made so far kept (R7), or at an address that does not
exist. -/
inductive Res (α : Type) where
  | ok (a : α) (s : State)
  | raise (c : FaultCode) (info : Word) (s : State)
  | stop (f : Fault)
  deriving DecidableEq, Repr

/-- Go on after a helper that ended with a value; a raise or a stop ends the command. -/
def Res.andThen {α β : Type} (r : Res α) (k : α → State → Res β) : Res β :=
  match r with
  | .ok a s => k a s
  | .raise c info s => .raise c info s
  | .stop f => .stop f

/-- End a command: respond with the helper's value, or take the fault it raised. -/
def Res.answer {α : Type} (r : Res α) (stat : α → Stat) (val : α → Word) : Outcome :=
  match r with
  | .ok a s => .next (s.respond (stat a) (val a))
  | .raise c info s => .next (s.raise c info)
  | .stop f => .fault f

end Machine

end Sys2Proof
end

