-- ==== Sys2Proof/Machine/Flags.lean ====
section
/-! DEFINITION. The one flag, EOFSEEN (spec/10_state.md R24). There are no arithmetic condition codes. -/

namespace Sys2Proof.Machine

/-- FLAGS.EOFSEEN, bit 0 of FLAGS (R24). -/
def State.eofSeen (s : State) : Bool := s.flags.getLsbD 0

/-- FLAGS.EOFSEEN <- 1: `descend` reached the EOF leaf (R24, R100). -/
def State.setEofSeen (s : State) : State := s.setFlags 1

/-- FLAGS.EOFSEEN <- 0: TRESET (R24, R102). -/
def State.clearEofSeen (s : State) : State := s.setFlags 0

end Sys2Proof.Machine
end

