-- ==== Sys2Proof/Machine/Operands.lean ====
section
/-! DEFINITION. The operand forms: the control registers as operands of SETREG and GETREG (spec/43_system.md R141, R142), and the
bit cursor with its four helper procedures (spec/40_bitcursor.md R80 to R83; bit order spec/20_memory.md R40, R41). -/

namespace Sys2Proof.Machine

/-! ## Control registers -/

/-- `zext_64` of a register (R12, R142). -/
def State.readReg (s : State) : Reg → Word
  | .symw => s.symw.setWidth 64
  | .rbyte => s.rbyte.setWidth 64
  | .rbit => s.rbit.setWidth 64
  | .rlim => s.rlim.setWidth 64
  | .wbyte => s.wbyte.setWidth 64
  | .wbit => s.wbit.setWidth 64
  | .wacc => s.wacc.setWidth 64
  | .wlim => s.wlim.setWidth 64
  | .root => s.root.setWidth 64
  | .tcur => s.tcur.setWidth 64
  | .naddr => s.naddr.setWidth 64
  | .ncnt => s.ncnt.setWidth 64
  | .flags => s.flags.setWidth 64
  | .err => s.err.setWidth 64
  | .einfo => s.einfo

/-- The fault SETREG raises for a value outside the register's legal range, none for a legal one (R141). The comparison is on the
whole 64-bit value. No value is legal for a read-only register; legality has refused the packet before (R67 item 6). -/
def State.setregFault (s : State) (r : Reg) (v : Word) : Option FaultCode :=
  match r with
  | .symw => if v.toNat < 1 ∨ 64 < v.toNat then some .unsupportedConfig else none
  | .rbyte => if s.size.inSize.val < v.toNat then some .badValue else none
  | .rbit => if 7 < v.toNat then some .badValue else none
  | .rlim => if s.size.inSize.val < v.toNat then some .badValue else none
  | .wbyte => if s.size.outSize.val < v.toNat then some .badValue else none
  | .wlim => if s.size.outSize.val < v.toNat then some .badValue else none
  | .root => if s.size.nNodes.val ≤ v.toNat then some .badValue else none
  | .naddr => if 2 * s.size.nNodes.val < v.toNat then some .badValue else none
  | .ncnt => if s.size.nNodes.val < v.toNat then some .badValue else none
  | .wbit | .wacc | .tcur | .flags | .err | .einfo => some .badValue

/-- The write of SETREG with its side effects: WBYTE discards the partial byte, ROOT moves the tree cursor (R141). -/
def State.writeReg (s : State) (r : Reg) (v : Word) : State :=
  match r with
  | .symw => { s with symw := v.setWidth 7 }
  | .rbyte => { s with rbyte := v.setWidth 61 }
  | .rbit => { s with rbit := v.setWidth 3 }
  | .rlim => { s with rlim := v.setWidth 61 }
  | .wbyte => { s with wbyte := v.setWidth 61, wbit := 0, wacc := 0 }
  | .wlim => { s with wlim := v.setWidth 61 }
  | .root => { s with root := v.setWidth 32, tcur := v.setWidth 32 }
  | .naddr => { s with naddr := v.setWidth 33 }
  | .ncnt => { s with ncnt := v.setWidth 32 }
  | .wbit | .wacc | .tcur | .flags | .err | .einfo => s

/-! ## The read side of the bit cursor -/

/-- `rpos = 8·RBYTE + RBIT` (R14). -/
def State.readPos (s : State) : Nat := 8 * s.rbyte.toNat + s.rbit.toNat

/-- `inbit(q)`: bit `7 − q mod 8` of `IN[q div 8]` (R40). -/
def State.inBit (s : State) (q : Nat) : Bool := (s.inByte (q / 8)).getLsbD (7 - q % 8)

/-- `hasMore(n)`: `8·RBYTE + RBIT + n ≤ 8·RLIM` (R80). -/
def State.hasMore (s : State) (n : Nat) : Bool := decide (s.readPos + n ≤ 8 * s.rlim.toNat)

/-- The number of readable bits left below RLIM. -/
def State.bitsLeft (s : State) : Nat := 8 * s.rlim.toNat - s.readPos

/-- The loop of `getBits`: `v <- 2·v + inbit(q)` for `n` bits from `q` on (R81). -/
def State.inValue (s : State) : Nat → Nat → Nat → Nat
  | _, 0, v => v
  | q, n + 1, v => State.inValue s (q + 1) n (2 * v + (s.inBit q).toNat)

/-- `getBits(n)`, for `1 ≤ n ≤ 64`: read `n` bits at the read cursor and advance it, all or nothing (R81). The last byte read is
`IN[(q + n − 1) div 8]`, which must exist (R47, log entry 7). -/
def getBits (n : Nat) (s : State) : Res Word :=
  if s.hasMore n then
    if (s.readPos + n - 1) / 8 < s.size.inSize.val then
      .ok (BitVec.ofNat 64 (s.inValue s.readPos n 0)) (s.setReadPos (s.readPos + n))
    else .stop (.noInByte ((s.readPos + n - 1) / 8))
  else .raise .readUnderrun 0 s

/-! ## The write side of the bit cursor -/

/-- `[ v[n−1], …, v[0] ]`: the low `n` bits of a value, most significant first (R41, R85). -/
def msbFirst (v : Word) : Nat → Code
  | 0 => []
  | n + 1 => v.getLsbD n :: msbFirst v n

/-- One bit of `put`'s loop: OR it into WACC, and store the byte when it is complete (R82). -/
def State.putBit (s : State) (b : Bool) : State :=
  let acc := s.wacc ||| ((BitVec.ofBool b).setWidth 8 <<< (7 - s.wbit.toNat))
  if s.wbit.toNat + 1 = 8 then (s.storeOut s.wbyte.toNat acc).setWrite (s.wbyte + 1) 0 0
  else s.setWrite s.wbyte (s.wbit + 1) acc

/-- `put`'s loop over the bits of a bit string, first bit first (R82). -/
def State.putBits (s : State) : Code → State
  | [] => s
  | b :: c => State.putBits (s.putBit b) c

/-- `put(c)`: append a bit string at the write cursor, all or nothing (R82). A `put` that completes no byte never faults, whatever
WBYTE and WLIM are: so R82's prose and D10 against the letter of its pseudocode, log entry 11. The bytes stored must exist (R47,
log entry 7). -/
def put (c : Code) (s : State) : Res Unit :=
  let need := (s.wbit.toNat + c.length) / 8
  if need = 0 then .ok () (s.putBits c)
  else if s.wlim.toNat < s.wbyte.toNat + need then .raise .writeOverrun 0 s
  else if s.size.outSize.val < s.wbyte.toNat + need then .stop (.noOutByte (s.wbyte.toNat + need - 1))
  else .ok () (s.putBits c)

/-- `flushPad()`: store the partial byte, its low bits already zero, and answer how many bytes were stored (R83). -/
def flushPad (s : State) : Res Nat :=
  if s.wbit = 0 then .ok 0 s
  else if s.wlim.toNat ≤ s.wbyte.toNat then .raise .writeOverrun 0 s
  else if s.size.outSize.val ≤ s.wbyte.toNat then .stop (.noOutByte s.wbyte.toNat)
  else .ok 1 ((s.storeOut s.wbyte.toNat s.wacc).setWrite (s.wbyte + 1) 0 0)

end Sys2Proof.Machine
end

