-- ==== Sys2Proof/Machine/BitCursor.lean ====
section
/-! DEFINITION. The meanings of RDBITS, WRBITS, REWIND, HASMORE and FLUSH (spec/40_bitcursor.md R84 to R88). -/

namespace Sys2Proof.Machine

/-- RDBITS (R84): `getBits(n)`, the value zero-extended. -/
def execRdbits (n : BitVec 8) (s : State) : Outcome :=
  issue (.rdbits n) s ((getBits n.toNat s).answer (fun _ => .done) (fun v => v))

/-- WRBITS (R85): append the low `n` bits of the value, most significant first; the bits above are ignored. -/
def execWrbits (n : BitVec 8) (v : Word) (s : State) : Outcome :=
  issue (.wrbits n v) s ((put (msbFirst v n.toNat) s).answer (fun _ => .done) (fun _ => 0))

/-- REWIND (R86): the read cursor back `n` bits; RLIM is not consulted. -/
def execRewind (n : BitVec 8) (s : State) : Outcome :=
  issue (.rewind n) s
    (if s.readPos < n.toNat then .next (s.raise .rewindUnderflow 0)
    else .next ((s.setReadPos (s.readPos - n.toNat)).respond .done 0))

/-- HASMORE (R87): 1 if `n` more bits can be read, else 0; nothing is written. -/
def execHasmore (n : BitVec 8) (s : State) : Outcome :=
  issue (.hasmore n) s (.next (s.respond .done (if s.hasMore n.toNat then 1 else 0)))

/-- FLUSH (R88): `flushPad()`, and how many bytes it stored. -/
def execFlush (s : State) : Outcome :=
  issue .flush s ((flushPad s).answer (fun _ => .done) (fun k => BitVec.ofNat 64 k))

end Sys2Proof.Machine
end

