-- ==== Sys2Proof/Machine/Tree.lean ====
section
/-! DEFINITION. The tree in the NODE space: node records (spec/10_state.md R23, spec/30_encoding.md R64), the descent of the
decoder (spec/41_tree_decoder.md R100, R101), well-formedness (R28) and the code lookup of the packer (spec/42_bit_packer.md
R120, R121). -/

namespace Sys2Proof.Machine

/-! ## Node records (R23, R64) -/

/-- The four kinds of a node record (R23). -/
inductive Kind where
  | invalid
  | internal
  | leaf
  | eof
  deriving DecidableEq, Repr

/-- The kind of a TAG word: its bits 1:0; bits 63:2 are ignored (R64). -/
def kindOfTag (tag : Word) : Kind :=
  match tag.getLsbD 1, tag.getLsbD 0 with
  | false, false => .invalid
  | false, true => .internal
  | true, false => .leaf
  | true, true => .eof

/-- KIND of node `i`, in its TAG word `NODE[2i]` (R64). -/
def State.kind (s : State) (i : Nat) : Kind := kindOfTag (s.nodeWord (2 * i))

/-- The PAYLOAD word of node `i`, `NODE[2i + 1]` (R64): SYMBOL of a LEAF. -/
def State.payload (s : State) (i : Nat) : Word := s.nodeWord (2 * i + 1)

/-- The child of node `i` on bit `b`: LEFT, PAYLOAD[31:0], on 0, RIGHT, PAYLOAD[63:32], on 1 (R64). -/
def State.child (s : State) (i : Nat) (b : Bool) : Nat :=
  if b then ((s.payload i).extractLsb' 32 32).toNat else ((s.payload i).extractLsb' 0 32).toNat

/-! ## The decoder's helpers -/

/-- What one step of the tree cursor arrives at (R100). -/
inductive Arrival where
  | moved
  | symbol (v : Word)
  | eof
  deriving DecidableEq, Repr

/-- "movement is impossible": INTERNAL_CONSISTENCY with the cursor's node as info, before any write (R100). -/
def inconsistent (s : State) : Res Arrival := .raise .internalConsistency (s.tcur.setWidth 64) s

/-- The second half of `descend`: the case on the kind of the destination `d` (R100). -/
def arrive (d : Nat) (s : State) : Res Arrival :=
  match s.kind d with
  | .internal => .ok .moved (s.setTcur (BitVec.ofNat 32 d))
  | .leaf => .ok (.symbol (s.payload d)) (s.setTcur s.root)
  | .eof => .ok .eof (s.setTcur s.root).setEofSeen
  | .invalid => inconsistent s

/-- `descend(b)`: one step of the tree cursor (R100). A node record read must exist (R47, log entry 7). -/
def descend (b : Bool) (s : State) : Res Arrival :=
  let c := s.tcur.toNat
  let d := s.child c b
  if s.ncnt.toNat ≤ c then inconsistent s
  else if s.size.nNodes.val ≤ c then .stop (.noNodeWord (2 * c))
  else if s.kind c ≠ .internal then inconsistent s
  else if s.ncnt.toNat ≤ d then inconsistent s
  else if s.size.nNodes.val ≤ d then .stop (.noNodeWord (2 * d))
  else arrive d s

/-- How the decoding of one symbol ends (R101). -/
inductive Answer where
  | symbol (v : Word)
  | eof
  | exhausted
  deriving DecidableEq, Repr

/-- `decodeOne` when `hasMore(1)` fails: a normal end at the root, TRUNCATED_INPUT with the cursor back at the root mid-path
(R101). -/
def inputEnds (s : State) : Res Answer :=
  if s.tcur = s.root then .ok .exhausted s
  else .raise .truncatedInput (s.tcur.setWidth 64) (s.setTcur s.root)

/-- The loop of `decodeOne` (R101). The number is a bound on the bits left, one less each turn; where it is 0 no bit is left, so
`hasMore(1)` fails there too. -/
def descendInput : Nat → State → Res Answer
  | 0, s => inputEnds s
  | k + 1, s =>
    if s.hasMore 1 then
      (getBits 1 s).andThen fun v s1 =>
        (descend (v.getLsbD 0) s1).andThen fun r s2 =>
          match r with
          | .moved => descendInput k s2
          | .symbol v => .ok (.symbol v) s2
          | .eof => .ok .eof s2
    else inputEnds s

/-- `decodeOne()`: decode one symbol from the input; with EOFSEEN set it answers EOF and consumes nothing (R101). DEDUCED (log entry 18):
that return leaves TCUR as it is, as R101's pseudocode and R104's "consumes nothing" have it; R101's prose gives "on every return TCUR =
ROOT", which differs where a TSTEP after EOF has moved the cursor. -/
def decodeOne (s : State) : Res Answer :=
  if s.eofSeen then .ok .eof s else descendInput s.bitsLeft s

/-! ## Well-formedness (R28) and lookup (R120, R121) -/

/-- A node met by the search, with its path from ROOT, first edge first. -/
structure Visit where
  index : Nat
  kind : Kind
  payload : Word
  path : Code
  deriving DecidableEq, Repr

/-- The depth-first search of R120 below node `i`, left child before right child, carrying the path; the nodes met are added in
front of `seen`. None where the tree is not one: an index at or above NCNT, an INVALID node, or a node met before (R28 items 2
and 3). The number bounds the depth: a path of NCNT distinct nodes has no further one. Log entry 6. -/
def search (s : State) : Nat → Nat → Code → List Visit → Option (List Visit)
  | 0, _, _, _ => none
  | k + 1, i, path, seen =>
    if s.ncnt.toNat ≤ i then none
    else if seen.any fun v => v.index == i then none
    else
      match s.kind i with
      | .invalid => none
      | .leaf => some (⟨i, .leaf, s.payload i, path⟩ :: seen)
      | .eof => some (⟨i, .eof, s.payload i, path⟩ :: seen)
      | .internal =>
        match search s k (s.child i false) (path ++ [false]) (⟨i, .internal, s.payload i, path⟩ :: seen) with
        | none => none
        | some seen1 => search s k (s.child i true) (path ++ [true]) seen1

/-- The nodes reachable from ROOT, each once, if they form a tree. -/
def reachedNodes (s : State) : Option (List Visit) := search s s.ncnt.toNat s.root.toNat [] []

/-- The data leaves among them. -/
def dataLeaves (l : List Visit) : List Visit := l.filter fun v => v.kind == .leaf

/-- The EOF leaves among them. -/
def eofLeaves (l : List Visit) : List Visit := l.filter fun v => v.kind == .eof

/-- `WF(tree)` of R28, decided: item 1; items 2 and 3 by the search; item 4, one EOF leaf; item 5, distinct symbols; item 6, at
least one data leaf. -/
def wfTree (s : State) : Bool :=
  decide (s.root.toNat < s.ncnt.toNat) && decide (s.ncnt.toNat ≤ s.size.nNodes.val) &&
  decide (s.kind s.root.toNat = .internal) &&
  match reachedNodes s with
  | none => false
  | some l =>
    decide ((eofLeaves l).length = 1) && decide ((dataLeaves l).map Visit.payload).Nodup &&
    decide ((dataLeaves l).length ≠ 0)

/-- `codeOf(s)`: the path of the data leaf whose SYMBOL is the value, all 64 bits compared; none if there is none (R120). Used under
`wfTree` only. -/
def codeOf (s : State) (v : Word) : Option Code :=
  match reachedNodes s with
  | none => none
  | some l => ((dataLeaves l).find? fun n => n.payload == v).map Visit.path

/-- `codeOfEof()`: the path of the EOF leaf (R121). Under `wfTree` there is exactly one. -/
def codeOfEof (s : State) : Code :=
  match reachedNodes s with
  | none => []
  | some l =>
    match eofLeaves l with
    | [] => []
    | n :: _ => n.path

/-- The precondition of the packer commands: outside WF(tree) the model has no transition (R120, U5). Log entry 5. -/
def whenTree (s : State) (body : Outcome) : Outcome :=
  if wfTree s then body else .refused .treeNotWellFormed

end Sys2Proof.Machine
end

