-- ==== Sys2Proof/Machine/Decoder.lean ====
section
/-! DEFINITION. The meanings of TRESET, TSTEP, DSYM and DECODE (spec/41_tree_decoder.md R102 to R105). -/

namespace Sys2Proof.Machine

/-- TRESET (R102): the tree cursor at ROOT, EOFSEEN clear; ROOT is not checked. -/
def execTreset (s : State) : Outcome :=
  issue .treset s (.next ((s.setTcur s.root).clearEofSeen.respond .done 0))

/-- STAT of a TSTEP (R103). -/
def Arrival.stat : Arrival → Stat
  | .moved => .done
  | .symbol _ => .symbol
  | .eof => .eof

/-- VAL of a TSTEP (R103). -/
def Arrival.val : Arrival → Word
  | .moved => 0
  | .symbol v => v
  | .eof => 0

/-- TSTEP (R103): `descend(b)`; it neither reads EOFSEEN nor moves a bit cursor. -/
def execTstep (b : Bool) (s : State) : Outcome := issue (.tstep b) s ((descend b s).answer Arrival.stat Arrival.val)

/-- STAT of a DSYM (R104). -/
def Answer.stat : Answer → Stat
  | .symbol _ => .symbol
  | .eof => .eof
  | .exhausted => .exhausted

/-- VAL of a DSYM (R104). -/
def Answer.val : Answer → Word
  | .symbol v => v
  | .eof => 0
  | .exhausted => 0

/-- DSYM (R104): `decodeOne()`, the symbol in full; SYMW is not used and OUT not written. -/
def execDsym (s : State) : Outcome := issue .dsym s ((decodeOne s).answer Answer.stat Answer.val)

/-- The end of a DECODE: `flushPad()`, then the answer with the symbol count (R105). -/
def decodeEnds (stat : Stat) (count : Nat) (s : State) : Res (Stat × Nat) :=
  (flushPad s).andThen fun _ s1 => .ok (stat, count) s1

/-- The loop of DECODE (R105). The number bounds the turns: each but the last consumes at least one bit (R247), so with more turns
than bits left the case 0 is never reached (log entry 8). -/
def decodeLoop : Nat → Nat → State → Res (Stat × Nat)
  | 0, count, s => decodeEnds .exhausted count s
  | k + 1, count, s =>
    (decodeOne s).andThen fun r s1 =>
      match r with
      | .symbol v => (put (msbFirst v s1.symw.toNat) s1).andThen fun _ s2 => decodeLoop k (count + 1) s2
      | .eof => decodeEnds .eof count s1
      | .exhausted => decodeEnds .exhausted count s1

/-- SYMW outside 1 to 64: the first check of DECODE and ENCODE (R105, R124). -/
def State.widthUnset (s : State) : Bool := decide (s.symw.toNat < 1 ∨ 64 < s.symw.toNat)

/-- DECODE (R105): the stream at the read cursor, symbol by symbol, to SYMW-bit fields at the write cursor. -/
def execDecode (s : State) : Outcome :=
  issue .decode s
    (if s.widthUnset then .next (s.raise .unsupportedConfig (s.symw.setWidth 64))
    else (decodeLoop (s.bitsLeft + 1) 0 s).answer (fun r => r.1) (fun r => BitVec.ofNat 64 r.2))

end Sys2Proof.Machine
end

