-- ==== Sys2Proof/Machine/Packer.lean ====
section
/-! DEFINITION. The meanings of ENCSYM, ENCEOF and ENCODE (spec/42_bit_packer.md R122 to R126). -/

namespace Sys2Proof.Machine

/-- Append a code; the answer is its length (R122, R123). -/
def putCode (c : Code) (s : State) : Res Nat := (put c s).andThen fun _ s1 => .ok c.length s1

/-- ENCSYM (R122): the symbol's code appended whole, or INCOMPATIBLE_TABLE with nothing written. -/
def execEncsym (v : Word) (s : State) : Outcome :=
  issue (.encsym v) s
    (whenTree s
      (match codeOf s v with
      | none => .next (s.raise .incompatibleTable v)
      | some c => (putCode c s).answer (fun _ => .done) (fun n => BitVec.ofNat 64 n)))

/-- ENCEOF (R123): the EOF leaf's code appended; no flush. -/
def execEnceof (s : State) : Outcome :=
  issue .enceof s
    (whenTree s ((putCode (codeOfEof s) s).answer (fun _ => .done) (fun n => BitVec.ofNat 64 n)))

/-- The read cursor put back where the symbol began (R124). -/
def State.backTo (s s0 : State) : State := { s with rbyte := s0.rbyte, rbit := s0.rbit }

/-- One turn of ENCODE's loop: read a symbol, look its code up, append it; a symbol that fails is not consumed (R124). -/
def encodeOne (s : State) : Res Unit :=
  (getBits s.symw.toNat s).andThen fun v s1 =>
    match codeOf s1 v with
    | none => .raise .incompatibleTable v (s1.backTo s)
    | some c =>
      match put c s1 with
      | .ok _ s2 => .ok () s2
      | .raise f info s2 => .raise f info (s2.backTo s)
      | .stop f => .stop f

/-- ENCODE's loop, while `hasMore(SYMW)` (R124); it answers the number of symbols encoded. The number bounds the turns: each
consumes SYMW bits. -/
def encodeLoop : Nat → Nat → State → Res Nat
  | 0, count, s => .ok count s
  | k + 1, count, s =>
    if s.hasMore s.symw.toNat then (encodeOne s).andThen fun _ s1 => encodeLoop k (count + 1) s1
    else .ok count s

/-- The end of ENCODE: the EOF code and the flush (R124). -/
def encodeEnds (count : Nat) (s : State) : Res Nat :=
  (put (codeOfEof s) s).andThen fun _ s1 => (flushPad s1).andThen fun _ s2 => .ok count s2

/-- ENCODE (R124): the symbol stream at the read cursor to a payload at the write cursor; bits short of a symbol stay unread
(R125), nothing is rolled back (R126). SYMW is checked first of all. -/
def execEncode (s : State) : Outcome :=
  issue .encode s
    (if s.widthUnset then .next (s.raise .unsupportedConfig (s.symw.setWidth 64))
    else whenTree s
      (((encodeLoop (s.bitsLeft / s.symw.toNat) 0 s).andThen encodeEnds).answer (fun _ => .done)
        (fun n => BitVec.ofNat 64 n)))

end Sys2Proof.Machine
end

