-- ==== Sys2Proof/Machine/System.lean ====
section
/-! DEFINITION. The meanings of RESET, SETREG, GETREG, WRNODE and RDNODE (spec/43_system.md R140 to R144). -/

namespace Sys2Proof.Machine

/-- RESET (R140): every control register to its reset value, whatever ERR holds; the memories are kept. -/
def execReset (s : State) : Outcome := issue .reset s (.next (s.resetRegs.respond .done 0))

/-- SETREG (R141): a value outside the legal range faults with that value as info and leaves the register unchanged. -/
def execSetreg (r : Reg) (v : Word) (s : State) : Outcome :=
  issue (.setreg r v) s
    (match s.setregFault r v with
    | some c => .next (s.raise c v)
    | none => .next ((s.writeReg r v).respond .done 0))

/-- GETREG (R142): it passes the sticky-fault gate and writes nothing. -/
def execGetreg (r : Reg) (s : State) : Outcome := issue (.getreg r) s (.next (s.respond .done (s.readReg r)))

/-- WRNODE (R143): store the word at NADDR as given and advance NADDR. -/
def execWrnode (w : Word) (s : State) : Outcome :=
  issue (.wrnode w) s
    (if 2 * s.size.nNodes.val ≤ s.naddr.toNat then .next (s.raise .nodeRange (s.naddr.setWidth 64))
    else .next (((s.storeNode s.naddr.toNat w).setNaddr (s.naddr + 1)).respond .done 0))

/-- RDNODE (R144): read the word at NADDR and advance NADDR. -/
def execRdnode (s : State) : Outcome :=
  issue .rdnode s
    (if 2 * s.size.nNodes.val ≤ s.naddr.toNat then .next (s.raise .nodeRange (s.naddr.setWidth 64))
    else .next ((s.setNaddr (s.naddr + 1)).respond .done (s.nodeWord s.naddr.toNat)))

end Sys2Proof.Machine
end

