-- ==== Sys2Proof/Machine/Dispatch.lean ====
section
/-! DEFINITION. One arm per command (spec/30_encoding.md R61). -/

namespace Sys2Proof.Machine

-- The meaning of each command, every one called once.
def exec (i : Instr) (s : State) : Host.Outcome State Fault Refusal :=
  match i with
  | .reset => Sys2Proof.Machine.execReset s
  | .setreg reg value => Sys2Proof.Machine.execSetreg reg value s
  | .getreg reg => Sys2Proof.Machine.execGetreg reg s
  | .wrnode word => Sys2Proof.Machine.execWrnode word s
  | .rdnode => Sys2Proof.Machine.execRdnode s
  | .rdbits n => Sys2Proof.Machine.execRdbits n s
  | .wrbits n value => Sys2Proof.Machine.execWrbits n value s
  | .rewind n => Sys2Proof.Machine.execRewind n s
  | .hasmore n => Sys2Proof.Machine.execHasmore n s
  | .flush => Sys2Proof.Machine.execFlush s
  | .treset => Sys2Proof.Machine.execTreset s
  | .tstep b => Sys2Proof.Machine.execTstep b s
  | .dsym => Sys2Proof.Machine.execDsym s
  | .decode => Sys2Proof.Machine.execDecode s
  | .encsym symbol => Sys2Proof.Machine.execEncsym symbol s
  | .enceof => Sys2Proof.Machine.execEnceof s
  | .encode => Sys2Proof.Machine.execEncode s

end Sys2Proof.Machine
end

