-- ==== Sys2Proof/Machine/HostMoves.lean ====
section
/-! DEFINITION. What one move of the host does (spec/70_reset_and_hazards.md R239): a packet is run to its response
(spec/60_exceptions.md R206), a byte of IN or OUT is written. -/

namespace Sys2Proof.Machine

/-- A packet issued: the sticky-fault gate, legality, then the command (R206). A legal packet is run by `exec`, whose meanings hold
the gate; an illegal one by `illegalPacket`. -/
def runPacket (p : Packet) (s : State) : Outcome :=
  match decode p with
  | .legal i => exec i s
  | .illegal _ => .next (illegalPacket p s)

/-- The host writes a byte of IN that exists (R22, R239). -/
def hostWriteIn (a : Nat) (b : Byte) (s : State) : Outcome :=
  if a < s.size.inSize.val then .next (s.storeIn a b) else .fault (.noInByte a)

/-- The host writes a byte of OUT that exists (R22, R239). -/
def hostWriteOut (a : Nat) (b : Byte) (s : State) : Outcome :=
  if a < s.size.outSize.val then .next (s.storeOut a b) else .fault (.noOutByte a)

/-- The host reads a byte of OUT and writes it to IN, both of which exist (R239). -/
def hostCopy (src dst : Nat) (s : State) : Outcome :=
  if s.size.outSize.val ≤ src then .fault (.noOutByte src) else hostWriteIn dst (s.outByte src) s

/-- One move of the host, taken when no command executes (R51). -/
def runMove (m : HostMove) (s : State) : Outcome :=
  match m with
  | .command p => runPacket p s
  | .writeIn a b => hostWriteIn a b s
  | .writeOut a b => hostWriteOut a b s
  | .copyOutToIn src dst => hostCopy src dst s

/-- One step: the host's next move. With no move left the block waits, unchanged (R217, R231; log entry 1). -/
def advance (s : State) : Outcome :=
  match s.script with
  | [] => .next s
  | m :: rest => runMove m (s.setScript rest)

/-- The state in which the host issues a packet next, before the rest of its script (R69). -/
def State.issueNext (s : State) (p : Packet) : State := s.setScript (.command p :: s.script)

end Sys2Proof.Machine
end

