-- ==== Sys2Proof/Machine/Step.lean ====
section
/-! DEFINITION. One step of the machine. -/

namespace Sys2Proof.Machine

/-- One step: the host's next move, run to its end (spec/20_memory.md R46, R48). -/
def step (s : State) : Host.Outcome State Fault Refusal := advance s

/-- The state in which the very next step runs the packet whose low `nbits` bits are `w`'s: the host issues it next. It stands for
the host's issuing a packet (log entry 1); nothing else changes. -/
def State.withFetchWord (s : State) (nbits w : Nat) : State := s.issueNext (packetOfTableWord nbits w)

end Sys2Proof.Machine
end

