-- ==== Sys2Proof/Machine/HostTree.lean ====
section
/-! DEFINITION. The software around the block, not the block (spec/00_scope.md R4): the frequency table and the reference constructor
of the code tree, whose result the host loads into NODE (spec/45_host_tree_construction.md R160 to R170). No step runs any of it.
Log entry 12. -/

namespace Sys2Proof.Machine

/-! ## How the software fails -/

/-- The failures of the software around the block, by name. None of them is a fault of the block. -/
inductive HostFailure where
  /-- The source's UnsupportedConfiguration: a symbol width outside 1 to 64, or outside the table format's 2 to 16 (R176), or a table with
  no valid entry (R170). -/
  | unsupportedConfiguration
  /-- The source's MalformedTable (R174). -/
  | malformedTable
  /-- No failure of the source: a count or a sum of counts of 2^64 or more, which "a model should `refuse`" (U7). -/
  | countNotStated
  /-- No failure of the source: a read window that passes the end of IN, which SETREG lets no host make (R141; log entry 7). -/
  | windowAbsent
  deriving DecidableEq, Repr

/-! ## The frequency table (R160 to R162) -/

/-- A symbol width of the coder, 1 to 64 (R160, R176). -/
abbrev Width := { n : Nat // 1 ≤ n ∧ n ≤ 64 }

/-- A frequency table: the symbol width, the optional declared size in bytes (a 64-bit number, as its field is at most 8 bytes wide, log
entry 13), and the counts by symbol, in ascending order of the symbols; a symbol with count 0 is absent (R160). -/
structure FreqTable where
  width : Width
  declaredSize : Option Word
  counts : Memory 64
  deriving DecidableEq, Repr

/-- `new(symbolWidth)` (R161): UnsupportedConfiguration for a width outside 1 to 64 (R160, R176). -/
def FreqTable.new (width : Nat) : Except HostFailure FreqTable :=
  if h : 1 ≤ width ∧ width ≤ 64 then .ok ⟨⟨width, h⟩, none, []⟩ else .error .unsupportedConfiguration

/-- `setDeclaredSize(n)` (R161). -/
def FreqTable.setDeclaredSize (t : FreqTable) (n : Word) : FreqTable := { t with declaredSize := some n }

/-- The count of a symbol, 0 where it is absent (R160). -/
def FreqTable.count (t : FreqTable) (v : Word) : Word := (Memory.cell? t.counts v.toNat).getD 0

/-- `setFrequency(symbol, count)` (R161): count 0 makes the symbol absent (R160). -/
def FreqTable.setFrequency (t : FreqTable) (v count : Word) : FreqTable :=
  if count = 0 then { t with counts := t.counts.filter fun e => e.1 != v.toNat }
  else { t with counts := Memory.store t.counts v.toNat count }

/-- `increment(symbol)` (R161). At count `2^64 − 1` nothing is stated (N14, U7). -/
def FreqTable.increment (t : FreqTable) (v : Word) : Except HostFailure FreqTable :=
  if (t.count v).toNat + 1 < 2 ^ 64 then .ok (t.setFrequency v (t.count v + 1)) else .error .countNotStated

/-- `validEntries()`: how many symbols have a count above 0 (R161). -/
def FreqTable.validEntries (t : FreqTable) : Nat := t.counts.length

/-- `maxFrequency()` (R161). -/
def FreqTable.maxFrequency (t : FreqTable) : Nat := t.counts.foldl (fun m e => max m e.2.toNat) 0

/-- `entriesSortedBySymbol()` (R161). -/
def FreqTable.entriesSortedBySymbol (t : FreqTable) : List (Word × Word) :=
  t.counts.map fun e => (BitVec.ofNat 64 e.1, e.2)

/-- Insertion into an ordered list: immediately before the first element that does not stand before the new one. -/
def insertBy {α : Type} (before : α → α → Bool) (n : α) : List α → List α
  | [] => [n]
  | m :: l => if before m n then m :: insertBy before n l else n :: m :: l

/-- `entriesSortedByFrequency()` (R161). The source gives the name alone: whether the greatest count stands first, and the order of two
symbols with one count (N14), are arguments (log entry 12). -/
def FreqTable.entriesSortedByFrequency (t : FreqTable) (greatestFirst : Bool) (tie : Word → Word → Bool) : List (Word × Word) :=
  t.entriesSortedBySymbol.foldl
    (fun l e => insertBy (fun x y => if x.2 = y.2 then tie x.1 y.1 else decide (x.2.toNat < y.2.toNat) != greatestFirst) e l) []

/-- The chunks a scan meets: what `getBits(SYMW)` returns while `hasMore(SYMW)` holds (R162), each counted once. The number bounds
the turns. -/
def countWindow : Nat → State → FreqTable → Except HostFailure FreqTable
  | 0, _, t => .ok t
  | k + 1, s, t =>
    if s.hasMore t.width.val then
      match getBits t.width.val s with
      | .ok v s1 => (t.increment v).bind (countWindow k s1)
      | .raise _ _ _ => .ok t
      | .stop _ => .error .windowAbsent
    else .ok t

/-- Building a table from the read window (R162). -/
def buildFrequencyTable (width : Nat) (s : State) : Except HostFailure FreqTable :=
  (FreqTable.new width).bind (countWindow (s.bitsLeft / width) s)

/-! ## Construction (R163 to R168) -/

/-- EOFVAL, the reserved symbol value `2^63 − 1` of the EOF sentinel (R6). -/
def eofVal : Word := 0x7FFFFFFFFFFFFFFF

/-- A code tree under construction: leaves and merged nodes (R163, R165). -/
inductive CodeTree where
  | leaf (symbol : Word)
  | eof
  | node (left right : CodeTree)
  deriving DecidableEq, Repr

/-- The weight of a node: its right-most leaf's symbol value, EOFVAL for the EOF leaf (R163, R165). -/
def CodeTree.weight : CodeTree → Nat
  | .leaf v => v.toNat
  | .eof => eofVal.toNat
  | .node _ r => r.weight

/-- The right-most leaf is the EOF leaf. -/
def CodeTree.endsInEof : CodeTree → Bool
  | .leaf _ => false
  | .eof => true
  | .node _ r => r.endsInEof

/-- A worklist entry: a tree with its total frequency (R164). -/
structure WorkItem where
  freq : Nat
  tree : CodeTree
  deriving DecidableEq, Repr

/-- `x` stands before `y`: lower total frequency, and on a tie the higher weight (R164); where both agree, a data leaf equal to EOFVAL
before the EOF leaf (R166 (c)). -/
def WorkItem.before (x y : WorkItem) : Bool :=
  decide (x.freq < y.freq) ||
    (decide (x.freq = y.freq) &&
      (decide (y.tree.weight < x.tree.weight) ||
        (decide (x.tree.weight = y.tree.weight) && !x.tree.endsInEof && y.tree.endsInEof)))

/-- Insertion into the worklist (R164). -/
def insertItem : WorkItem → List WorkItem → List WorkItem := insertBy WorkItem.before

/-- The EOF sentinel's leaf, frequency 1 (R163). -/
def eofItem : WorkItem := ⟨1, .eof⟩

/-- The worklist of a table: a leaf for every symbol with a positive count, and the EOF leaf (R163). -/
def worklist (t : FreqTable) : List WorkItem :=
  insertItem eofItem (t.entriesSortedBySymbol.foldl (fun l e => insertItem ⟨e.2.toNat, .leaf e.1⟩ l) [])

/-- Two popped nodes merged: the first becomes the RIGHT child, the second the LEFT child, the frequency is their sum (R165,
R166 (a)). -/
def WorkItem.merge (first second : WorkItem) : WorkItem := ⟨first.freq + second.freq, .node second.tree first.tree⟩

/-- The merge loop on the worklist `x :: l`, until one node remains (R165). The number bounds the merges: one fewer than the nodes are
made, so with that many the case 0 is reached with one node. -/
def mergeAll : Nat → WorkItem → List WorkItem → CodeTree
  | 0, x, _ => x.tree
  | _ + 1, x, [] => x.tree
  | k + 1, x, y :: l =>
    match insertItem (x.merge y) l with
    | [] => (x.merge y).tree
    | z :: rest => mergeAll k z rest

/-- The sum of all counts, the EOF leaf's 1 included. -/
def FreqTable.total (t : FreqTable) : Nat := t.counts.foldl (fun n e => n + e.2.toNat) 1

/-- The reference constructor (R163 to R166): UnsupportedConfiguration where the table has no valid entry (R170); counts that sum to
`2^64` or more are refused (U7). The worklist holds the EOF leaf at least, so it is never empty. -/
def buildTree (t : FreqTable) : Except HostFailure CodeTree :=
  if t.validEntries = 0 then .error .unsupportedConfiguration
  else if 2 ^ 64 ≤ t.total then .error .countNotStated
  else
    match worklist t with
    | [] => .ok .eof
    | x :: l => .ok (mergeAll t.validEntries x l)

/-- The codes of the leaves, left to right: each left edge appends 0, each right edge 1 (R168). The EOF leaf's entry has no symbol. -/
def CodeTree.codes : CodeTree → List (Option Word × Code)
  | .leaf v => [(some v, [])]
  | .eof => [(none, [])]
  | .node l r => l.codes.map (fun e => (e.1, false :: e.2)) ++ r.codes.map (fun e => (e.1, true :: e.2))

/-- The code of a symbol, or of the EOF leaf for none (R168). -/
def CodeTree.codeFor (t : CodeTree) (v : Option Word) : Option Code := (t.codes.find? fun e => e.1 == v).map Prod.snd

/-! ## Loading (R169) -/

/-- The number of nodes of a tree. -/
def CodeTree.size : CodeTree → Nat
  | .leaf _ => 1
  | .eof => 1
  | .node l r => 1 + l.size + r.size

/-- The TAG and PAYLOAD words of the records of a tree whose root has index `i`: each node before its left subtree, that before its
right subtree (R64; the numbering is the host's choice, R169). -/
def CodeTree.words : CodeTree → Nat → List Word
  | .leaf v, _ => [2, v]
  | .eof, _ => [3, eofVal]
  | .node l r, i =>
    [1, BitVec.ofNat 32 (i + 1 + l.size) ++ BitVec.ofNat 32 (i + 1)] ++ l.words (i + 1) ++ r.words (i + 1 + l.size)

/-- The commands that load a tree with its root at node 0, then set NCNT and ROOT (R169, R235 step 3). -/
def loadTree (t : CodeTree) : List Instr :=
  [.setreg .naddr 0] ++ (t.words 0).map .wrnode ++ [.setreg .ncnt (BitVec.ofNat 64 t.size), .setreg .root 0]

end Sys2Proof.Machine
end

