-- ==== Sys2Proof/Machine/HostTable.lean ====
section
/-! DEFINITION. The software around the block, not the block (spec/00_scope.md R4): the serialized frequency table
(spec/45_host_tree_construction.md R172 to R176). No step runs any of it. Log entry 13. -/

namespace Sys2Proof.Machine

/-- Byte order of a multi-byte field. -/
inductive ByteOrder where
  | little
  | big
  deriving DecidableEq, Repr

/-- TBL_ORDER, the order of the records in the table: "ascending or table-native" (R173, N13, D29). The native order is not given, so it
is any list of symbols: their records come first, in the list's order, then the others, ascending. -/
inductive RecordOrder where
  | ascending
  | tableNative (symbols : List Word)
  deriving DecidableEq, Repr

/-- The records of the symbols of a list, in the list's order, then the others as they stand. -/
def recordsFirst : List Word → List (Word × Word) → List (Word × Word)
  | [], l => l
  | v :: vs, l => l.filter (fun e => e.1 == v) ++ recordsFirst vs (l.filter fun e => !(e.1 == v))

/-- The records, given in ascending order, in the order of the format (R173). -/
def RecordOrder.arrange : RecordOrder → List (Word × Word) → List (Word × Word)
  | .ascending, l => l
  | .tableNative symbols, l => recordsFirst symbols l

/-- What the source leaves open of the format (N10 to N13, D29): TBL_MAGIC, TBL_RESERVED, TBL_BYTEORDER of each multi-byte field,
TBL_ORDER, and whether a declared size that fits 4 bytes is written in 8. -/
structure TableFormat where
  magic : BitVec 32
  reserved : Byte
  entryCountOrder : ByteOrder
  sizeOrder : ByteOrder
  recordOrder : ByteOrder
  order : RecordOrder
  wideSize : Bool
  deriving DecidableEq, Repr

/-- A number in `n` bytes, least significant first. -/
def leBytes (v : Nat) : Nat → List Byte
  | 0 => []
  | n + 1 => BitVec.ofNat 8 v :: leBytes (v / 256) n

/-- A number in `n` bytes in a byte order. -/
def numBytes (o : ByteOrder) (n v : Nat) : List Byte :=
  match o with
  | .little => leBytes v n
  | .big => (leBytes v n).reverse

/-- The number of little-endian bytes. -/
def leValue : List Byte → Nat
  | [] => 0
  | b :: l => b.toNat + 256 * leValue l

/-- The number bytes hold in a byte order. -/
def numValue (o : ByteOrder) (l : List Byte) : Nat :=
  match o with
  | .little => leValue l
  | .big => leValue l.reverse

/-- `symbolBytes = ceil(symbolWidth/8)` (R172). -/
def symbolBytes (width : Nat) : Nat := (width + 7) / 8

/-- `freqBytes`: the smallest of 1, 2, 4, 8 bytes that holds the maximum frequency (R172). -/
def freqBytes (m : Nat) : Nat :=
  if m < 2 ^ 8 then 1 else if m < 2 ^ 16 then 2 else if m < 2 ^ 32 then 4 else 8

/-- The width of the declared-size field, 0 for none (R173). -/
def sizeBytes (f : TableFormat) : Option Word → Nat
  | none => 0
  | some n => if f.wideSize ∨ 2 ^ 32 ≤ n.toNat then 8 else 4

/-- The bytes of one record (R173). -/
def recordBytes (f : TableFormat) (sb fb : Nat) (e : Word × Word) : List Byte :=
  numBytes f.recordOrder sb e.1.toNat ++ numBytes f.recordOrder fb e.2.toNat

/-- The widths the table format supports (R173, R176). -/
abbrev TableWidthOk (w : Nat) : Prop := 2 ≤ w ∧ w ≤ 16

/-- The magic, as its four bytes in file order. -/
def magicBytes (f : TableFormat) : List Byte := numBytes .big 4 f.magic.toNat

/-- `serializeTable(table, includeSize)` (R173, R175): UnsupportedConfiguration where the width is outside the format's (R176). -/
def serializeTable (f : TableFormat) (t : FreqTable) (includeSize : Bool) : Except HostFailure (List Byte) :=
  let size := if includeSize then t.declaredSize else none
  let sb := symbolBytes t.width.val
  let fb := freqBytes t.maxFrequency
  if TableWidthOk t.width.val then
    .ok (magicBytes f ++
      [BitVec.ofNat 8 (sizeBytes f size), BitVec.ofNat 8 t.width.val, BitVec.ofNat 8 (8 * fb), f.reserved] ++
      numBytes f.entryCountOrder 4 t.validEntries ++
      numBytes f.sizeOrder (sizeBytes f size) (size.getD 0).toNat ++
      ((f.order.arrange t.entriesSortedBySymbol).flatMap (recordBytes f sb fb)))
  else .error .unsupportedConfiguration

/-- `n` records into a table, in whatever order they stand (N13), with the bytes after them; MalformedTable where the bytes end
first. DESIGN CHOICE (log entry 13), for bytes that no writer of R173 makes: of two records of one symbol the later one stands, a record
with frequency 0 leaves its symbol absent, an earlier record of it undone, and a symbol's value is taken whole though it pass the symbol
width. -/
def readRecords (f : TableFormat) (sb fb : Nat) : Nat → List Byte → FreqTable → Except HostFailure (FreqTable × List Byte)
  | 0, l, t => .ok (t, l)
  | n + 1, l, t =>
    if l.length < sb + fb then .error .malformedTable
    else
      readRecords f sb fb n (l.drop (sb + fb))
        (t.setFrequency (BitVec.ofNat 64 (numValue f.recordOrder (l.take sb)))
          (BitVec.ofNat 64 (numValue f.recordOrder ((l.drop sb).take fb))))

/-- A table whose magic stands at the head of the bytes, with the bytes after its last record (R173, R174): MalformedTable where the
symbol width is out of range, the size-field width is none of 0, 4, 8, the frequency width is none the format has, or the bytes end
first. DESIGN CHOICE (log entry 13): the reserved byte at offset 7 is not looked at; whether a reader checks it is not given (N11). -/
def parseTable (f : TableFormat) (l : List Byte) : Except HostFailure (FreqTable × List Byte) :=
  let hasSize := (l.getD 4 0).toNat
  let width := (l.getD 5 0).toNat
  let bits := (l.getD 6 0).toNat
  if l.length < 12 + hasSize ∨ ¬ (hasSize = 0 ∨ hasSize = 4 ∨ hasSize = 8) ∨
      ¬ (bits = 8 ∨ bits = 16 ∨ bits = 32 ∨ bits = 64) then .error .malformedTable
  else if h : TableWidthOk width then
    let size := if hasSize = 0 then none else some (BitVec.ofNat 64 (numValue f.sizeOrder ((l.drop 12).take hasSize)))
    readRecords f (symbolBytes width) (bits / 8) (numValue f.entryCountOrder ((l.drop 8).take 4)) (l.drop (12 + hasSize))
      ⟨⟨width, by omega⟩, size, []⟩
  else .error .malformedTable

/-- The forward scan for the magic, and the table there with the bytes after it; MalformedTable where the magic is absent (R174). -/
def findTable (f : TableFormat) : List Byte → Except HostFailure (FreqTable × List Byte)
  | [] => .error .malformedTable
  | b :: l => if (b :: l).take 4 = magicBytes f then parseTable f (b :: l) else findTable f l

/-- `readTable(buffer, searchFromOffset)` (R174). -/
def readTable (f : TableFormat) (buffer : List Byte) (searchFrom : Nat) : Except HostFailure FreqTable :=
  (findTable f (buffer.drop searchFrom)).map Prod.fst

/-- The offset in the buffer of the first byte after the table: the payload's, in a blob that includes its table (R177). -/
def tableEnd (f : TableFormat) (buffer : List Byte) (searchFrom : Nat) : Except HostFailure Nat :=
  (findTable f (buffer.drop searchFrom)).map fun r => buffer.length - r.2.length

end Sys2Proof.Machine
end

