-- ==== Sys2Proof/Safety.lean ====
section
/-! DEFINITION. What claims about the block are stated in: the invariants of spec/10_state.md R29, the tree as a set of paths
(R28, R120), the bits of the input window and of the output, and a safe answer of a step. -/

namespace Sys2Proof.Machine

/-! ## The state invariant (R29) -/

/-- Every register holds a value in its legal range (R12, R29); RBIT and WBIT cannot leave theirs. -/
abbrev State.RegsLegal (s : State) : Prop :=
  s.symw.toNat ≤ 64 ∧ s.rbyte.toNat ≤ s.size.inSize.val ∧ s.rlim.toNat ≤ s.size.inSize.val ∧
  s.wbyte.toNat ≤ s.size.outSize.val ∧ s.wlim.toNat ≤ s.size.outSize.val ∧
  s.root.toNat < s.size.nNodes.val ∧ s.tcur.toNat < s.size.nNodes.val ∧
  s.naddr.toNat ≤ 2 * s.size.nNodes.val ∧ s.ncnt.toNat ≤ s.size.nNodes.val

/-- `WACC[7 − WBIT : 0] = 0` (R17, R29). -/
abbrev State.AccClear (s : State) : Prop := ∀ j, j < 8 - s.wbit.toNat → s.wacc.getLsbD j = false

/-- ERR is 0 or a fault code 0x81 to 0x8A (R12, R29). -/
abbrev State.ErrLegal (s : State) : Prop := s.err = 0 ∨ (0x81 ≤ s.err.toNat ∧ s.err.toNat ≤ 0x8A)

/-- The memories keep their canonical form and lie in their spaces (R47). -/
abbrev State.MemoriesLegal (s : State) : Prop :=
  Memory.wf (w := 8) s.inMem = true ∧ Memory.within (w := 8) s.size.inSize.val s.inMem = true ∧
  Memory.wf (w := 8) s.outMem = true ∧ Memory.within (w := 8) s.size.outSize.val s.outMem = true ∧
  Memory.wf (w := 64) s.nodeMem = true ∧ Memory.within (w := 64) (2 * s.size.nNodes.val) s.nodeMem = true

/-- The invariant of R29. -/
abbrev State.Inv (s : State) : Prop :=
  s.size.ok = true ∧ s.RegsLegal ∧ s.AccClear ∧ s.ErrLegal ∧ s.MemoriesLegal

/-! ## Bits -/

/-- The `n` input bits from bit position `q` on, in the order they are consumed (R40). -/
def State.inCode (s : State) (q n : Nat) : Code := (List.range n).map fun k => s.inBit (q + k)

/-- The bits held in the partial byte, first written first: bits 7 down to 8 − WBIT of WACC (R17). -/
def State.pending (s : State) : Code := (List.range s.wbit.toNat).map fun k => s.wacc.getLsbD (7 - k)

/-- The low `n` bits of a value, most significant first (R41). -/
def valueBits (v : Word) (n : Nat) : Code := (List.range n).map fun k => v.getLsbD (n - 1 - k)

/-- The number whose binary digits are a bit string, first bit most significant (R41). -/
def bitsNat (c : Code) : Nat := c.foldl (fun v b => 2 * v + b.toNat) 0

/-- The whole bytes that appending `n` bits completes (R44, R82). -/
def State.bytesFor (s : State) (n : Nat) : Nat := (s.wbit.toNat + n) / 8

/-- The bytes that appending `n` bits completes lie below WLIM; appending bits that complete none always fits (R82). -/
abbrev State.Fits (s : State) (n : Nat) : Prop := s.bytesFor n = 0 ∨ s.wbyte.toNat + s.bytesFor n ≤ s.wlim.toNat

/-- `t` is `s` with the bit string `c` appended at the write cursor: the partial byte's bits and `c` after them fill whole bytes
from WBYTE on, MSB-first, the rest is the new partial byte, and no other byte of OUT changes (R40, R44, R82). -/
def Appended (s t : State) (c : Code) : Prop :=
  t.wbyte.toNat = s.wbyte.toNat + s.bytesFor c.length ∧
  t.pending = (s.pending ++ c).drop (8 * s.bytesFor c.length) ∧
  t.AccClear ∧
  (∀ k, k < 8 * s.bytesFor c.length →
    (t.outByte (s.wbyte.toNat + k / 8)).getLsbD (7 - k % 8) = (s.pending ++ c).getD k false) ∧
  (∀ a, a < s.wbyte.toNat ∨ s.wbyte.toNat + s.bytesFor c.length ≤ a → t.outByte a = s.outByte a)

/-- Zero bits up to the next byte boundary after `n` bits (R66, R83). -/
def padding (n : Nat) : Code := List.replicate ((8 - n % 8) % 8) false

/-- Only the write cursor, the partial byte, OUT and the response may differ (R126: nothing else moves with them). -/
def OnlyWriteSide (s t : State) : Prop :=
  t = { s with wbyte := t.wbyte, wbit := t.wbit, wacc := t.wacc, outMem := t.outMem, rsp := t.rsp }

/-! ## The tree as a set of paths -/

/-- `walk(c)` from node `i` (R120): LEFT on 0, RIGHT on 1, defined while every node left behind is INTERNAL with the child index below
NCNT. -/
def State.walk (s : State) : Nat → Code → Option Nat
  | i, [] => some i
  | i, b :: c =>
    if s.kind i = .internal ∧ s.child i b < s.ncnt.toNat then State.walk s (s.child i b) c else none

/-- A node reachable from ROOT (R28). -/
def State.Reaches (s : State) (i : Nat) : Prop := ∃ c, s.walk s.root.toNat c = some i

/-- `WF(tree)`, item by item (R28). -/
def State.TreeWF (s : State) : Prop :=
  (s.root.toNat < s.ncnt.toNat ∧ s.ncnt.toNat ≤ s.size.nNodes.val ∧ s.kind s.root.toNat = .internal) ∧
  (∀ i, s.Reaches i → s.kind i ≠ .invalid ∧ (s.kind i = .internal → ∀ b, s.child i b < s.ncnt.toNat)) ∧
  ((∀ i b, s.Reaches i → s.kind i = .internal → s.child i b ≠ s.root.toNat) ∧
    ∀ i j b b', s.Reaches i → s.Reaches j → s.kind i = .internal → s.kind j = .internal →
      s.child i b = s.child j b' → i = j ∧ b = b') ∧
  (∃ e, s.Reaches e ∧ s.kind e = .eof ∧ ∀ e', s.Reaches e' → s.kind e' = .eof → e' = e) ∧
  (∀ i j, s.Reaches i → s.Reaches j → s.kind i = .leaf → s.kind j = .leaf → s.payload i = s.payload j → i = j) ∧
  ∃ i, s.Reaches i ∧ s.kind i = .leaf

/-- `c` is a non-empty code that leads from node `i` to node `d` (R65). -/
abbrev State.Leads (s : State) (i : Nat) (c : Code) (d : Nat) : Prop := c ≠ [] ∧ s.walk i c = some d

/-- One step of the tree cursor from node `i` on bit `b` is impossible: "already at a leaf or invalid direction" (R100). -/
abbrev State.NoWay (s : State) (i : Nat) (b : Bool) : Prop :=
  s.ncnt.toNat ≤ i ∨ s.kind i ≠ .internal ∨ s.ncnt.toNat ≤ s.child i b ∨ s.kind (s.child i b) = .invalid

/-- The bit string is the codes of the symbols, end to end: each code leads from ROOT to a data leaf that holds the symbol (R65,
R66). -/
def State.Spells (s : State) : List Word → Code → Prop
  | [], c => c = []
  | v :: vs, c =>
    ∃ c1 c2 d, c = c1 ++ c2 ∧ s.Leads s.root.toNat c1 d ∧ s.kind d = .leaf ∧ s.payload d = v ∧ State.Spells s vs c2

/-- What a decoder reads from node `i` on (R65, R101, R105): the bit string is the codes of the symbols, end to end, the first one led
from `i`, where a path may have been begun (D31), each other from ROOT; `j` is the node the tree cursor stands on after them. -/
def State.Decodes (s : State) : Nat → List Word → Code → Nat → Prop
  | i, [], c, j => c = [] ∧ j = i
  | i, v :: vs, c, j =>
    ∃ c1 c2 d, c = c1 ++ c2 ∧ i < s.ncnt.toNat ∧ s.Leads i c1 d ∧ s.kind d = .leaf ∧ s.payload d = v ∧
      State.Decodes s s.root.toNat vs c2 j

/-- The bit string is a leaf's code, as the packer's lookup gives it: of a symbol, or of EOF (R120, R121). -/
def IsCode (s : State) (c : Code) : Prop := (∃ v, codeOf s v = some c) ∨ c = codeOfEof s

/-- A symbol stream: fields of `n` bits laid end to end, most significant bit first (R71). -/
def symbolStream (n : Nat) (vs : List Word) : Code := vs.flatMap fun v => valueBits v n

/-- The limits stand inside the spaces (R29), so no access meets an absent address. -/
abbrev State.LimitsLegal (s : State) : Prop :=
  s.rlim.toNat ≤ s.size.inSize.val ∧ s.wlim.toNat ≤ s.size.outSize.val ∧ s.ncnt.toNat ≤ s.size.nNodes.val

/-- A decoder about to decode a stream, as R235 prepares it: no fault recorded, SYMW configured, EOFSEEN clear, the tree cursor at a
ROOT below NCNT, the limits legal, and WACC as R17 has it. -/
abbrev State.DecodeReady (s : State) : Prop :=
  s.err = 0 ∧ (1 ≤ s.symw.toNat ∧ s.symw.toNat ≤ 64) ∧ s.flags = 0 ∧ s.tcur = s.root ∧ s.root.toNat < s.ncnt.toNat ∧
  s.LimitsLegal ∧ s.AccClear

/-- A decoder that may decode from wherever its tree cursor stands (R105, D31): no fault recorded, SYMW configured, EOFSEEN clear, the
limits legal, and WACC as R17 has it. -/
abbrev State.DecodeArmed (s : State) : Prop :=
  s.err = 0 ∧ (1 ≤ s.symw.toNat ∧ s.symw.toNat ≤ 64) ∧ s.flags = 0 ∧ s.LimitsLegal ∧ s.AccClear

/-- A packer about to encode a stream, as R235 prepares it: no fault recorded, SYMW configured, the tree well-formed, the limits legal,
and WACC as R17 has it. -/
abbrev State.EncodeReady (s : State) : Prop :=
  s.err = 0 ∧ (1 ≤ s.symw.toNat ∧ s.symw.toNat ≤ 64) ∧ wfTree s = true ∧ s.LimitsLegal ∧ s.AccClear

/-- The bits `n` and the padding after them to a byte boundary fit below WLIM. -/
abbrev State.FitsPadded (s : State) (n : Nat) : Prop := s.Fits (n + (padding (s.wbit.toNat + n)).length)

/-- The symbols the window holds from the read cursor on are `vs`, whole fields of SYMW bits, with fewer than SYMW bits left after
them (R71, R125). -/
def State.WindowHolds (s : State) (vs : List Word) : Prop :=
  (vs = [] ∨ s.readPos + vs.length * s.symw.toNat ≤ 8 * s.rlim.toNat) ∧
  8 * s.rlim.toNat < s.readPos + (vs.length + 1) * s.symw.toNat ∧
  s.inCode s.readPos (vs.length * s.symw.toNat) = symbolStream s.symw.toNat vs ∧
  ∀ v ∈ vs, v.toNat < 2 ^ s.symw.toNat

/-- `t` is `s` but for the two cursors, the partial byte, OUT and the response. -/
def OnlyCursors (s t : State) : Prop :=
  t = { s with
    rbyte := t.rbyte, rbit := t.rbit, wbyte := t.wbyte, wbit := t.wbit, wacc := t.wacc, outMem := t.outMem, rsp := t.rsp }

/-! ## Scripts -/

/-- Commands run one after another, each when the one before has answered (R69), with their responses in order; none if one of them
has no next state. -/
def execAll : List Instr → State → Option (State × List Response)
  | [], s => some (s, [])
  | i :: l, s =>
    match exec i s with
    | .next t =>
      match t.rsp, execAll l t with
      | some r, some (u, rs) => some (u, r :: rs)
      | _, _ => none
    | .fault _ => none
    | .refused _ => none

/-! ## Safe answers -/

/-- A step that goes on. -/
def SafeOutcome : Outcome → Prop
  | .next _ => True
  | .fault _ => False
  | .refused _ => False

/-- The addresses a host move names exist (R22, R239). -/
def HostMove.inSpaces (z : Sizes) : HostMove → Prop
  | .command _ => True
  | .writeIn a _ => a < z.inSize.val
  | .writeOut a _ => a < z.outSize.val
  | .copyOutToIn src dst => src < z.outSize.val ∧ dst < z.inSize.val

end Sys2Proof.Machine
end

