-- ==== Sys2Proof/Certificates/Slice0/Obligations.lean ====
section
/-! DEFINITION. The statements for the provers, each from a rule of spec/ (OBLIGATIONS.json names the rules). -/

open Sys2Proof Sys2Proof.Machine

/-! ## Encoding -/

/-- Packets the spec writes out (30 R69, 95 sections 1, 3 and 5) decode to the commands they stand for, one of each family at least,
and three of section 3.5 are refused, each by its own reason. -/
def Obligations.SpecPacketsDecode : Prop :=
  decode 0x01000000000000000000 = .legal .reset ∧
  decode 0x020A0000000000000000 = .legal (.setreg .naddr 0) ∧
  decode 0x030C0000000000000000 = .legal (.getreg .flags) ∧
  decode 0x04000000000200000001 = .legal (.wrnode 0x200000001) ∧
  decode 0x11030000000000000005 = .legal (.wrbits 3 5) ∧
  decode 0x12400000000000000000 = .legal (.rewind 64) ∧
  decode 0x21010000000000000000 = .legal (.tstep true) ∧
  decode 0x23000000000000000000 = .legal .decode ∧
  decode 0x30007FFFFFFFFFFFFFFF = .legal (.encsym 0x7FFFFFFFFFFFFFFF) ∧
  decode 0x32000000000000000000 = .legal .encode ∧
  decode 0x06000000000000000000 = .illegal .undefinedOpcode ∧
  decode 0x10410000000000000000 = .illegal .bitCount ∧
  decode 0x02050000000000000000 = .illegal .readOnlyRegister

/-- Every legal command, with every operand at every value its encoding admits, is what the decoder reads from its packet
(R60, R61, R68). -/
def Obligations.DecodeOfEncode : Prop :=
  ∀ i : Instr, i.wellFormed = true → decode (encode i) = .legal i

/-- No packet has two readings and no bit of a legal one is dropped: a packet that decodes to a command is that command's own packet,
and the command is legal (R60, R67). -/
def Obligations.EncodeOfDecode : Prop :=
  ∀ (p : Packet) (i : Instr), decode p = .legal i → i.wellFormed = true ∧ encode i = p

/-- A packet is illegal exactly when one of the six items of R67 holds, each written with the numbers of R61 and R12. -/
def Obligations.IllegalPacketsAreTheSixItems : Prop :=
  ∀ p : Packet, (∃ why, decode p = .illegal why) ↔
    opOf p ∉ ([0x01, 0x02, 0x03, 0x04, 0x05, 0x10, 0x11, 0x12, 0x13, 0x14, 0x20, 0x21, 0x22, 0x23, 0x30, 0x31, 0x32] : List (BitVec 8)) ∨
    (opOf p ∈ ([0x01, 0x04, 0x05, 0x14, 0x20, 0x22, 0x23, 0x30, 0x31, 0x32] : List (BitVec 8)) ∧ immOf p ≠ 0) ∨
    (opOf p ∈ ([0x01, 0x03, 0x05, 0x10, 0x12, 0x13, 0x14, 0x20, 0x21, 0x22, 0x23, 0x31, 0x32] : List (BitVec 8)) ∧ argOf p ≠ 0) ∨
    (opOf p ∈ ([0x10, 0x11, 0x12, 0x13] : List (BitVec 8)) ∧ (immOf p = 0 ∨ 64 < (immOf p).toNat)) ∨
    (opOf p = 0x21 ∧ 1 < (immOf p).toNat) ∨
    (opOf p ∈ ([0x02, 0x03] : List (BitVec 8)) ∧ 14 < (immOf p).toNat) ∨
    (opOf p = 0x02 ∧ immOf p ∈ ([5, 6, 9, 12, 13, 14] : List (BitVec 8)))

/-- A legal packet selects its row of spec/opcode_table.json, and no packet selects two rows (R61). -/
def Obligations.LegalPacketSelectsOneTableRow : Prop :=
  (∀ (p : Packet) (i : Instr), decode p = .legal i → p &&& i.op.mask = i.op.pattern) ∧
  ∀ (p : Packet) (o o' : Op), p &&& o.mask = o.pattern → p &&& o'.mask = o'.pattern → o = o'

/-! ## Reset and the invariant -/

/-- At power-on every control register is 0 and no byte or word is written, whatever the sizes (R30). -/
def Obligations.PowerOnRegistersAreZero : Prop :=
  ∀ (z : Sizes) (r : Reg), (State.powerOn z).readReg r = 0 ∧
    ∀ a, Memory.cell? (w := 8) (State.powerOn z).inMem a = none ∧ Memory.cell? (w := 8) (State.powerOn z).outMem a = none ∧
      Memory.cell? (w := 64) (State.powerOn z).nodeMem a = none

/-- The invariant of R29 holds at power-on of every instance, and in `State.reset`. -/
def Obligations.PowerOnMeetsTheInvariant : Prop :=
  (∀ z : Sizes, z.ok = true → (State.powerOn z).Inv) ∧ State.reset.Inv

/-- Every step keeps the invariant of R29: each register in its legal range, the low bits of WACC zero, ERR 0 or a fault code, the
memories canonical and inside their spaces. -/
def Obligations.StepKeepsTheInvariant : Prop :=
  ∀ s t : State, s.Inv → step s = .next t → t.Inv

/-- From a state that meets the invariant a step stops only as the spec says: never at an absent address, unless the host's own move
names one, and with no transition only for a packer command while WF(tree) is false (R47, U5). -/
def Obligations.StepStopsOnlyWhereTheSpecDoes : Prop :=
  ∀ s : State, s.Inv →
    (∀ f, (∀ m rest, s.script = m :: rest → m.inSpaces s.size) → step s ≠ .fault f) ∧
    ∀ r, step s = .refused r → r = .treeNotWellFormed ∧ wfTree s = false ∧
      ∃ p rest i, s.script = .command p :: rest ∧ decode p = .legal i ∧ i.op ∈ [Op.encsym, Op.enceof, Op.encode]

/-! ## A step -/

/-- A step runs the decoded command: when the host's next move is a packet that decodes to `i`, the step is `exec i` with that move
taken off the script. With no move left the block waits, unchanged (R217, R231; that it is a step is the model's choice, log entry
1). -/
def Obligations.StepRunsTheDecodedCommand : Prop :=
  (∀ (s : State) (p : Packet) (rest : List HostMove) (i : Instr), s.script = .command p :: rest → decode p = .legal i →
    step s = exec i { s with script := rest }) ∧
  ∀ s : State, s.script = [] → step s = .next s

/-- An illegal packet raises ILLEGAL_COMMAND with `zext_64(OP ∥ IMM)` and changes nothing but ERR, EINFO and the response
(R67, R201, R207). -/
def Obligations.IllegalPacketRaises : Prop :=
  ∀ (s : State) (p : Packet) (rest : List HostMove) (why : Illegal), s.script = .command p :: rest → decode p = .illegal why →
    s.err = 0 →
    step s = .next { s with
      script := rest, err := 0x81, einfo := (p.extractLsb' 64 16).setWidth 64,
      rsp := some ⟨.fault .illegalCommand, (p.extractLsb' 64 16).setWidth 64⟩ }

/-- The sticky-fault gate (R205): while ERR ≠ 0 a packet whose OP is neither RESET nor GETREG, legal or not, answers
(ERR_STICKY, ERR) and changes nothing; a legal RESET or GETREG is executed; an illegal packet with one of those two OPs answers
ILLEGAL_COMMAND and leaves ERR and EINFO (for OP 0x01 the model follows R205 and R208 against R140: log entry 10). -/
def Obligations.StickyFaultGate : Prop :=
  ∀ (s : State) (p : Packet) (rest : List HostMove), s.script = .command p :: rest → s.err ≠ 0 →
    (opOf p ≠ 0x01 → opOf p ≠ 0x03 →
      step s = .next { s with script := rest, rsp := some ⟨.errSticky, s.err.setWidth 64⟩ }) ∧
    (∀ i, (opOf p = 0x01 ∨ opOf p = 0x03) → decode p = .legal i → step s = exec i { s with script := rest } ∧
      ∃ t, step s = .next t ∧ ∀ v, t.rsp ≠ some ⟨.errSticky, v⟩) ∧
    ∀ why, (opOf p = 0x01 ∨ opOf p = 0x03) → decode p = .illegal why →
      step s = .next { s with
        script := rest, rsp := some ⟨.fault .illegalCommand, (p.extractLsb' 64 16).setWidth 64⟩ }

/-- The host's writes (R239): one byte of IN or OUT, at an address that exists, and nothing else; a copy moves one byte of OUT to IN;
an address that does not exist stops by name (log entry 7). -/
def Obligations.HostMovesWriteOneByte : Prop :=
  ∀ (s : State) (rest : List HostMove),
    (∀ a b, s.script = .writeIn a b :: rest →
      (a < s.size.inSize.val → ∃ t, step s = .next t ∧ t = { s with script := rest, inMem := t.inMem } ∧
        ∀ x, t.inByte x = if x = a then b else s.inByte x) ∧
      (s.size.inSize.val ≤ a → step s = .fault (.noInByte a))) ∧
    (∀ a b, s.script = .writeOut a b :: rest →
      (a < s.size.outSize.val → ∃ t, step s = .next t ∧ t = { s with script := rest, outMem := t.outMem } ∧
        ∀ x, t.outByte x = if x = a then b else s.outByte x) ∧
      (s.size.outSize.val ≤ a → step s = .fault (.noOutByte a))) ∧
    ∀ src dst, s.script = .copyOutToIn src dst :: rest →
      (s.size.outSize.val ≤ src → step s = .fault (.noOutByte src)) ∧
      (src < s.size.outSize.val → dst < s.size.inSize.val → ∃ t, step s = .next t ∧ t = { s with script := rest, inMem := t.inMem } ∧
        ∀ x, t.inByte x = if x = dst then s.outByte src else s.inByte x) ∧
      (src < s.size.outSize.val → s.size.inSize.val ≤ dst → step s = .fault (.noInByte dst))

/-! ## Faults, over all commands -/

/-- ERR and EINFO record the first fault since RESET and nothing else (R25, R203, R204): with ERR = 0 a command that answers a fault
latches its code and info, and one that does not leaves ERR 0; with ERR ≠ 0 no command but RESET changes either. -/
def Obligations.FirstFaultIsLatched : Prop :=
  ∀ (i : Instr) (s t : State), exec i s = .next t →
    (s.err = 0 → ∀ c v, t.rsp = some ⟨.fault c, v⟩ → t.err = c.code ∧ t.einfo = v) ∧
    (s.err = 0 → (∀ c v, t.rsp ≠ some ⟨.fault c, v⟩) → t.err = 0) ∧
    (s.err ≠ 0 → i ≠ .reset → t.err = s.err ∧ t.einfo = s.einfo)

/-- Who writes what (R12, the column "written by"; R22): each register changes only under the commands listed for it, ERR and EINFO
only under RESET and a command that answers a fault; no command writes IN, the sizes or the host's script; only WRNODE writes NODE;
only the write-side commands write OUT. -/
def Obligations.StateIsWrittenOnlyBy : Prop :=
  ∀ (i : Instr) (s t : State), exec i s = .next t →
    (t.symw ≠ s.symw → i = .reset ∨ ∃ v, i = .setreg .symw v) ∧
    (t.rbyte ≠ s.rbyte →
      i.op ∈ [Op.reset, Op.rdbits, Op.rewind, Op.dsym, Op.decode, Op.encode] ∨ ∃ v, i = .setreg .rbyte v) ∧
    (t.rbit ≠ s.rbit →
      i.op ∈ [Op.reset, Op.rdbits, Op.rewind, Op.dsym, Op.decode, Op.encode] ∨ ∃ v, i = .setreg .rbit v) ∧
    (t.rlim ≠ s.rlim → i = .reset ∨ ∃ v, i = .setreg .rlim v) ∧
    ((t.wbyte ≠ s.wbyte ∨ t.wbit ≠ s.wbit ∨ t.wacc ≠ s.wacc) →
      i.op ∈ [Op.reset, Op.wrbits, Op.flush, Op.decode, Op.encsym, Op.enceof, Op.encode] ∨ ∃ v, i = .setreg .wbyte v) ∧
    (t.wlim ≠ s.wlim → i = .reset ∨ ∃ v, i = .setreg .wlim v) ∧
    (t.root ≠ s.root → i = .reset ∨ ∃ v, i = .setreg .root v) ∧
    (t.tcur ≠ s.tcur →
      i.op ∈ [Op.reset, Op.treset, Op.tstep, Op.dsym, Op.decode] ∨ ∃ v, i = .setreg .root v) ∧
    (t.naddr ≠ s.naddr → i.op ∈ [Op.reset, Op.wrnode, Op.rdnode] ∨ ∃ v, i = .setreg .naddr v) ∧
    (t.ncnt ≠ s.ncnt → i = .reset ∨ ∃ v, i = .setreg .ncnt v) ∧
    (t.flags ≠ s.flags → i.op ∈ [Op.reset, Op.treset, Op.tstep, Op.dsym, Op.decode]) ∧
    ((t.err ≠ s.err ∨ t.einfo ≠ s.einfo) → i = .reset ∨ ∃ c v, t.rsp = some ⟨.fault c, v⟩) ∧
    t.inMem = s.inMem ∧ t.size = s.size ∧ t.script = s.script ∧
    (t.nodeMem ≠ s.nodeMem → i.op = .wrnode) ∧
    (t.outMem ≠ s.outMem → i.op ∈ [Op.wrbits, Op.flush, Op.decode, Op.encsym, Op.enceof, Op.encode])

/-- The laws of R29 about single commands: a byte of OUT changes only at or above WBYTE and below WLIM; a command other than SETREG
and RESET moves WBYTE only forward and never past WLIM; a configured SYMW stays configured until RESET. -/
def Obligations.StoresStayInTheWriteWindow : Prop :=
  ∀ (i : Instr) (s t : State), exec i s = .next t →
    (∀ a, t.outByte a ≠ s.outByte a → s.wbyte.toNat ≤ a ∧ a < s.wlim.toNat) ∧
    (i.op ≠ .setreg → i ≠ .reset →
      s.wbyte.toNat ≤ t.wbyte.toNat ∧ (t.wbyte ≠ s.wbyte → t.wbyte.toNat ≤ s.wlim.toNat)) ∧
    (s.symw ≠ 0 → i ≠ .reset → t.symw ≠ 0)

/-- No command reads a byte of IN at or above RLIM (R29): where two states differ only in such bytes, every command answers the same
and leaves the same state, but for those bytes. -/
def Obligations.ReadsStayBelowTheReadLimit : Prop :=
  ∀ (i : Instr) (s : State) (m : List Host.Cell),
    (∀ a, a < s.rlim.toNat → State.inByte { s with inMem := m } a = s.inByte a) →
    (∀ t, exec i s = .next t → exec i { s with inMem := m } = .next { t with inMem := m }) ∧
    (∀ f, exec i s = .fault f → exec i { s with inMem := m } = .fault f) ∧
    ∀ r, exec i s = .refused r → exec i { s with inMem := m } = .refused r

/-- The packer neither reads nor writes the tree cursor and EOFSEEN (R122, R124, R244): ENCSYM, ENCEOF and ENCODE answer the same and
do the same whatever TCUR and FLAGS hold, and leave them. -/
def Obligations.PackerIgnoresTheTreeCursor : Prop :=
  ∀ (i : Instr) (s : State) (c : BitVec 32) (f : BitVec 1), i.op ∈ [Op.encsym, Op.enceof, Op.encode] →
    (∀ t, exec i s = .next t →
      exec i { s with tcur := c, flags := f } = .next { t with tcur := c, flags := f } ∧ t.tcur = s.tcur ∧ t.flags = s.flags) ∧
    ∀ r, exec i s = .refused r → exec i { s with tcur := c, flags := f } = .refused r

/-- SYMW is read by DECODE and ENCODE alone (R13), besides GETREG SYMW: every other command that does not write it does the same
whatever it holds, and leaves it. -/
def Obligations.WidthIsReadOnlyByDecodeAndEncode : Prop :=
  ∀ (i : Instr) (s t : State) (w : BitVec 7), i ≠ .decode → i ≠ .encode → i ≠ .getreg .symw → i ≠ .reset →
    (∀ v, i ≠ .setreg .symw v) → exec i s = .next t →
    exec i { s with symw := w } = .next { t with symw := w } ∧ t.symw = s.symw

/-! ## System commands -/

/-- RESET (R140): every control register 0, the memories kept, DONE, whatever ERR holds. -/
def Obligations.ResetCompletes : Prop :=
  ∀ s : State, exec .reset s = .next { s with
    symw := 0, rbyte := 0, rbit := 0, rlim := 0, wbyte := 0, wbit := 0, wacc := 0, wlim := 0, root := 0, tcur := 0,
    naddr := 0, ncnt := 0, flags := 0, err := 0, einfo := 0, rsp := some ⟨.done, 0⟩ }

/-- SETREG with a legal value (R141): the register, register by register, with WBYTE discarding the partial byte and ROOT moving the
tree cursor; nothing else changes; GETREG then reads the value given, so none is truncated. -/
def Obligations.SetregWritesLegalValues : Prop :=
  ∀ (s : State) (v : Word), s.err = 0 →
    (1 ≤ v.toNat ∧ v.toNat ≤ 64 →
      exec (.setreg .symw v) s = .next { s with symw := v.setWidth 7, rsp := some ⟨.done, 0⟩ } ∧ (v.setWidth 7).toNat = v.toNat) ∧
    (v.toNat ≤ s.size.inSize.val →
      exec (.setreg .rbyte v) s = .next { s with rbyte := v.setWidth 61, rsp := some ⟨.done, 0⟩ } ∧
      exec (.setreg .rlim v) s = .next { s with rlim := v.setWidth 61, rsp := some ⟨.done, 0⟩ } ∧
      (v.setWidth 61).toNat = v.toNat) ∧
    (v.toNat ≤ 7 →
      exec (.setreg .rbit v) s = .next { s with rbit := v.setWidth 3, rsp := some ⟨.done, 0⟩ } ∧ (v.setWidth 3).toNat = v.toNat) ∧
    (v.toNat ≤ s.size.outSize.val →
      exec (.setreg .wbyte v) s = .next { s with wbyte := v.setWidth 61, wbit := 0, wacc := 0, rsp := some ⟨.done, 0⟩ } ∧
      exec (.setreg .wlim v) s = .next { s with wlim := v.setWidth 61, rsp := some ⟨.done, 0⟩ } ∧
      (v.setWidth 61).toNat = v.toNat) ∧
    (v.toNat < s.size.nNodes.val →
      exec (.setreg .root v) s =
        .next { s with root := v.setWidth 32, tcur := v.setWidth 32, rsp := some ⟨.done, 0⟩ } ∧
      (v.setWidth 32).toNat = v.toNat) ∧
    (v.toNat ≤ 2 * s.size.nNodes.val →
      exec (.setreg .naddr v) s = .next { s with naddr := v.setWidth 33, rsp := some ⟨.done, 0⟩ } ∧
      (v.setWidth 33).toNat = v.toNat) ∧
    (v.toNat ≤ s.size.nNodes.val →
      exec (.setreg .ncnt v) s = .next { s with ncnt := v.setWidth 32, rsp := some ⟨.done, 0⟩ } ∧ (v.setWidth 32).toNat = v.toNat)

/-- SETREG with a value outside the legal range faults with that value and leaves every register but ERR and EINFO (R141, R207):
UNSUPPORTED_CONFIG for SYMW, BAD_VALUE for the others; a read-only register is ILLEGAL_COMMAND with `OP ∥ IMM` (R67 item 6). -/
def Obligations.SetregRejectsOtherValues : Prop :=
  ∀ (s : State) (r : Reg) (v : Word), s.err = 0 →
    (r = .symw → v.toNat < 1 ∨ 64 < v.toNat →
      exec (.setreg r v) s = .next { s with err := 0x82, einfo := v, rsp := some ⟨.fault .unsupportedConfig, v⟩ }) ∧
    ((r = .rbyte ∧ s.size.inSize.val < v.toNat) ∨ (r = .rbit ∧ 7 < v.toNat) ∨ (r = .rlim ∧ s.size.inSize.val < v.toNat) ∨
      (r = .wbyte ∧ s.size.outSize.val < v.toNat) ∨ (r = .wlim ∧ s.size.outSize.val < v.toNat) ∨
      (r = .root ∧ s.size.nNodes.val ≤ v.toNat) ∨ (r = .naddr ∧ 2 * s.size.nNodes.val < v.toNat) ∨
      (r = .ncnt ∧ s.size.nNodes.val < v.toNat) →
      exec (.setreg r v) s = .next { s with err := 0x8A, einfo := v, rsp := some ⟨.fault .badValue, v⟩ }) ∧
    (r ∈ [Reg.wbit, Reg.wacc, Reg.tcur, Reg.flags, Reg.err, Reg.einfo] →
      exec (.setreg r v) s = .next { s with
        err := 0x81, einfo := BitVec.ofNat 64 (0x0200 + r.number.toNat),
        rsp := some ⟨.fault .illegalCommand, BitVec.ofNat 64 (0x0200 + r.number.toNat)⟩ })

/-- GETREG answers the register zero-extended and writes nothing, whatever ERR holds (R142). -/
def Obligations.GetregReadsEveryRegister : Prop :=
  ∀ s : State,
    exec (.getreg .symw) s = .next { s with rsp := some ⟨.done, s.symw.setWidth 64⟩ } ∧
    exec (.getreg .rbyte) s = .next { s with rsp := some ⟨.done, s.rbyte.setWidth 64⟩ } ∧
    exec (.getreg .rbit) s = .next { s with rsp := some ⟨.done, s.rbit.setWidth 64⟩ } ∧
    exec (.getreg .rlim) s = .next { s with rsp := some ⟨.done, s.rlim.setWidth 64⟩ } ∧
    exec (.getreg .wbyte) s = .next { s with rsp := some ⟨.done, s.wbyte.setWidth 64⟩ } ∧
    exec (.getreg .wbit) s = .next { s with rsp := some ⟨.done, s.wbit.setWidth 64⟩ } ∧
    exec (.getreg .wacc) s = .next { s with rsp := some ⟨.done, s.wacc.setWidth 64⟩ } ∧
    exec (.getreg .wlim) s = .next { s with rsp := some ⟨.done, s.wlim.setWidth 64⟩ } ∧
    exec (.getreg .root) s = .next { s with rsp := some ⟨.done, s.root.setWidth 64⟩ } ∧
    exec (.getreg .tcur) s = .next { s with rsp := some ⟨.done, s.tcur.setWidth 64⟩ } ∧
    exec (.getreg .naddr) s = .next { s with rsp := some ⟨.done, s.naddr.setWidth 64⟩ } ∧
    exec (.getreg .ncnt) s = .next { s with rsp := some ⟨.done, s.ncnt.setWidth 64⟩ } ∧
    exec (.getreg .flags) s = .next { s with rsp := some ⟨.done, s.flags.setWidth 64⟩ } ∧
    exec (.getreg .err) s = .next { s with rsp := some ⟨.done, s.err.setWidth 64⟩ } ∧
    exec (.getreg .einfo) s = .next { s with rsp := some ⟨.done, s.einfo⟩ }

/-- WRNODE and RDNODE below the end of the NODE space (R143, R144): the word at NADDR stored as given, or answered; NADDR one more;
every other word and everything else unchanged. -/
def Obligations.NodeWordsAreWrittenAndRead : Prop :=
  ∀ (s : State) (w : Word), s.err = 0 → s.naddr.toNat < 2 * s.size.nNodes.val →
    (∃ t, exec (.wrnode w) s = .next t ∧
      t = { s with nodeMem := t.nodeMem, naddr := s.naddr + 1, rsp := some ⟨.done, 0⟩ } ∧
      ∀ a, t.nodeWord a = if a = s.naddr.toNat then w else s.nodeWord a) ∧
    exec .rdnode s = .next { s with naddr := s.naddr + 1, rsp := some ⟨.done, s.nodeWord s.naddr.toNat⟩ } ∧
    (s.naddr + 1).toNat = s.naddr.toNat + 1

/-- WRNODE and RDNODE with NADDR at or past the end of the NODE space (R143, R144): NODE_RANGE with NADDR, nothing else changed. -/
def Obligations.NodeRangeFaults : Prop :=
  ∀ (s : State) (i : Instr), s.err = 0 → 2 * s.size.nNodes.val ≤ s.naddr.toNat → (i = .rdnode ∨ ∃ w, i = .wrnode w) →
    exec i s = .next { s with
      err := 0x89, einfo := s.naddr.setWidth 64, rsp := some ⟨.fault .nodeRange, s.naddr.setWidth 64⟩ }

/-! ## BitCursor commands -/

/-- RDBITS (R81, R84): with `n` bits left below RLIM the answer is the number the next `n` input bits write, first bit most
significant; the read cursor moves `n` bits; nothing else changes. -/
def Obligations.RdbitsCompletes : Prop :=
  ∀ (s : State) (n : BitVec 8), s.err = 0 → 1 ≤ n.toNat → n.toNat ≤ 64 →
    s.readPos + n.toNat ≤ 8 * s.rlim.toNat → s.rlim.toNat ≤ s.size.inSize.val →
    ∃ t v, exec (.rdbits n) s = .next t ∧ t = { s with rbyte := t.rbyte, rbit := t.rbit, rsp := some ⟨.done, v⟩ } ∧
      t.readPos = s.readPos + n.toNat ∧ v.toNat = bitsNat (s.inCode s.readPos n.toNat)

/-- WRBITS (R82, R85): where the bytes completed fit below WLIM, or none is completed, the low `n` bits of the value are appended, most
significant first; nothing else changes. -/
def Obligations.WrbitsCompletes : Prop :=
  ∀ (s : State) (n : BitVec 8) (v : Word), s.err = 0 → 1 ≤ n.toNat → n.toNat ≤ 64 → s.AccClear →
    s.Fits n.toNat → s.wlim.toNat ≤ s.size.outSize.val →
    ∃ t, exec (.wrbits n v) s = .next t ∧ OnlyWriteSide s t ∧ t.rsp = some ⟨.done, 0⟩ ∧ Appended s t (valueBits v n.toNat)

/-- REWIND (R86): the read cursor moves back `n` bits where it stands at bit `n` or later; nothing else changes. -/
def Obligations.RewindCompletes : Prop :=
  ∀ (s : State) (n : BitVec 8), s.err = 0 → 1 ≤ n.toNat → n.toNat ≤ 64 → n.toNat ≤ s.readPos →
    ∃ t, exec (.rewind n) s = .next t ∧ t = { s with rbyte := t.rbyte, rbit := t.rbit, rsp := some ⟨.done, 0⟩ } ∧
      t.readPos = s.readPos - n.toNat

/-- `hasMore(n)` is the comparison `8·RBYTE + RBIT + n ≤ 8·RLIM` for every `n`, and HASMORE answers 1 or 0 by it and writes nothing
(R80, R87); it answers 1 exactly when RDBITS of the same count would not raise READ_UNDERRUN in the same state (R87). -/
def Obligations.HasmoreCompletes : Prop :=
  (∀ (s : State) (n : Nat), 1 ≤ n → (s.hasMore n = true ↔ 8 * s.rbyte.toNat + s.rbit.toNat + n ≤ 8 * s.rlim.toNat)) ∧
  ∀ (s : State) (n : BitVec 8), s.err = 0 → 1 ≤ n.toNat → n.toNat ≤ 64 →
    exec (.hasmore n) s = .next { s with
      rsp := some ⟨.done, if 8 * s.rbyte.toNat + s.rbit.toNat + n.toNat ≤ 8 * s.rlim.toNat then 1 else 0⟩ } ∧
    ((∃ t, exec (.hasmore n) s = .next t ∧ t.rsp = some ⟨.done, 1⟩) ↔
      ¬ ∃ t, exec (.rdbits n) s = .next t ∧ t.rsp = some ⟨.fault .readUnderrun, 0⟩)

/-- FLUSH (R83, R88): at a byte boundary nothing is stored and the answer is 0; otherwise the partial byte, its low bits zero, is
stored at WBYTE and the answer is 1. -/
def Obligations.FlushCompletes : Prop :=
  ∀ s : State, s.err = 0 →
    (s.wbit = 0 → exec .flush s = .next { s with rsp := some ⟨.done, 0⟩ }) ∧
    (s.wbit ≠ 0 → s.AccClear → s.wbyte.toNat < s.wlim.toNat → s.wlim.toNat ≤ s.size.outSize.val →
      ∃ t, exec .flush s = .next t ∧ OnlyWriteSide s t ∧ t.rsp = some ⟨.done, 1⟩ ∧
        t.wbyte.toNat = s.wbyte.toNat + 1 ∧ t.wbit = 0 ∧ t.wacc = 0 ∧
        (∀ a, t.outByte a = if a = s.wbyte.toNat then s.wacc else s.outByte a) ∧
        ∀ k, k < 8 → (t.outByte s.wbyte.toNat).getLsbD (7 - k) = s.pending.getD k false)

/-- The faults of the BitCursor commands change nothing but ERR, EINFO and the response (R207): READ_UNDERRUN, REWIND_UNDERFLOW,
WRITE_OVERRUN of WRBITS and of FLUSH, each under its condition; a count of 0 or above 64 is ILLEGAL_COMMAND. -/
def Obligations.BitCursorFaultsChangeNothing : Prop :=
  ∀ (s : State) (n : BitVec 8) (v : Word), s.err = 0 →
    (1 ≤ n.toNat ∧ n.toNat ≤ 64 →
      (8 * s.rlim.toNat < s.readPos + n.toNat →
        exec (.rdbits n) s = .next { s with err := 0x86, einfo := 0, rsp := some ⟨.fault .readUnderrun, 0⟩ }) ∧
      (s.readPos < n.toNat →
        exec (.rewind n) s = .next { s with err := 0x87, einfo := 0, rsp := some ⟨.fault .rewindUnderflow, 0⟩ }) ∧
      (¬ s.Fits n.toNat →
        exec (.wrbits n v) s = .next { s with err := 0x88, einfo := 0, rsp := some ⟨.fault .writeOverrun, 0⟩ })) ∧
    (s.wbit ≠ 0 → s.wlim.toNat ≤ s.wbyte.toNat →
      exec .flush s = .next { s with err := 0x88, einfo := 0, rsp := some ⟨.fault .writeOverrun, 0⟩ }) ∧
    (n.toNat = 0 ∨ 64 < n.toNat → ∀ i, i ∈ [Instr.rdbits n, Instr.wrbits n v, Instr.rewind n, Instr.hasmore n] →
      exec i s = .next { s with
        err := 0x81, einfo := BitVec.ofNat 64 (256 * i.op.code.toNat + n.toNat),
        rsp := some ⟨.fault .illegalCommand, BitVec.ofNat 64 (256 * i.op.code.toNat + n.toNat)⟩ })

/-- A REWIND right after a successful RDBITS of the same count restores the read cursor, and the two leave all other state unchanged
(R89). -/
def Obligations.RewindUndoesRdbits : Prop :=
  ∀ (s t : State) (n : BitVec 8) (v : Word), exec (.rdbits n) s = .next t → t.rsp = some ⟨.done, v⟩ →
    exec (.rewind n) t = .next { s with rsp := some ⟨.done, 0⟩ }

/-- What WRBITS commands and a FLUSH wrote from a byte boundary on, copied to IN at the same offsets, is what RDBITS commands with the
same counts read back (R89). -/
def Obligations.WrittenBitsAreReadBack : Prop :=
  ∀ (ws : List (BitVec 8 × Word)) (s t u : State) (rs : List Response),
    (∀ e ∈ ws, 1 ≤ e.1.toNat ∧ e.1.toNat ≤ 64) → s.AccClear → s.wbit = 0 →
    execAll (ws.map (fun e => Instr.wrbits e.1 e.2) ++ [.flush]) s = some (t, rs) → t.err = 0 →
    u.err = 0 → u.readPos = 8 * s.wbyte.toNat → u.rlim = t.wbyte → u.rlim.toNat ≤ u.size.inSize.val →
    (∀ a, s.wbyte.toNat ≤ a → a < t.wbyte.toNat → u.inByte a = t.outByte a) →
    ∃ x, execAll (ws.map fun e => Instr.rdbits e.1) u =
      some (x, ws.map fun e => ⟨.done, BitVec.ofNat 64 (e.2.toNat % 2 ^ e.1.toNat)⟩)

/-! ## Decoder commands -/

/-- TRESET (R102): TCUR at ROOT, EOFSEEN clear, nothing else; ROOT is not checked. -/
def Obligations.TresetCompletes : Prop :=
  ∀ s : State, s.err = 0 →
    exec .treset s = .next { s with tcur := s.root, flags := 0, rsp := some ⟨.done, 0⟩ }

/-- TSTEP (R100, R103) from a valid internal node to a valid child: the cursor moves to an internal child; at a data leaf its symbol is
answered and the cursor is back at ROOT; at the EOF leaf EOFSEEN is set too. Nothing else changes, and EOFSEEN is not read. -/
def Obligations.TstepCompletes : Prop :=
  ∀ (s : State) (b : Bool), s.err = 0 → s.ncnt.toNat ≤ s.size.nNodes.val → s.tcur.toNat < s.ncnt.toNat →
    s.kind s.tcur.toNat = .internal → s.child s.tcur.toNat b < s.ncnt.toNat →
    (s.kind (s.child s.tcur.toNat b) = .internal →
      exec (.tstep b) s = .next { s with tcur := BitVec.ofNat 32 (s.child s.tcur.toNat b), rsp := some ⟨.done, 0⟩ }) ∧
    (s.kind (s.child s.tcur.toNat b) = .leaf →
      exec (.tstep b) s = .next { s with tcur := s.root, rsp := some ⟨.symbol, s.payload (s.child s.tcur.toNat b)⟩ }) ∧
    (s.kind (s.child s.tcur.toNat b) = .eof →
      exec (.tstep b) s = .next { s with tcur := s.root, flags := 1, rsp := some ⟨.eof, 0⟩ })

/-- TSTEP where movement is impossible (R100): INTERNAL_CONSISTENCY with TCUR, nothing else changed. -/
def Obligations.TstepInconsistency : Prop :=
  ∀ (s : State) (b : Bool), s.err = 0 → s.ncnt.toNat ≤ s.size.nNodes.val → s.NoWay s.tcur.toNat b →
    exec (.tstep b) s = .next { s with
      err := 0x85, einfo := s.tcur.setWidth 64, rsp := some ⟨.fault .internalConsistency, s.tcur.setWidth 64⟩ }

/-- DSYM (R101, R104): where the next `n` input bits lead from TCUR to a leaf, DSYM consumes exactly them, answers the leaf's symbol
in full, or EOF with EOFSEEN set, and puts the cursor at ROOT; with EOFSEEN set it answers EOF and changes nothing (that it leaves a
TCUR other than ROOT is the model's reading of R101, log entry 18). SYMW and the write side are untouched. -/
def Obligations.DsymFollowsTheCode : Prop :=
  ∀ s : State, s.err = 0 → s.rlim.toNat ≤ s.size.inSize.val → s.ncnt.toNat ≤ s.size.nNodes.val →
    (∀ n d, s.flags = 0 → s.readPos + n ≤ 8 * s.rlim.toNat → s.tcur.toNat < s.ncnt.toNat →
      s.Leads s.tcur.toNat (s.inCode s.readPos n) d →
      (s.kind d = .leaf → ∃ t, exec .dsym s = .next t ∧ t.readPos = s.readPos + n ∧
        t = { s with rbyte := t.rbyte, rbit := t.rbit, tcur := s.root, rsp := some ⟨.symbol, s.payload d⟩ }) ∧
      (s.kind d = .eof → ∃ t, exec .dsym s = .next t ∧ t.readPos = s.readPos + n ∧
        t = { s with rbyte := t.rbyte, rbit := t.rbit, tcur := s.root, flags := 1, rsp := some ⟨.eof, 0⟩ })) ∧
    (s.flags = 1 → exec .dsym s = .next { s with rsp := some ⟨.eof, 0⟩ })

/-- DSYM when the input runs out (R101, R106): all readable bits lead from TCUR to a node `d` that is no leaf. At ROOT the end is
normal, EXHAUSTED; mid-path it is TRUNCATED_INPUT with `d`, no symbol, and the cursor back at ROOT. Either way the bits are
consumed. -/
def Obligations.DsymAtTheEndOfInput : Prop :=
  ∀ (s : State) (d : Nat), s.err = 0 → s.flags = 0 → s.rlim.toNat ≤ s.size.inSize.val → s.ncnt.toNat ≤ s.size.nNodes.val →
    (s.bitsLeft ≠ 0 → s.tcur.toNat < s.ncnt.toNat ∧ s.kind d = .internal) →
    s.walk s.tcur.toNat (s.inCode s.readPos s.bitsLeft) = some d →
    (d = s.root.toNat → ∃ t, exec .dsym s = .next t ∧ t.readPos = s.readPos + s.bitsLeft ∧
      t = { s with rbyte := t.rbyte, rbit := t.rbit, tcur := s.root, rsp := some ⟨.exhausted, 0⟩ }) ∧
    (d ≠ s.root.toNat → ∃ t, exec .dsym s = .next t ∧ t.readPos = s.readPos + s.bitsLeft ∧
      t = { s with
        rbyte := t.rbyte, rbit := t.rbit, tcur := s.root, err := 0x84, einfo := BitVec.ofNat 64 d,
        rsp := some ⟨.fault .truncatedInput, BitVec.ofNat 64 d⟩ })

/-- DSYM where movement is impossible after `n` bits (R101, R207): INTERNAL_CONSISTENCY with the node, the failing bit consumed, the
cursor on the node. -/
def Obligations.DsymInconsistency : Prop :=
  ∀ (s : State) (n d : Nat), s.err = 0 → s.flags = 0 → s.rlim.toNat ≤ s.size.inSize.val →
    s.ncnt.toNat ≤ s.size.nNodes.val → s.readPos + n + 1 ≤ 8 * s.rlim.toNat →
    (n ≠ 0 → s.tcur.toNat < s.ncnt.toNat ∧ s.kind d = .internal) →
    s.walk s.tcur.toNat (s.inCode s.readPos n) = some d → s.NoWay d (s.inBit (s.readPos + n)) →
    ∃ t, exec .dsym s = .next t ∧ t.readPos = s.readPos + n + 1 ∧
      t = { s with
        rbyte := t.rbyte, rbit := t.rbit, tcur := BitVec.ofNat 32 d, err := 0x85, einfo := BitVec.ofNat 64 d,
        rsp := some ⟨.fault .internalConsistency, BitVec.ofNat 64 d⟩ }

/-- DECODE of a stream that ends in an EOF code (R105, R71, R107): where the input bits from the cursor are the codes of the symbols
`vs` and then the EOF leaf's code, the first of these led from TCUR, where a path may have been begun (D31), and the output fits, the
answer is (EOF, number of symbols); exactly those bits are consumed; the low SYMW bits of each symbol are appended in order and padded
with zeros to a byte boundary; EOFSEEN is set, TCUR at ROOT; nothing else changes. -/
def Obligations.DecodeWritesTheStreamUpToEof : Prop :=
  ∀ (s : State) (vs : List Word) (c e : Code) (j d : Nat), s.DecodeArmed →
    s.Decodes s.tcur.toNat vs c j → j < s.ncnt.toNat → s.Leads j e d → s.kind d = .eof →
    s.readPos + (c ++ e).length ≤ 8 * s.rlim.toNat → s.inCode s.readPos (c ++ e).length = c ++ e →
    s.FitsPadded (symbolStream s.symw.toNat vs).length →
    ∃ t, exec .decode s = .next t ∧ t.rsp = some ⟨.eof, BitVec.ofNat 64 vs.length⟩ ∧
      t.readPos = s.readPos + (c ++ e).length ∧
      Appended s t (symbolStream s.symw.toNat vs ++ padding (s.wbit.toNat + (symbolStream s.symw.toNat vs).length)) ∧
      OnlyCursors { s with tcur := s.root, flags := 1 } t

/-- DECODE without an EOF code (R105, R106): all the readable bits are the codes of `vs`, the first led from TCUR, and then bits `r`
that lead to ROOT (none in a tree without cycles). The answer is (EXHAUSTED, number of symbols); the symbols are appended and padded;
EOFSEEN stays clear, TCUR at ROOT. With EOFSEEN set at the start DECODE consumes nothing, flushes and answers (EOF, 0) (that it then
leaves a TCUR other than ROOT is the model's reading of R101, log entry 18). -/
def Obligations.DecodeEndsWithoutEof : Prop :=
  (∀ (s : State) (vs : List Word) (c r : Code) (j : Nat), s.DecodeArmed → s.Decodes s.tcur.toNat vs c j →
    s.walk j r = some s.root.toNat → (r ≠ [] → j < s.ncnt.toNat ∧ s.kind s.root.toNat = .internal) →
    (c ++ r).length = s.bitsLeft → s.inCode s.readPos (c ++ r).length = c ++ r →
    s.FitsPadded (symbolStream s.symw.toNat vs).length →
    ∃ t, exec .decode s = .next t ∧ t.rsp = some ⟨.exhausted, BitVec.ofNat 64 vs.length⟩ ∧
      t.readPos = s.readPos + (c ++ r).length ∧
      Appended s t (symbolStream s.symw.toNat vs ++ padding (s.wbit.toNat + (symbolStream s.symw.toNat vs).length)) ∧
      OnlyCursors { s with tcur := s.root } t) ∧
  ∀ s : State, s.err = 0 → 1 ≤ s.symw.toNat → s.symw.toNat ≤ 64 → s.flags = 1 → s.LimitsLegal → s.AccClear →
    s.FitsPadded 0 →
    ∃ t, exec .decode s = .next t ∧ t.rsp = some ⟨.eof, 0⟩ ∧ Appended s t (padding s.wbit.toNat) ∧ OnlyWriteSide s t

/-- DECODE and ENCODE check SYMW first of all: outside 1 to 64 they raise UNSUPPORTED_CONFIG with SYMW and change nothing else, whatever
the tree and the windows (R105, R124, R13). -/
def Obligations.UnsetWidthIsUnsupported : Prop :=
  ∀ (s : State) (i : Instr), s.err = 0 → s.symw.toNat < 1 ∨ 64 < s.symw.toNat → (i = .decode ∨ i = .encode) →
    exec i s = .next { s with
      err := 0x82, einfo := s.symw.setWidth 64, rsp := some ⟨.fault .unsupportedConfig, s.symw.setWidth 64⟩ }

/-- What a fault of DECODE in the input leaves (R105, R207): after the codes of `vs`, the first led from TCUR, and bits `r` that lead on
to node `d`, either no bit is left and `d` is not ROOT (TRUNCATED_INPUT with it, TCUR at ROOT; so with no bit left at all, from a TCUR
other than ROOT), or movement is impossible (INTERNAL_CONSISTENCY with the node, the failing bit consumed, TCUR on it). The symbols
`vs` stay appended, without padding. -/
def Obligations.DecodeInputFaultsKeepTheSymbols : Prop :=
  ∀ (s : State) (vs : List Word) (c r : Code) (j d : Nat), s.DecodeArmed → s.Decodes s.tcur.toNat vs c j →
    s.Fits (symbolStream s.symw.toNat vs).length → s.walk j r = some d →
    (r ≠ [] → j < s.ncnt.toNat ∧ s.kind d = .internal) →
    (d ≠ s.root.toNat → (c ++ r).length = s.bitsLeft → s.inCode s.readPos (c ++ r).length = c ++ r →
      ∃ t, exec .decode s = .next t ∧ t.rsp = some ⟨.fault .truncatedInput, BitVec.ofNat 64 d⟩ ∧
        t.readPos = s.readPos + (c ++ r).length ∧ Appended s t (symbolStream s.symw.toNat vs) ∧
        OnlyCursors { s with tcur := s.root, err := 0x84, einfo := BitVec.ofNat 64 d } t) ∧
    ∀ b, s.NoWay d b →
      s.readPos + (c ++ r ++ [b]).length ≤ 8 * s.rlim.toNat → s.inCode s.readPos (c ++ r ++ [b]).length = c ++ r ++ [b] →
      ∃ t, exec .decode s = .next t ∧ t.rsp = some ⟨.fault .internalConsistency, BitVec.ofNat 64 d⟩ ∧
        t.readPos = s.readPos + (c ++ r ++ [b]).length ∧ Appended s t (symbolStream s.symw.toNat vs) ∧
        OnlyCursors { s with tcur := BitVec.ofNat 32 d, err := 0x85, einfo := BitVec.ofNat 64 d } t

/-- What a WRITE_OVERRUN of DECODE leaves (R105, R207): the symbol that did not fit is consumed and not written; or, from the final
flush, every symbol is appended, the partial byte stays in WACC and EOFSEEN is as `decodeOne` left it: set after the EOF code, clear
where the input ended between symbols, as it was where it was set from the start.(That a TCUR other than ROOT then stays is the
model's reading of R101, log entry 18.) -/
def Obligations.DecodeOverrunKeepsTheSymbols : Prop :=
  (∀ (s : State) (vs : List Word) (c : Code) (j : Nat), s.DecodeArmed → s.Decodes s.tcur.toNat vs c j →
    s.Fits (symbolStream s.symw.toNat vs).length →
    (∀ c1 d, j < s.ncnt.toNat → s.Leads j c1 d → s.kind d = .leaf →
      s.readPos + (c ++ c1).length ≤ 8 * s.rlim.toNat → s.inCode s.readPos (c ++ c1).length = c ++ c1 →
      ¬ s.Fits (symbolStream s.symw.toNat (vs ++ [s.payload d])).length →
      ∃ t, exec .decode s = .next t ∧ t.rsp = some ⟨.fault .writeOverrun, 0⟩ ∧ t.readPos = s.readPos + (c ++ c1).length ∧
        Appended s t (symbolStream s.symw.toNat vs) ∧ OnlyCursors { s with tcur := s.root, err := 0x88, einfo := 0 } t) ∧
    (¬ s.FitsPadded (symbolStream s.symw.toNat vs).length →
      (∀ e d, j < s.ncnt.toNat → s.Leads j e d → s.kind d = .eof →
        s.readPos + (c ++ e).length ≤ 8 * s.rlim.toNat → s.inCode s.readPos (c ++ e).length = c ++ e →
        ∃ t, exec .decode s = .next t ∧ t.rsp = some ⟨.fault .writeOverrun, 0⟩ ∧ t.readPos = s.readPos + (c ++ e).length ∧
          Appended s t (symbolStream s.symw.toNat vs) ∧
          OnlyCursors { s with tcur := s.root, flags := 1, err := 0x88, einfo := 0 } t) ∧
      ∀ r, s.walk j r = some s.root.toNat → (r ≠ [] → j < s.ncnt.toNat ∧ s.kind s.root.toNat = .internal) →
        (c ++ r).length = s.bitsLeft → s.inCode s.readPos (c ++ r).length = c ++ r →
        ∃ t, exec .decode s = .next t ∧ t.rsp = some ⟨.fault .writeOverrun, 0⟩ ∧ t.readPos = s.readPos + (c ++ r).length ∧
          Appended s t (symbolStream s.symw.toNat vs) ∧ OnlyCursors { s with tcur := s.root, err := 0x88, einfo := 0 } t)) ∧
  ∀ s : State, s.err = 0 → 1 ≤ s.symw.toNat → s.symw.toNat ≤ 64 → s.flags = 1 → ¬ s.FitsPadded 0 →
    exec .decode s = .next { s with err := 0x88, einfo := 0, rsp := some ⟨.fault .writeOverrun, 0⟩ }

/-! ## The tree and the packer -/

/-- The search decides WF(tree) of R28, item by item. -/
def Obligations.TreeCheckDecidesWellFormedness : Prop :=
  ∀ s : State, wfTree s = true ↔ s.TreeWF

/-- Under WF(tree) `codeOf(v)` is the path from ROOT to the data leaf whose SYMBOL is `v`, all 64 bits, and there is none exactly where
`codeOf` answers None (R120); `codeOfEof()` is the path to the EOF leaf, the only one (R121). -/
def Obligations.CodesAreRootPaths : Prop :=
  ∀ s : State, wfTree s = true →
    (∀ v c, codeOf s v = some c ↔ ∃ d, s.Leads s.root.toNat c d ∧ s.kind d = .leaf ∧ s.payload d = v) ∧
    (∃ d, s.Leads s.root.toNat (codeOfEof s) d ∧ s.kind d = .eof) ∧
    ∀ c d, s.Leads s.root.toNat c d → s.kind d = .eof → c = codeOfEof s

/-- The codes are prefix-free (R65). Of two paths from ROOT to nodes that are not internal, one begins the other only if they are the
same, whatever the tree; and under WF(tree) the codes that `codeOf` and `codeOfEof` give are exactly the leaves' paths, so of two of
them one begins the other only if they are the same. -/
def Obligations.CodesArePrefixFree : Prop :=
  (∀ (s : State) (c c1 e : Code) (d d1 : Nat), s.Leads s.root.toNat c d → s.Leads s.root.toNat c1 d1 →
    s.kind d ≠ .internal → s.kind d1 ≠ .internal → c1 = c ++ e → e = []) ∧
  ∀ s : State, wfTree s = true →
    (∀ c, IsCode s c ↔ ∃ d, s.Leads s.root.toNat c d ∧ (s.kind d = .leaf ∨ s.kind d = .eof)) ∧
    ∀ c c1 e, IsCode s c → IsCode s c1 → c1 = c ++ e → e = []

/-- ENCSYM (R122): under WF(tree), where a data leaf holds the symbol and its code fits, the code is appended whole and its length
answered; nothing else changes. -/
def Obligations.EncsymCompletes : Prop :=
  ∀ (s : State) (v : Word) (c : Code) (d : Nat), s.err = 0 → wfTree s = true → s.wlim.toNat ≤ s.size.outSize.val → s.AccClear →
    s.Leads s.root.toNat c d → s.kind d = .leaf → s.payload d = v → s.Fits c.length →
    ∃ t, exec (.encsym v) s = .next t ∧ OnlyWriteSide s t ∧ t.rsp = some ⟨.done, BitVec.ofNat 64 c.length⟩ ∧ Appended s t c

/-- ENCEOF (R123): under WF(tree), where the EOF leaf's code fits, it is appended and its length answered; no flush; nothing else
changes. -/
def Obligations.EnceofCompletes : Prop :=
  ∀ (s : State) (c : Code) (d : Nat), s.err = 0 → wfTree s = true → s.wlim.toNat ≤ s.size.outSize.val → s.AccClear →
    s.Leads s.root.toNat c d → s.kind d = .eof → s.Fits c.length →
    ∃ t, exec .enceof s = .next t ∧ OnlyWriteSide s t ∧ t.rsp = some ⟨.done, BitVec.ofNat 64 c.length⟩ ∧ Appended s t c

/-- The faults of ENCSYM and ENCEOF change nothing but ERR, EINFO and the response (R122, R123, R207): INCOMPATIBLE_TABLE with the symbol
where no data leaf holds it, WRITE_OVERRUN where the code does not fit. -/
def Obligations.CodeCommandFaultsChangeNothing : Prop :=
  ∀ (s : State) (v : Word), s.err = 0 → wfTree s = true →
    ((∀ c d, s.Leads s.root.toNat c d → s.kind d = .leaf → s.payload d ≠ v) →
      exec (.encsym v) s = .next { s with err := 0x83, einfo := v, rsp := some ⟨.fault .incompatibleTable, v⟩ }) ∧
    ∀ c d, s.Leads s.root.toNat c d → ¬ s.Fits c.length →
      (s.kind d = .leaf → s.payload d = v →
        exec (.encsym v) s = .next { s with err := 0x88, einfo := 0, rsp := some ⟨.fault .writeOverrun, 0⟩ }) ∧
      (s.kind d = .eof →
        exec .enceof s = .next { s with err := 0x88, einfo := 0, rsp := some ⟨.fault .writeOverrun, 0⟩ })

/-- ENCODE (R124, R66, R125, R127): where the window holds the symbols `vs`, `c` is their codes and `e` the EOF leaf's code, and the
padded output fits, the answer is (DONE, number of symbols); the payload `c ++ e ++ 0…0` is appended; the read cursor stands after the
last whole symbol, the residue unread; TCUR, FLAGS and everything else are unchanged. -/
def Obligations.EncodeWritesThePayload : Prop :=
  ∀ (s : State) (vs : List Word) (c e : Code) (d : Nat), s.EncodeReady → s.WindowHolds vs → s.Spells vs c →
    s.Leads s.root.toNat e d → s.kind d = .eof → s.FitsPadded (c ++ e).length →
    ∃ t, exec .encode s = .next t ∧ t.rsp = some ⟨.done, BitVec.ofNat 64 vs.length⟩ ∧
      t.readPos = s.readPos + vs.length * s.symw.toNat ∧
      Appended s t (c ++ e ++ padding (s.wbit.toNat + (c ++ e).length)) ∧ OnlyCursors s t

/-- What a fault of ENCODE leaves (R124, R126, R207): INCOMPATIBLE_TABLE or WRITE_OVERRUN at the symbol after `vs` leaves the codes of
`vs` appended and the read cursor at the start of that symbol; a WRITE_OVERRUN of the EOF code, or of the final flush, leaves all symbols
consumed and appended, and for the flush the EOF code too. -/
def Obligations.EncodeFaultsAreSymbolPrecise : Prop :=
  ∀ (s : State) (vs : List Word) (c : Code), s.EncodeReady → s.Spells vs c → s.Fits c.length →
    (∀ v, (s.readPos + (vs.length + 1) * s.symw.toNat ≤ 8 * s.rlim.toNat ∧
        s.inCode s.readPos ((vs.length + 1) * s.symw.toNat) = symbolStream s.symw.toNat (vs ++ [v]) ∧
        ∀ u ∈ vs ++ [v], u.toNat < 2 ^ s.symw.toNat) →
      ((∀ c1 d, s.Leads s.root.toNat c1 d → s.kind d = .leaf → s.payload d ≠ v) →
        ∃ t, exec .encode s = .next t ∧ t.rsp = some ⟨.fault .incompatibleTable, v⟩ ∧
          t.readPos = s.readPos + vs.length * s.symw.toNat ∧ Appended s t c ∧ OnlyCursors { s with err := 0x83, einfo := v } t) ∧
      ∀ c1 d, s.Leads s.root.toNat c1 d → s.kind d = .leaf → s.payload d = v → ¬ s.Fits (c ++ c1).length →
        ∃ t, exec .encode s = .next t ∧ t.rsp = some ⟨.fault .writeOverrun, 0⟩ ∧
          t.readPos = s.readPos + vs.length * s.symw.toNat ∧ Appended s t c ∧ OnlyCursors { s with err := 0x88, einfo := 0 } t) ∧
    ∀ e d, s.WindowHolds vs → s.Leads s.root.toNat e d → s.kind d = .eof →
      (¬ s.Fits (c ++ e).length →
        ∃ t, exec .encode s = .next t ∧ t.rsp = some ⟨.fault .writeOverrun, 0⟩ ∧
          t.readPos = s.readPos + vs.length * s.symw.toNat ∧ Appended s t c ∧ OnlyCursors { s with err := 0x88, einfo := 0 } t) ∧
      (s.Fits (c ++ e).length → ¬ s.FitsPadded (c ++ e).length →
        ∃ t, exec .encode s = .next t ∧ t.rsp = some ⟨.fault .writeOverrun, 0⟩ ∧
          t.readPos = s.readPos + vs.length * s.symw.toNat ∧ Appended s t (c ++ e) ∧
          OnlyCursors { s with err := 0x88, einfo := 0 } t)

/-- Outside WF(tree) the packer commands have no transition (R120, U5): ENCSYM and ENCEOF stop by name, and ENCODE once SYMW is
configured. -/
def Obligations.PackerNeedsAWellFormedTree : Prop :=
  ∀ (s : State) (i : Instr), s.err = 0 → ¬ s.TreeWF →
    ((∃ v, i = .encsym v) ∨ i = .enceof ∨ (i = .encode ∧ 1 ≤ s.symw.toNat ∧ s.symw.toNat ≤ 64)) →
    exec i s = .refused .treeNotWellFormed

/-- ENCODE equals the per-symbol commands (R128): where ENCODE answers DONE, the script of ENCSYM for the symbols of the window in
order, then ENCEOF, then FLUSH, issued in the same state, ends without a fault and leaves the same OUT, WBYTE, WBIT and WACC. -/
def Obligations.EncodeEqualsTheScript : Prop :=
  ∀ (s t : State) (k : Word), exec .encode s = .next t → t.rsp = some ⟨.done, k⟩ →
    ∃ vs u rs, s.WindowHolds vs ∧ k = BitVec.ofNat 64 vs.length ∧
      execAll (vs.map Instr.encsym ++ [.enceof, .flush]) s = some (u, rs) ∧ (∀ r ∈ rs, r.stat = .done) ∧
      u.outMem = t.outMem ∧ u.wbyte = t.wbyte ∧ u.wbit = t.wbit ∧ u.wacc = t.wacc

/-- Decoding inverts packing (R108): what ENCODE wrote from a byte boundary on, copied to IN at the same offsets of a block that holds
the same tree and width, is decoded by DECODE to EOF with the same number of symbols, and the symbol stream it appends is the encoder's
input, bit for bit. The padding bits are not read. -/
def Obligations.DecodeInvertsEncode : Prop :=
  ∀ (s t u : State) (k : Word), exec .encode s = .next t → t.rsp = some ⟨.done, k⟩ → s.AccClear → s.wbit = 0 →
    u.nodeMem = s.nodeMem → u.root = s.root → u.ncnt = s.ncnt → u.symw = s.symw → u.DecodeReady →
    u.readPos = 8 * s.wbyte.toNat → u.rlim = t.wbyte →
    (∀ a, s.wbyte.toNat ≤ a → a < t.wbyte.toNat → u.inByte a = t.outByte a) →
    u.FitsPadded (t.readPos - s.readPos) →
    ∃ x p, exec .decode u = .next x ∧ x.rsp = some ⟨.eof, k⟩ ∧
      Appended u x (s.inCode s.readPos (t.readPos - s.readPos) ++ p) ∧ (∀ b ∈ p, b = false) ∧ p.length < 8 ∧
      8 * t.wbyte.toNat < x.readPos + 8

/-! ## The software around the block -/

/-- The reference constructor's result does not depend on the order in which symbols were put into the table (R167): two lists of
assignments that are permutations of each other, each symbol once, give the same table, so the same tree. -/
def Obligations.InsertionOrderDoesNotMatter : Prop :=
  ∀ (w : Nat) (t : FreqTable) (l l' : List (Word × Word)), FreqTable.new w = .ok t → l.Perm l' → (l.map Prod.fst).Nodup →
    l.foldl (fun t e => t.setFrequency e.1 e.2) t = l'.foldl (fun t e => t.setFrequency e.1 e.2) t ∧
    buildTree (l.foldl (fun t e => t.setFrequency e.1 e.2) t) = buildTree (l'.foldl (fun t e => t.setFrequency e.1 e.2) t)

/-! ## Codes, once more -/

/-- The codes are complete (R65): under WF(tree) every infinite bit sequence has exactly one code as a prefix, and so has every finite
one that is long enough: of NCNT bits or more. The code of a tree with `L` leaves is 1 to `L − 1` bits long; there is one EOF leaf, so
`L − 1` is the number of data leaves. -/
def Obligations.EveryBitSequenceBeginsWithOneCode : Prop :=
  ∀ s : State, wfTree s = true →
    (∀ f : Nat → Bool, ∃! n, IsCode s ((List.range n).map f)) ∧
    (∀ w : Code, s.ncnt.toNat ≤ w.length → ∃! c, IsCode s c ∧ ∃ e, w = c ++ e) ∧
    ∀ c l, IsCode s c → reachedNodes s = some l → 1 ≤ c.length ∧ c.length ≤ (dataLeaves l).length
end

