-- ==== Sys2Proof/Laws/Decode.lean ====
section
/-! SUPPORT. The fields of a packet, and the opcode and register numbers read back (spec R60, R61, R12). -/

namespace Sys2Proof

@[simp] theorem opOf_packet (op imm : BitVec 8) (arg : Word) : opOf (packet op imm arg) = op := by
  apply BitVec.eq_of_getLsbD_eq
  intro i hi
  simp only [opOf, packet, BitVec.getLsbD_extractLsb', BitVec.getLsbD_append]
  have h1 : ¬ 72 + i < 64 := by omega
  have h2 : ¬ 72 + i - 64 < 8 := by omega
  have h3 : 72 + i - 64 - 8 = i := by omega
  simp [hi, h1, h2, h3]

@[simp] theorem immOf_packet (op imm : BitVec 8) (arg : Word) : immOf (packet op imm arg) = imm := by
  apply BitVec.eq_of_getLsbD_eq
  intro i hi
  simp only [immOf, packet, BitVec.getLsbD_extractLsb', BitVec.getLsbD_append]
  have h1 : ¬ 64 + i < 64 := by omega
  have h2 : 64 + i - 64 < 8 := by omega
  have h3 : 64 + i - 64 = i := by omega
  simp [hi, h1, h3]

@[simp] theorem argOf_packet (op imm : BitVec 8) (arg : Word) : argOf (packet op imm arg) = arg := by
  apply BitVec.eq_of_getLsbD_eq
  intro i hi
  simp only [argOf, packet, BitVec.getLsbD_extractLsb', BitVec.getLsbD_append]
  have h1 : 0 + i < 64 := by omega
  have h3 : 0 + i = i := by omega
  simp [hi, h3]

/-- A packet is its three fields. -/
theorem packet_fields (p : Packet) : packet (opOf p) (immOf p) (argOf p) = p := by
  apply BitVec.eq_of_getLsbD_eq
  intro i hi
  simp only [opOf, immOf, argOf, packet, BitVec.getLsbD_append, BitVec.getLsbD_extractLsb']
  by_cases h1 : i < 64
  · simp [h1]
  · by_cases h2 : i - 64 < 8
    · have : 64 + (i - 64) = i := by omega
      simp [h1, h2, this]
    · have h3 : i - 64 - 8 < 8 := by omega
      have : 72 + (i - 64 - 8) = i := by omega
      simp [h1, h2, h3, this]

/-- A mask acts on each field of a packet. -/
theorem packet_and (op imm op1 imm1 : BitVec 8) (arg arg1 : Word) :
    packet op imm arg &&& packet op1 imm1 arg1 = packet (op &&& op1) (imm &&& imm1) (arg &&& arg1) := by
  apply BitVec.eq_of_getLsbD_eq
  intro i hi
  simp only [packet, BitVec.getLsbD_and, BitVec.getLsbD_append]
  split
  · rfl
  · split <;> rfl

/-- Every row of the opcode table fixes the whole field OP. -/
theorem Op.opOf_mask (o : Op) : opOf o.mask = 0xFF := by cases o <;> rfl

/-- The head of a packet is its fields OP and IMM. -/
theorem headInfo_fields (p : Packet) : headInfo (opOf p) (immOf p) = (p.extractLsb' 64 16).setWidth 64 := by
  unfold headInfo
  congr 1
  apply BitVec.eq_of_getLsbD_eq
  intro i hi
  simp only [opOf, immOf, BitVec.getLsbD_append, BitVec.getLsbD_extractLsb']
  by_cases h2 : i < 8
  · have : i < 16 := by omega
    simp [h2, this]
  · have h3 : i - 8 < 8 := by omega
    have h4 : i < 16 := by omega
    have : 72 + (i - 8) = 64 + i := by omega
    simp [h2, h3, h4, this]

@[simp] theorem Op.ofCode_code (o : Op) : Op.ofCode o.code = some o := by cases o <;> decide

@[simp] theorem Reg.ofNumber_number (r : Reg) : Reg.ofNumber r.number = some r := by cases r <;> decide

theorem Op.code_of_ofCode {b : BitVec 8} {o : Op} (h : Op.ofCode b = some o) : o.code = b := by
  simpa using List.find?_some h

theorem Reg.number_of_ofNumber {b : BitVec 8} {r : Reg} (h : Reg.ofNumber b = some r) : r.number = b := by
  simpa using List.find?_some h

/-- The reserved values of OP (R61). -/
theorem Op.ofCode_none : ∀ b : BitVec 8, Op.ofCode b = none ↔ b ∉ Op.all.map Op.code := by decide

/-- The register numbers that exist are 0 to 14 (R12). -/
theorem Reg.ofNumber_none : ∀ b : BitVec 8, Reg.ofNumber b = none ↔ 14 < b.toNat := by decide

end Sys2Proof
end

