-- ==== Sys2Proof/Laws/State.lean ====
section
/-! SUPPORT. What each update of the state leaves in each field: one lemma per field per update, so that no later proof unfolds a
record update. -/

namespace Sys2Proof.Machine

/-! ### storeIn -/

@[simp] theorem State.storeIn_symw (s : State) (a : Nat) (b : Byte) : (s.storeIn a b).symw = s.symw := rfl
@[simp] theorem State.storeIn_rbyte (s : State) (a : Nat) (b : Byte) : (s.storeIn a b).rbyte = s.rbyte := rfl
@[simp] theorem State.storeIn_rbit (s : State) (a : Nat) (b : Byte) : (s.storeIn a b).rbit = s.rbit := rfl
@[simp] theorem State.storeIn_rlim (s : State) (a : Nat) (b : Byte) : (s.storeIn a b).rlim = s.rlim := rfl
@[simp] theorem State.storeIn_wbyte (s : State) (a : Nat) (b : Byte) : (s.storeIn a b).wbyte = s.wbyte := rfl
@[simp] theorem State.storeIn_wbit (s : State) (a : Nat) (b : Byte) : (s.storeIn a b).wbit = s.wbit := rfl
@[simp] theorem State.storeIn_wacc (s : State) (a : Nat) (b : Byte) : (s.storeIn a b).wacc = s.wacc := rfl
@[simp] theorem State.storeIn_wlim (s : State) (a : Nat) (b : Byte) : (s.storeIn a b).wlim = s.wlim := rfl
@[simp] theorem State.storeIn_root (s : State) (a : Nat) (b : Byte) : (s.storeIn a b).root = s.root := rfl
@[simp] theorem State.storeIn_tcur (s : State) (a : Nat) (b : Byte) : (s.storeIn a b).tcur = s.tcur := rfl
@[simp] theorem State.storeIn_naddr (s : State) (a : Nat) (b : Byte) : (s.storeIn a b).naddr = s.naddr := rfl
@[simp] theorem State.storeIn_ncnt (s : State) (a : Nat) (b : Byte) : (s.storeIn a b).ncnt = s.ncnt := rfl
@[simp] theorem State.storeIn_flags (s : State) (a : Nat) (b : Byte) : (s.storeIn a b).flags = s.flags := rfl
@[simp] theorem State.storeIn_err (s : State) (a : Nat) (b : Byte) : (s.storeIn a b).err = s.err := rfl
@[simp] theorem State.storeIn_einfo (s : State) (a : Nat) (b : Byte) : (s.storeIn a b).einfo = s.einfo := rfl
@[simp] theorem State.storeIn_inMem (s : State) (a : Nat) (b : Byte) : (s.storeIn a b).inMem = Memory.store (w := 8) s.inMem a b := rfl
@[simp] theorem State.storeIn_outMem (s : State) (a : Nat) (b : Byte) : (s.storeIn a b).outMem = s.outMem := rfl
@[simp] theorem State.storeIn_nodeMem (s : State) (a : Nat) (b : Byte) : (s.storeIn a b).nodeMem = s.nodeMem := rfl
@[simp] theorem State.storeIn_size (s : State) (a : Nat) (b : Byte) : (s.storeIn a b).size = s.size := rfl
@[simp] theorem State.storeIn_script (s : State) (a : Nat) (b : Byte) : (s.storeIn a b).script = s.script := rfl
@[simp] theorem State.storeIn_rsp (s : State) (a : Nat) (b : Byte) : (s.storeIn a b).rsp = s.rsp := rfl

/-! ### storeOut -/

@[simp] theorem State.storeOut_symw (s : State) (a : Nat) (b : Byte) : (s.storeOut a b).symw = s.symw := rfl
@[simp] theorem State.storeOut_rbyte (s : State) (a : Nat) (b : Byte) : (s.storeOut a b).rbyte = s.rbyte := rfl
@[simp] theorem State.storeOut_rbit (s : State) (a : Nat) (b : Byte) : (s.storeOut a b).rbit = s.rbit := rfl
@[simp] theorem State.storeOut_rlim (s : State) (a : Nat) (b : Byte) : (s.storeOut a b).rlim = s.rlim := rfl
@[simp] theorem State.storeOut_wbyte (s : State) (a : Nat) (b : Byte) : (s.storeOut a b).wbyte = s.wbyte := rfl
@[simp] theorem State.storeOut_wbit (s : State) (a : Nat) (b : Byte) : (s.storeOut a b).wbit = s.wbit := rfl
@[simp] theorem State.storeOut_wacc (s : State) (a : Nat) (b : Byte) : (s.storeOut a b).wacc = s.wacc := rfl
@[simp] theorem State.storeOut_wlim (s : State) (a : Nat) (b : Byte) : (s.storeOut a b).wlim = s.wlim := rfl
@[simp] theorem State.storeOut_root (s : State) (a : Nat) (b : Byte) : (s.storeOut a b).root = s.root := rfl
@[simp] theorem State.storeOut_tcur (s : State) (a : Nat) (b : Byte) : (s.storeOut a b).tcur = s.tcur := rfl
@[simp] theorem State.storeOut_naddr (s : State) (a : Nat) (b : Byte) : (s.storeOut a b).naddr = s.naddr := rfl
@[simp] theorem State.storeOut_ncnt (s : State) (a : Nat) (b : Byte) : (s.storeOut a b).ncnt = s.ncnt := rfl
@[simp] theorem State.storeOut_flags (s : State) (a : Nat) (b : Byte) : (s.storeOut a b).flags = s.flags := rfl
@[simp] theorem State.storeOut_err (s : State) (a : Nat) (b : Byte) : (s.storeOut a b).err = s.err := rfl
@[simp] theorem State.storeOut_einfo (s : State) (a : Nat) (b : Byte) : (s.storeOut a b).einfo = s.einfo := rfl
@[simp] theorem State.storeOut_inMem (s : State) (a : Nat) (b : Byte) : (s.storeOut a b).inMem = s.inMem := rfl
@[simp] theorem State.storeOut_outMem (s : State) (a : Nat) (b : Byte) : (s.storeOut a b).outMem = Memory.store (w := 8) s.outMem a b := rfl
@[simp] theorem State.storeOut_nodeMem (s : State) (a : Nat) (b : Byte) : (s.storeOut a b).nodeMem = s.nodeMem := rfl
@[simp] theorem State.storeOut_size (s : State) (a : Nat) (b : Byte) : (s.storeOut a b).size = s.size := rfl
@[simp] theorem State.storeOut_script (s : State) (a : Nat) (b : Byte) : (s.storeOut a b).script = s.script := rfl
@[simp] theorem State.storeOut_rsp (s : State) (a : Nat) (b : Byte) : (s.storeOut a b).rsp = s.rsp := rfl

/-! ### storeNode -/

@[simp] theorem State.storeNode_symw (s : State) (a : Nat) (v : Word) : (s.storeNode a v).symw = s.symw := rfl
@[simp] theorem State.storeNode_rbyte (s : State) (a : Nat) (v : Word) : (s.storeNode a v).rbyte = s.rbyte := rfl
@[simp] theorem State.storeNode_rbit (s : State) (a : Nat) (v : Word) : (s.storeNode a v).rbit = s.rbit := rfl
@[simp] theorem State.storeNode_rlim (s : State) (a : Nat) (v : Word) : (s.storeNode a v).rlim = s.rlim := rfl
@[simp] theorem State.storeNode_wbyte (s : State) (a : Nat) (v : Word) : (s.storeNode a v).wbyte = s.wbyte := rfl
@[simp] theorem State.storeNode_wbit (s : State) (a : Nat) (v : Word) : (s.storeNode a v).wbit = s.wbit := rfl
@[simp] theorem State.storeNode_wacc (s : State) (a : Nat) (v : Word) : (s.storeNode a v).wacc = s.wacc := rfl
@[simp] theorem State.storeNode_wlim (s : State) (a : Nat) (v : Word) : (s.storeNode a v).wlim = s.wlim := rfl
@[simp] theorem State.storeNode_root (s : State) (a : Nat) (v : Word) : (s.storeNode a v).root = s.root := rfl
@[simp] theorem State.storeNode_tcur (s : State) (a : Nat) (v : Word) : (s.storeNode a v).tcur = s.tcur := rfl
@[simp] theorem State.storeNode_naddr (s : State) (a : Nat) (v : Word) : (s.storeNode a v).naddr = s.naddr := rfl
@[simp] theorem State.storeNode_ncnt (s : State) (a : Nat) (v : Word) : (s.storeNode a v).ncnt = s.ncnt := rfl
@[simp] theorem State.storeNode_flags (s : State) (a : Nat) (v : Word) : (s.storeNode a v).flags = s.flags := rfl
@[simp] theorem State.storeNode_err (s : State) (a : Nat) (v : Word) : (s.storeNode a v).err = s.err := rfl
@[simp] theorem State.storeNode_einfo (s : State) (a : Nat) (v : Word) : (s.storeNode a v).einfo = s.einfo := rfl
@[simp] theorem State.storeNode_inMem (s : State) (a : Nat) (v : Word) : (s.storeNode a v).inMem = s.inMem := rfl
@[simp] theorem State.storeNode_outMem (s : State) (a : Nat) (v : Word) : (s.storeNode a v).outMem = s.outMem := rfl
@[simp] theorem State.storeNode_nodeMem (s : State) (a : Nat) (v : Word) : (s.storeNode a v).nodeMem = Memory.store (w := 64) s.nodeMem a v := rfl
@[simp] theorem State.storeNode_size (s : State) (a : Nat) (v : Word) : (s.storeNode a v).size = s.size := rfl
@[simp] theorem State.storeNode_script (s : State) (a : Nat) (v : Word) : (s.storeNode a v).script = s.script := rfl
@[simp] theorem State.storeNode_rsp (s : State) (a : Nat) (v : Word) : (s.storeNode a v).rsp = s.rsp := rfl

/-! ### setReadPos -/

@[simp] theorem State.setReadPos_symw (s : State) (q : Nat) : (s.setReadPos q).symw = s.symw := rfl
@[simp] theorem State.setReadPos_rbyte (s : State) (q : Nat) : (s.setReadPos q).rbyte = BitVec.ofNat 61 (q / 8) := rfl
@[simp] theorem State.setReadPos_rbit (s : State) (q : Nat) : (s.setReadPos q).rbit = BitVec.ofNat 3 (q % 8) := rfl
@[simp] theorem State.setReadPos_rlim (s : State) (q : Nat) : (s.setReadPos q).rlim = s.rlim := rfl
@[simp] theorem State.setReadPos_wbyte (s : State) (q : Nat) : (s.setReadPos q).wbyte = s.wbyte := rfl
@[simp] theorem State.setReadPos_wbit (s : State) (q : Nat) : (s.setReadPos q).wbit = s.wbit := rfl
@[simp] theorem State.setReadPos_wacc (s : State) (q : Nat) : (s.setReadPos q).wacc = s.wacc := rfl
@[simp] theorem State.setReadPos_wlim (s : State) (q : Nat) : (s.setReadPos q).wlim = s.wlim := rfl
@[simp] theorem State.setReadPos_root (s : State) (q : Nat) : (s.setReadPos q).root = s.root := rfl
@[simp] theorem State.setReadPos_tcur (s : State) (q : Nat) : (s.setReadPos q).tcur = s.tcur := rfl
@[simp] theorem State.setReadPos_naddr (s : State) (q : Nat) : (s.setReadPos q).naddr = s.naddr := rfl
@[simp] theorem State.setReadPos_ncnt (s : State) (q : Nat) : (s.setReadPos q).ncnt = s.ncnt := rfl
@[simp] theorem State.setReadPos_flags (s : State) (q : Nat) : (s.setReadPos q).flags = s.flags := rfl
@[simp] theorem State.setReadPos_err (s : State) (q : Nat) : (s.setReadPos q).err = s.err := rfl
@[simp] theorem State.setReadPos_einfo (s : State) (q : Nat) : (s.setReadPos q).einfo = s.einfo := rfl
@[simp] theorem State.setReadPos_inMem (s : State) (q : Nat) : (s.setReadPos q).inMem = s.inMem := rfl
@[simp] theorem State.setReadPos_outMem (s : State) (q : Nat) : (s.setReadPos q).outMem = s.outMem := rfl
@[simp] theorem State.setReadPos_nodeMem (s : State) (q : Nat) : (s.setReadPos q).nodeMem = s.nodeMem := rfl
@[simp] theorem State.setReadPos_size (s : State) (q : Nat) : (s.setReadPos q).size = s.size := rfl
@[simp] theorem State.setReadPos_script (s : State) (q : Nat) : (s.setReadPos q).script = s.script := rfl
@[simp] theorem State.setReadPos_rsp (s : State) (q : Nat) : (s.setReadPos q).rsp = s.rsp := rfl

/-! ### setWrite -/

@[simp] theorem State.setWrite_symw (s : State) (byte : BitVec 61) (bit : BitVec 3) (acc : BitVec 8) : (s.setWrite byte bit acc).symw = s.symw := rfl
@[simp] theorem State.setWrite_rbyte (s : State) (byte : BitVec 61) (bit : BitVec 3) (acc : BitVec 8) : (s.setWrite byte bit acc).rbyte = s.rbyte := rfl
@[simp] theorem State.setWrite_rbit (s : State) (byte : BitVec 61) (bit : BitVec 3) (acc : BitVec 8) : (s.setWrite byte bit acc).rbit = s.rbit := rfl
@[simp] theorem State.setWrite_rlim (s : State) (byte : BitVec 61) (bit : BitVec 3) (acc : BitVec 8) : (s.setWrite byte bit acc).rlim = s.rlim := rfl
@[simp] theorem State.setWrite_wbyte (s : State) (byte : BitVec 61) (bit : BitVec 3) (acc : BitVec 8) : (s.setWrite byte bit acc).wbyte = byte := rfl
@[simp] theorem State.setWrite_wbit (s : State) (byte : BitVec 61) (bit : BitVec 3) (acc : BitVec 8) : (s.setWrite byte bit acc).wbit = bit := rfl
@[simp] theorem State.setWrite_wacc (s : State) (byte : BitVec 61) (bit : BitVec 3) (acc : BitVec 8) : (s.setWrite byte bit acc).wacc = acc := rfl
@[simp] theorem State.setWrite_wlim (s : State) (byte : BitVec 61) (bit : BitVec 3) (acc : BitVec 8) : (s.setWrite byte bit acc).wlim = s.wlim := rfl
@[simp] theorem State.setWrite_root (s : State) (byte : BitVec 61) (bit : BitVec 3) (acc : BitVec 8) : (s.setWrite byte bit acc).root = s.root := rfl
@[simp] theorem State.setWrite_tcur (s : State) (byte : BitVec 61) (bit : BitVec 3) (acc : BitVec 8) : (s.setWrite byte bit acc).tcur = s.tcur := rfl
@[simp] theorem State.setWrite_naddr (s : State) (byte : BitVec 61) (bit : BitVec 3) (acc : BitVec 8) : (s.setWrite byte bit acc).naddr = s.naddr := rfl
@[simp] theorem State.setWrite_ncnt (s : State) (byte : BitVec 61) (bit : BitVec 3) (acc : BitVec 8) : (s.setWrite byte bit acc).ncnt = s.ncnt := rfl
@[simp] theorem State.setWrite_flags (s : State) (byte : BitVec 61) (bit : BitVec 3) (acc : BitVec 8) : (s.setWrite byte bit acc).flags = s.flags := rfl
@[simp] theorem State.setWrite_err (s : State) (byte : BitVec 61) (bit : BitVec 3) (acc : BitVec 8) : (s.setWrite byte bit acc).err = s.err := rfl
@[simp] theorem State.setWrite_einfo (s : State) (byte : BitVec 61) (bit : BitVec 3) (acc : BitVec 8) : (s.setWrite byte bit acc).einfo = s.einfo := rfl
@[simp] theorem State.setWrite_inMem (s : State) (byte : BitVec 61) (bit : BitVec 3) (acc : BitVec 8) : (s.setWrite byte bit acc).inMem = s.inMem := rfl
@[simp] theorem State.setWrite_outMem (s : State) (byte : BitVec 61) (bit : BitVec 3) (acc : BitVec 8) : (s.setWrite byte bit acc).outMem = s.outMem := rfl
@[simp] theorem State.setWrite_nodeMem (s : State) (byte : BitVec 61) (bit : BitVec 3) (acc : BitVec 8) : (s.setWrite byte bit acc).nodeMem = s.nodeMem := rfl
@[simp] theorem State.setWrite_size (s : State) (byte : BitVec 61) (bit : BitVec 3) (acc : BitVec 8) : (s.setWrite byte bit acc).size = s.size := rfl
@[simp] theorem State.setWrite_script (s : State) (byte : BitVec 61) (bit : BitVec 3) (acc : BitVec 8) : (s.setWrite byte bit acc).script = s.script := rfl
@[simp] theorem State.setWrite_rsp (s : State) (byte : BitVec 61) (bit : BitVec 3) (acc : BitVec 8) : (s.setWrite byte bit acc).rsp = s.rsp := rfl

/-! ### setTcur -/

@[simp] theorem State.setTcur_symw (s : State) (i : BitVec 32) : (s.setTcur i).symw = s.symw := rfl
@[simp] theorem State.setTcur_rbyte (s : State) (i : BitVec 32) : (s.setTcur i).rbyte = s.rbyte := rfl
@[simp] theorem State.setTcur_rbit (s : State) (i : BitVec 32) : (s.setTcur i).rbit = s.rbit := rfl
@[simp] theorem State.setTcur_rlim (s : State) (i : BitVec 32) : (s.setTcur i).rlim = s.rlim := rfl
@[simp] theorem State.setTcur_wbyte (s : State) (i : BitVec 32) : (s.setTcur i).wbyte = s.wbyte := rfl
@[simp] theorem State.setTcur_wbit (s : State) (i : BitVec 32) : (s.setTcur i).wbit = s.wbit := rfl
@[simp] theorem State.setTcur_wacc (s : State) (i : BitVec 32) : (s.setTcur i).wacc = s.wacc := rfl
@[simp] theorem State.setTcur_wlim (s : State) (i : BitVec 32) : (s.setTcur i).wlim = s.wlim := rfl
@[simp] theorem State.setTcur_root (s : State) (i : BitVec 32) : (s.setTcur i).root = s.root := rfl
@[simp] theorem State.setTcur_tcur (s : State) (i : BitVec 32) : (s.setTcur i).tcur = i := rfl
@[simp] theorem State.setTcur_naddr (s : State) (i : BitVec 32) : (s.setTcur i).naddr = s.naddr := rfl
@[simp] theorem State.setTcur_ncnt (s : State) (i : BitVec 32) : (s.setTcur i).ncnt = s.ncnt := rfl
@[simp] theorem State.setTcur_flags (s : State) (i : BitVec 32) : (s.setTcur i).flags = s.flags := rfl
@[simp] theorem State.setTcur_err (s : State) (i : BitVec 32) : (s.setTcur i).err = s.err := rfl
@[simp] theorem State.setTcur_einfo (s : State) (i : BitVec 32) : (s.setTcur i).einfo = s.einfo := rfl
@[simp] theorem State.setTcur_inMem (s : State) (i : BitVec 32) : (s.setTcur i).inMem = s.inMem := rfl
@[simp] theorem State.setTcur_outMem (s : State) (i : BitVec 32) : (s.setTcur i).outMem = s.outMem := rfl
@[simp] theorem State.setTcur_nodeMem (s : State) (i : BitVec 32) : (s.setTcur i).nodeMem = s.nodeMem := rfl
@[simp] theorem State.setTcur_size (s : State) (i : BitVec 32) : (s.setTcur i).size = s.size := rfl
@[simp] theorem State.setTcur_script (s : State) (i : BitVec 32) : (s.setTcur i).script = s.script := rfl
@[simp] theorem State.setTcur_rsp (s : State) (i : BitVec 32) : (s.setTcur i).rsp = s.rsp := rfl

/-! ### setNaddr -/

@[simp] theorem State.setNaddr_symw (s : State) (a : BitVec 33) : (s.setNaddr a).symw = s.symw := rfl
@[simp] theorem State.setNaddr_rbyte (s : State) (a : BitVec 33) : (s.setNaddr a).rbyte = s.rbyte := rfl
@[simp] theorem State.setNaddr_rbit (s : State) (a : BitVec 33) : (s.setNaddr a).rbit = s.rbit := rfl
@[simp] theorem State.setNaddr_rlim (s : State) (a : BitVec 33) : (s.setNaddr a).rlim = s.rlim := rfl
@[simp] theorem State.setNaddr_wbyte (s : State) (a : BitVec 33) : (s.setNaddr a).wbyte = s.wbyte := rfl
@[simp] theorem State.setNaddr_wbit (s : State) (a : BitVec 33) : (s.setNaddr a).wbit = s.wbit := rfl
@[simp] theorem State.setNaddr_wacc (s : State) (a : BitVec 33) : (s.setNaddr a).wacc = s.wacc := rfl
@[simp] theorem State.setNaddr_wlim (s : State) (a : BitVec 33) : (s.setNaddr a).wlim = s.wlim := rfl
@[simp] theorem State.setNaddr_root (s : State) (a : BitVec 33) : (s.setNaddr a).root = s.root := rfl
@[simp] theorem State.setNaddr_tcur (s : State) (a : BitVec 33) : (s.setNaddr a).tcur = s.tcur := rfl
@[simp] theorem State.setNaddr_naddr (s : State) (a : BitVec 33) : (s.setNaddr a).naddr = a := rfl
@[simp] theorem State.setNaddr_ncnt (s : State) (a : BitVec 33) : (s.setNaddr a).ncnt = s.ncnt := rfl
@[simp] theorem State.setNaddr_flags (s : State) (a : BitVec 33) : (s.setNaddr a).flags = s.flags := rfl
@[simp] theorem State.setNaddr_err (s : State) (a : BitVec 33) : (s.setNaddr a).err = s.err := rfl
@[simp] theorem State.setNaddr_einfo (s : State) (a : BitVec 33) : (s.setNaddr a).einfo = s.einfo := rfl
@[simp] theorem State.setNaddr_inMem (s : State) (a : BitVec 33) : (s.setNaddr a).inMem = s.inMem := rfl
@[simp] theorem State.setNaddr_outMem (s : State) (a : BitVec 33) : (s.setNaddr a).outMem = s.outMem := rfl
@[simp] theorem State.setNaddr_nodeMem (s : State) (a : BitVec 33) : (s.setNaddr a).nodeMem = s.nodeMem := rfl
@[simp] theorem State.setNaddr_size (s : State) (a : BitVec 33) : (s.setNaddr a).size = s.size := rfl
@[simp] theorem State.setNaddr_script (s : State) (a : BitVec 33) : (s.setNaddr a).script = s.script := rfl
@[simp] theorem State.setNaddr_rsp (s : State) (a : BitVec 33) : (s.setNaddr a).rsp = s.rsp := rfl

/-! ### setFlags -/

@[simp] theorem State.setFlags_symw (s : State) (f : BitVec 1) : (s.setFlags f).symw = s.symw := rfl
@[simp] theorem State.setFlags_rbyte (s : State) (f : BitVec 1) : (s.setFlags f).rbyte = s.rbyte := rfl
@[simp] theorem State.setFlags_rbit (s : State) (f : BitVec 1) : (s.setFlags f).rbit = s.rbit := rfl
@[simp] theorem State.setFlags_rlim (s : State) (f : BitVec 1) : (s.setFlags f).rlim = s.rlim := rfl
@[simp] theorem State.setFlags_wbyte (s : State) (f : BitVec 1) : (s.setFlags f).wbyte = s.wbyte := rfl
@[simp] theorem State.setFlags_wbit (s : State) (f : BitVec 1) : (s.setFlags f).wbit = s.wbit := rfl
@[simp] theorem State.setFlags_wacc (s : State) (f : BitVec 1) : (s.setFlags f).wacc = s.wacc := rfl
@[simp] theorem State.setFlags_wlim (s : State) (f : BitVec 1) : (s.setFlags f).wlim = s.wlim := rfl
@[simp] theorem State.setFlags_root (s : State) (f : BitVec 1) : (s.setFlags f).root = s.root := rfl
@[simp] theorem State.setFlags_tcur (s : State) (f : BitVec 1) : (s.setFlags f).tcur = s.tcur := rfl
@[simp] theorem State.setFlags_naddr (s : State) (f : BitVec 1) : (s.setFlags f).naddr = s.naddr := rfl
@[simp] theorem State.setFlags_ncnt (s : State) (f : BitVec 1) : (s.setFlags f).ncnt = s.ncnt := rfl
@[simp] theorem State.setFlags_flags (s : State) (f : BitVec 1) : (s.setFlags f).flags = f := rfl
@[simp] theorem State.setFlags_err (s : State) (f : BitVec 1) : (s.setFlags f).err = s.err := rfl
@[simp] theorem State.setFlags_einfo (s : State) (f : BitVec 1) : (s.setFlags f).einfo = s.einfo := rfl
@[simp] theorem State.setFlags_inMem (s : State) (f : BitVec 1) : (s.setFlags f).inMem = s.inMem := rfl
@[simp] theorem State.setFlags_outMem (s : State) (f : BitVec 1) : (s.setFlags f).outMem = s.outMem := rfl
@[simp] theorem State.setFlags_nodeMem (s : State) (f : BitVec 1) : (s.setFlags f).nodeMem = s.nodeMem := rfl
@[simp] theorem State.setFlags_size (s : State) (f : BitVec 1) : (s.setFlags f).size = s.size := rfl
@[simp] theorem State.setFlags_script (s : State) (f : BitVec 1) : (s.setFlags f).script = s.script := rfl
@[simp] theorem State.setFlags_rsp (s : State) (f : BitVec 1) : (s.setFlags f).rsp = s.rsp := rfl

/-! ### setEofSeen -/

@[simp] theorem State.setEofSeen_symw (s : State) : s.setEofSeen.symw = s.symw := rfl
@[simp] theorem State.setEofSeen_rbyte (s : State) : s.setEofSeen.rbyte = s.rbyte := rfl
@[simp] theorem State.setEofSeen_rbit (s : State) : s.setEofSeen.rbit = s.rbit := rfl
@[simp] theorem State.setEofSeen_rlim (s : State) : s.setEofSeen.rlim = s.rlim := rfl
@[simp] theorem State.setEofSeen_wbyte (s : State) : s.setEofSeen.wbyte = s.wbyte := rfl
@[simp] theorem State.setEofSeen_wbit (s : State) : s.setEofSeen.wbit = s.wbit := rfl
@[simp] theorem State.setEofSeen_wacc (s : State) : s.setEofSeen.wacc = s.wacc := rfl
@[simp] theorem State.setEofSeen_wlim (s : State) : s.setEofSeen.wlim = s.wlim := rfl
@[simp] theorem State.setEofSeen_root (s : State) : s.setEofSeen.root = s.root := rfl
@[simp] theorem State.setEofSeen_tcur (s : State) : s.setEofSeen.tcur = s.tcur := rfl
@[simp] theorem State.setEofSeen_naddr (s : State) : s.setEofSeen.naddr = s.naddr := rfl
@[simp] theorem State.setEofSeen_ncnt (s : State) : s.setEofSeen.ncnt = s.ncnt := rfl
@[simp] theorem State.setEofSeen_flags (s : State) : s.setEofSeen.flags = 1 := rfl
@[simp] theorem State.setEofSeen_err (s : State) : s.setEofSeen.err = s.err := rfl
@[simp] theorem State.setEofSeen_einfo (s : State) : s.setEofSeen.einfo = s.einfo := rfl
@[simp] theorem State.setEofSeen_inMem (s : State) : s.setEofSeen.inMem = s.inMem := rfl
@[simp] theorem State.setEofSeen_outMem (s : State) : s.setEofSeen.outMem = s.outMem := rfl
@[simp] theorem State.setEofSeen_nodeMem (s : State) : s.setEofSeen.nodeMem = s.nodeMem := rfl
@[simp] theorem State.setEofSeen_size (s : State) : s.setEofSeen.size = s.size := rfl
@[simp] theorem State.setEofSeen_script (s : State) : s.setEofSeen.script = s.script := rfl
@[simp] theorem State.setEofSeen_rsp (s : State) : s.setEofSeen.rsp = s.rsp := rfl

/-! ### clearEofSeen -/

@[simp] theorem State.clearEofSeen_symw (s : State) : s.clearEofSeen.symw = s.symw := rfl
@[simp] theorem State.clearEofSeen_rbyte (s : State) : s.clearEofSeen.rbyte = s.rbyte := rfl
@[simp] theorem State.clearEofSeen_rbit (s : State) : s.clearEofSeen.rbit = s.rbit := rfl
@[simp] theorem State.clearEofSeen_rlim (s : State) : s.clearEofSeen.rlim = s.rlim := rfl
@[simp] theorem State.clearEofSeen_wbyte (s : State) : s.clearEofSeen.wbyte = s.wbyte := rfl
@[simp] theorem State.clearEofSeen_wbit (s : State) : s.clearEofSeen.wbit = s.wbit := rfl
@[simp] theorem State.clearEofSeen_wacc (s : State) : s.clearEofSeen.wacc = s.wacc := rfl
@[simp] theorem State.clearEofSeen_wlim (s : State) : s.clearEofSeen.wlim = s.wlim := rfl
@[simp] theorem State.clearEofSeen_root (s : State) : s.clearEofSeen.root = s.root := rfl
@[simp] theorem State.clearEofSeen_tcur (s : State) : s.clearEofSeen.tcur = s.tcur := rfl
@[simp] theorem State.clearEofSeen_naddr (s : State) : s.clearEofSeen.naddr = s.naddr := rfl
@[simp] theorem State.clearEofSeen_ncnt (s : State) : s.clearEofSeen.ncnt = s.ncnt := rfl
@[simp] theorem State.clearEofSeen_flags (s : State) : s.clearEofSeen.flags = 0 := rfl
@[simp] theorem State.clearEofSeen_err (s : State) : s.clearEofSeen.err = s.err := rfl
@[simp] theorem State.clearEofSeen_einfo (s : State) : s.clearEofSeen.einfo = s.einfo := rfl
@[simp] theorem State.clearEofSeen_inMem (s : State) : s.clearEofSeen.inMem = s.inMem := rfl
@[simp] theorem State.clearEofSeen_outMem (s : State) : s.clearEofSeen.outMem = s.outMem := rfl
@[simp] theorem State.clearEofSeen_nodeMem (s : State) : s.clearEofSeen.nodeMem = s.nodeMem := rfl
@[simp] theorem State.clearEofSeen_size (s : State) : s.clearEofSeen.size = s.size := rfl
@[simp] theorem State.clearEofSeen_script (s : State) : s.clearEofSeen.script = s.script := rfl
@[simp] theorem State.clearEofSeen_rsp (s : State) : s.clearEofSeen.rsp = s.rsp := rfl

/-! ### setScript -/

@[simp] theorem State.setScript_symw (s : State) (l : List HostMove) : (s.setScript l).symw = s.symw := rfl
@[simp] theorem State.setScript_rbyte (s : State) (l : List HostMove) : (s.setScript l).rbyte = s.rbyte := rfl
@[simp] theorem State.setScript_rbit (s : State) (l : List HostMove) : (s.setScript l).rbit = s.rbit := rfl
@[simp] theorem State.setScript_rlim (s : State) (l : List HostMove) : (s.setScript l).rlim = s.rlim := rfl
@[simp] theorem State.setScript_wbyte (s : State) (l : List HostMove) : (s.setScript l).wbyte = s.wbyte := rfl
@[simp] theorem State.setScript_wbit (s : State) (l : List HostMove) : (s.setScript l).wbit = s.wbit := rfl
@[simp] theorem State.setScript_wacc (s : State) (l : List HostMove) : (s.setScript l).wacc = s.wacc := rfl
@[simp] theorem State.setScript_wlim (s : State) (l : List HostMove) : (s.setScript l).wlim = s.wlim := rfl
@[simp] theorem State.setScript_root (s : State) (l : List HostMove) : (s.setScript l).root = s.root := rfl
@[simp] theorem State.setScript_tcur (s : State) (l : List HostMove) : (s.setScript l).tcur = s.tcur := rfl
@[simp] theorem State.setScript_naddr (s : State) (l : List HostMove) : (s.setScript l).naddr = s.naddr := rfl
@[simp] theorem State.setScript_ncnt (s : State) (l : List HostMove) : (s.setScript l).ncnt = s.ncnt := rfl
@[simp] theorem State.setScript_flags (s : State) (l : List HostMove) : (s.setScript l).flags = s.flags := rfl
@[simp] theorem State.setScript_err (s : State) (l : List HostMove) : (s.setScript l).err = s.err := rfl
@[simp] theorem State.setScript_einfo (s : State) (l : List HostMove) : (s.setScript l).einfo = s.einfo := rfl
@[simp] theorem State.setScript_inMem (s : State) (l : List HostMove) : (s.setScript l).inMem = s.inMem := rfl
@[simp] theorem State.setScript_outMem (s : State) (l : List HostMove) : (s.setScript l).outMem = s.outMem := rfl
@[simp] theorem State.setScript_nodeMem (s : State) (l : List HostMove) : (s.setScript l).nodeMem = s.nodeMem := rfl
@[simp] theorem State.setScript_size (s : State) (l : List HostMove) : (s.setScript l).size = s.size := rfl
@[simp] theorem State.setScript_script (s : State) (l : List HostMove) : (s.setScript l).script = l := rfl
@[simp] theorem State.setScript_rsp (s : State) (l : List HostMove) : (s.setScript l).rsp = s.rsp := rfl

/-! ### respond -/

@[simp] theorem State.respond_symw (s : State) (stat : Stat) (val : Word) : (s.respond stat val).symw = s.symw := rfl
@[simp] theorem State.respond_rbyte (s : State) (stat : Stat) (val : Word) : (s.respond stat val).rbyte = s.rbyte := rfl
@[simp] theorem State.respond_rbit (s : State) (stat : Stat) (val : Word) : (s.respond stat val).rbit = s.rbit := rfl
@[simp] theorem State.respond_rlim (s : State) (stat : Stat) (val : Word) : (s.respond stat val).rlim = s.rlim := rfl
@[simp] theorem State.respond_wbyte (s : State) (stat : Stat) (val : Word) : (s.respond stat val).wbyte = s.wbyte := rfl
@[simp] theorem State.respond_wbit (s : State) (stat : Stat) (val : Word) : (s.respond stat val).wbit = s.wbit := rfl
@[simp] theorem State.respond_wacc (s : State) (stat : Stat) (val : Word) : (s.respond stat val).wacc = s.wacc := rfl
@[simp] theorem State.respond_wlim (s : State) (stat : Stat) (val : Word) : (s.respond stat val).wlim = s.wlim := rfl
@[simp] theorem State.respond_root (s : State) (stat : Stat) (val : Word) : (s.respond stat val).root = s.root := rfl
@[simp] theorem State.respond_tcur (s : State) (stat : Stat) (val : Word) : (s.respond stat val).tcur = s.tcur := rfl
@[simp] theorem State.respond_naddr (s : State) (stat : Stat) (val : Word) : (s.respond stat val).naddr = s.naddr := rfl
@[simp] theorem State.respond_ncnt (s : State) (stat : Stat) (val : Word) : (s.respond stat val).ncnt = s.ncnt := rfl
@[simp] theorem State.respond_flags (s : State) (stat : Stat) (val : Word) : (s.respond stat val).flags = s.flags := rfl
@[simp] theorem State.respond_err (s : State) (stat : Stat) (val : Word) : (s.respond stat val).err = s.err := rfl
@[simp] theorem State.respond_einfo (s : State) (stat : Stat) (val : Word) : (s.respond stat val).einfo = s.einfo := rfl
@[simp] theorem State.respond_inMem (s : State) (stat : Stat) (val : Word) : (s.respond stat val).inMem = s.inMem := rfl
@[simp] theorem State.respond_outMem (s : State) (stat : Stat) (val : Word) : (s.respond stat val).outMem = s.outMem := rfl
@[simp] theorem State.respond_nodeMem (s : State) (stat : Stat) (val : Word) : (s.respond stat val).nodeMem = s.nodeMem := rfl
@[simp] theorem State.respond_size (s : State) (stat : Stat) (val : Word) : (s.respond stat val).size = s.size := rfl
@[simp] theorem State.respond_script (s : State) (stat : Stat) (val : Word) : (s.respond stat val).script = s.script := rfl
@[simp] theorem State.respond_rsp (s : State) (stat : Stat) (val : Word) : (s.respond stat val).rsp = some ⟨stat, val⟩ := rfl

/-! ### resetRegs -/

@[simp] theorem State.resetRegs_symw (s : State) : s.resetRegs.symw = 0 := rfl
@[simp] theorem State.resetRegs_rbyte (s : State) : s.resetRegs.rbyte = 0 := rfl
@[simp] theorem State.resetRegs_rbit (s : State) : s.resetRegs.rbit = 0 := rfl
@[simp] theorem State.resetRegs_rlim (s : State) : s.resetRegs.rlim = 0 := rfl
@[simp] theorem State.resetRegs_wbyte (s : State) : s.resetRegs.wbyte = 0 := rfl
@[simp] theorem State.resetRegs_wbit (s : State) : s.resetRegs.wbit = 0 := rfl
@[simp] theorem State.resetRegs_wacc (s : State) : s.resetRegs.wacc = 0 := rfl
@[simp] theorem State.resetRegs_wlim (s : State) : s.resetRegs.wlim = 0 := rfl
@[simp] theorem State.resetRegs_root (s : State) : s.resetRegs.root = 0 := rfl
@[simp] theorem State.resetRegs_tcur (s : State) : s.resetRegs.tcur = 0 := rfl
@[simp] theorem State.resetRegs_naddr (s : State) : s.resetRegs.naddr = 0 := rfl
@[simp] theorem State.resetRegs_ncnt (s : State) : s.resetRegs.ncnt = 0 := rfl
@[simp] theorem State.resetRegs_flags (s : State) : s.resetRegs.flags = 0 := rfl
@[simp] theorem State.resetRegs_err (s : State) : s.resetRegs.err = 0 := rfl
@[simp] theorem State.resetRegs_einfo (s : State) : s.resetRegs.einfo = 0 := rfl
@[simp] theorem State.resetRegs_inMem (s : State) : s.resetRegs.inMem = s.inMem := rfl
@[simp] theorem State.resetRegs_outMem (s : State) : s.resetRegs.outMem = s.outMem := rfl
@[simp] theorem State.resetRegs_nodeMem (s : State) : s.resetRegs.nodeMem = s.nodeMem := rfl
@[simp] theorem State.resetRegs_size (s : State) : s.resetRegs.size = s.size := rfl
@[simp] theorem State.resetRegs_script (s : State) : s.resetRegs.script = s.script := rfl
@[simp] theorem State.resetRegs_rsp (s : State) : s.resetRegs.rsp = s.rsp := rfl

/-! ### latch and raise -/

@[simp] theorem State.latch_symw (s : State) (c : FaultCode) (info : Word) : (s.latch c info).symw = s.symw := by
  unfold State.latch; split <;> rfl
@[simp] theorem State.latch_rbyte (s : State) (c : FaultCode) (info : Word) : (s.latch c info).rbyte = s.rbyte := by
  unfold State.latch; split <;> rfl
@[simp] theorem State.latch_rbit (s : State) (c : FaultCode) (info : Word) : (s.latch c info).rbit = s.rbit := by
  unfold State.latch; split <;> rfl
@[simp] theorem State.latch_rlim (s : State) (c : FaultCode) (info : Word) : (s.latch c info).rlim = s.rlim := by
  unfold State.latch; split <;> rfl
@[simp] theorem State.latch_wbyte (s : State) (c : FaultCode) (info : Word) : (s.latch c info).wbyte = s.wbyte := by
  unfold State.latch; split <;> rfl
@[simp] theorem State.latch_wbit (s : State) (c : FaultCode) (info : Word) : (s.latch c info).wbit = s.wbit := by
  unfold State.latch; split <;> rfl
@[simp] theorem State.latch_wacc (s : State) (c : FaultCode) (info : Word) : (s.latch c info).wacc = s.wacc := by
  unfold State.latch; split <;> rfl
@[simp] theorem State.latch_wlim (s : State) (c : FaultCode) (info : Word) : (s.latch c info).wlim = s.wlim := by
  unfold State.latch; split <;> rfl
@[simp] theorem State.latch_root (s : State) (c : FaultCode) (info : Word) : (s.latch c info).root = s.root := by
  unfold State.latch; split <;> rfl
@[simp] theorem State.latch_tcur (s : State) (c : FaultCode) (info : Word) : (s.latch c info).tcur = s.tcur := by
  unfold State.latch; split <;> rfl
@[simp] theorem State.latch_naddr (s : State) (c : FaultCode) (info : Word) : (s.latch c info).naddr = s.naddr := by
  unfold State.latch; split <;> rfl
@[simp] theorem State.latch_ncnt (s : State) (c : FaultCode) (info : Word) : (s.latch c info).ncnt = s.ncnt := by
  unfold State.latch; split <;> rfl
@[simp] theorem State.latch_flags (s : State) (c : FaultCode) (info : Word) : (s.latch c info).flags = s.flags := by
  unfold State.latch; split <;> rfl
@[simp] theorem State.latch_inMem (s : State) (c : FaultCode) (info : Word) : (s.latch c info).inMem = s.inMem := by
  unfold State.latch; split <;> rfl
@[simp] theorem State.latch_outMem (s : State) (c : FaultCode) (info : Word) : (s.latch c info).outMem = s.outMem := by
  unfold State.latch; split <;> rfl
@[simp] theorem State.latch_nodeMem (s : State) (c : FaultCode) (info : Word) : (s.latch c info).nodeMem = s.nodeMem := by
  unfold State.latch; split <;> rfl
@[simp] theorem State.latch_size (s : State) (c : FaultCode) (info : Word) : (s.latch c info).size = s.size := by
  unfold State.latch; split <;> rfl
@[simp] theorem State.latch_script (s : State) (c : FaultCode) (info : Word) : (s.latch c info).script = s.script := by
  unfold State.latch; split <;> rfl
@[simp] theorem State.latch_rsp (s : State) (c : FaultCode) (info : Word) : (s.latch c info).rsp = s.rsp := by
  unfold State.latch; split <;> rfl
@[simp] theorem State.latch_err (s : State) (c : FaultCode) (info : Word) :
    (s.latch c info).err = if s.err = 0 then c.code else s.err := by
  unfold State.latch; split <;> rfl
@[simp] theorem State.latch_einfo (s : State) (c : FaultCode) (info : Word) :
    (s.latch c info).einfo = if s.err = 0 then info else s.einfo := by
  unfold State.latch; split <;> rfl

@[simp] theorem State.raise_symw (s : State) (c : FaultCode) (info : Word) : (s.raise c info).symw = s.symw := by
  simp [State.raise]
@[simp] theorem State.raise_rbyte (s : State) (c : FaultCode) (info : Word) : (s.raise c info).rbyte = s.rbyte := by
  simp [State.raise]
@[simp] theorem State.raise_rbit (s : State) (c : FaultCode) (info : Word) : (s.raise c info).rbit = s.rbit := by
  simp [State.raise]
@[simp] theorem State.raise_rlim (s : State) (c : FaultCode) (info : Word) : (s.raise c info).rlim = s.rlim := by
  simp [State.raise]
@[simp] theorem State.raise_wbyte (s : State) (c : FaultCode) (info : Word) : (s.raise c info).wbyte = s.wbyte := by
  simp [State.raise]
@[simp] theorem State.raise_wbit (s : State) (c : FaultCode) (info : Word) : (s.raise c info).wbit = s.wbit := by
  simp [State.raise]
@[simp] theorem State.raise_wacc (s : State) (c : FaultCode) (info : Word) : (s.raise c info).wacc = s.wacc := by
  simp [State.raise]
@[simp] theorem State.raise_wlim (s : State) (c : FaultCode) (info : Word) : (s.raise c info).wlim = s.wlim := by
  simp [State.raise]
@[simp] theorem State.raise_root (s : State) (c : FaultCode) (info : Word) : (s.raise c info).root = s.root := by
  simp [State.raise]
@[simp] theorem State.raise_tcur (s : State) (c : FaultCode) (info : Word) : (s.raise c info).tcur = s.tcur := by
  simp [State.raise]
@[simp] theorem State.raise_naddr (s : State) (c : FaultCode) (info : Word) : (s.raise c info).naddr = s.naddr := by
  simp [State.raise]
@[simp] theorem State.raise_ncnt (s : State) (c : FaultCode) (info : Word) : (s.raise c info).ncnt = s.ncnt := by
  simp [State.raise]
@[simp] theorem State.raise_flags (s : State) (c : FaultCode) (info : Word) : (s.raise c info).flags = s.flags := by
  simp [State.raise]
@[simp] theorem State.raise_inMem (s : State) (c : FaultCode) (info : Word) : (s.raise c info).inMem = s.inMem := by
  simp [State.raise]
@[simp] theorem State.raise_outMem (s : State) (c : FaultCode) (info : Word) : (s.raise c info).outMem = s.outMem := by
  simp [State.raise]
@[simp] theorem State.raise_nodeMem (s : State) (c : FaultCode) (info : Word) : (s.raise c info).nodeMem = s.nodeMem := by
  simp [State.raise]
@[simp] theorem State.raise_size (s : State) (c : FaultCode) (info : Word) : (s.raise c info).size = s.size := by
  simp [State.raise]
@[simp] theorem State.raise_script (s : State) (c : FaultCode) (info : Word) : (s.raise c info).script = s.script := by
  simp [State.raise]
@[simp] theorem State.raise_err (s : State) (c : FaultCode) (info : Word) :
    (s.raise c info).err = if s.err = 0 then c.code else s.err := by
  simp [State.raise]
@[simp] theorem State.raise_einfo (s : State) (c : FaultCode) (info : Word) :
    (s.raise c info).einfo = if s.err = 0 then info else s.einfo := by
  simp [State.raise]
@[simp] theorem State.raise_rsp (s : State) (c : FaultCode) (info : Word) :
    (s.raise c info).rsp = some ⟨.fault c, info⟩ := rfl

/-! ### writeReg: the fields no SETREG writes -/

@[simp] theorem State.writeReg_flags (s : State) (r : Reg) (v : Word) : (s.writeReg r v).flags = s.flags := by
  cases r <;> rfl
@[simp] theorem State.writeReg_err (s : State) (r : Reg) (v : Word) : (s.writeReg r v).err = s.err := by
  cases r <;> rfl
@[simp] theorem State.writeReg_einfo (s : State) (r : Reg) (v : Word) : (s.writeReg r v).einfo = s.einfo := by
  cases r <;> rfl
@[simp] theorem State.writeReg_inMem (s : State) (r : Reg) (v : Word) : (s.writeReg r v).inMem = s.inMem := by
  cases r <;> rfl
@[simp] theorem State.writeReg_outMem (s : State) (r : Reg) (v : Word) : (s.writeReg r v).outMem = s.outMem := by
  cases r <;> rfl
@[simp] theorem State.writeReg_nodeMem (s : State) (r : Reg) (v : Word) : (s.writeReg r v).nodeMem = s.nodeMem := by
  cases r <;> rfl
@[simp] theorem State.writeReg_size (s : State) (r : Reg) (v : Word) : (s.writeReg r v).size = s.size := by
  cases r <;> rfl
@[simp] theorem State.writeReg_script (s : State) (r : Reg) (v : Word) : (s.writeReg r v).script = s.script := by
  cases r <;> rfl
@[simp] theorem State.writeReg_rsp (s : State) (r : Reg) (v : Word) : (s.writeReg r v).rsp = s.rsp := by
  cases r <;> rfl

end Sys2Proof.Machine
end

