-- ==== Sys2Proof/Laws/Memory.lean ====
section
/-! SUPPORT. The laws of a memory: a read after a write, the canonical form, and the reads of IN, OUT and NODE after each write of
the state. -/

namespace Sys2Proof

/-! ## Read after write -/

theorem Memory.cell?_store {w : Nat} (m : Memory w) (a b : Nat) (v : BitVec w) :
    Memory.cell? (Memory.store m a v) b = if a = b then some v else Memory.cell? m b := by
  induction m with
  | nil => rfl
  | cons c m ih =>
    obtain ⟨d, u⟩ := c
    rcases Nat.lt_trichotomy a d with h | h | h
    · simp [Memory.store, h, Memory.cell?]
    · subst h
      by_cases hb : a = b <;> simp [Memory.store, Memory.cell?, hb]
    · have h1 : ¬ a < d := by omega
      have h2 : a ≠ d := by omega
      by_cases hd : d = b
      · subst hd
        simp [Memory.store, Memory.cell?, h1, h2]
      · simp [Memory.store, Memory.cell?, h1, h2, hd, ih]

@[simp] theorem Memory.cell?_store_same {w : Nat} (m : Memory w) (a : Nat) (v : BitVec w) :
    Memory.cell? (Memory.store m a v) a = some v := by
  simp [Memory.cell?_store]

theorem Memory.cell?_store_other {w : Nat} (m : Memory w) {a b : Nat} (v : BitVec w) (h : a ≠ b) :
    Memory.cell? (Memory.store m a v) b = Memory.cell? m b := by
  simp [Memory.cell?_store, h]

/-! ## The canonical form -/

theorem Memory.above_cons {w : Nat} (lo a : Nat) (v : BitVec w) (m : Memory w) :
    Memory.above lo ((a, v) :: m) = true ↔ lo < a ∧ Memory.above lo m = true := by
  simp [Memory.above]

theorem Memory.wf_cons {w : Nat} (a : Nat) (v : BitVec w) (m : Memory w) :
    Memory.wf ((a, v) :: m) = true ↔ Memory.above a m = true ∧ Memory.wf m = true := by
  simp [Memory.wf]

theorem Memory.within_cons {w : Nat} (n a : Nat) (v : BitVec w) (m : Memory w) :
    Memory.within n ((a, v) :: m) = true ↔ a < n ∧ Memory.within n m = true := by
  simp [Memory.within]

theorem Memory.above_trans {w : Nat} {lo hi : Nat} (m : Memory w) (h : lo < hi) (hm : Memory.above hi m = true) :
    Memory.above lo m = true := by
  simp only [Memory.above, List.all_eq_true, decide_eq_true_eq] at hm ⊢
  exact fun c hc => Nat.lt_trans h (hm c hc)

theorem Memory.above_store {w : Nat} (lo a : Nat) (v : BitVec w) (m : Memory w) (ha : lo < a)
    (hm : Memory.above lo m = true) : Memory.above lo (Memory.store m a v) = true := by
  induction m with
  | nil => simp [Memory.store, Memory.above, ha]
  | cons c m ih =>
    obtain ⟨d, u⟩ := c
    rw [Memory.above_cons] at hm
    rcases Nat.lt_trichotomy a d with h | h | h
    · simp [Memory.store, h, Memory.above_cons, ha, hm]
    · subst h
      simp [Memory.store, Memory.above_cons, ha, hm]
    · have h1 : ¬ a < d := by omega
      have h2 : a ≠ d := by omega
      simp [Memory.store, h1, h2, Memory.above_cons, hm, ih hm.2]

/-- Every write keeps the canonical form. -/
theorem Memory.wf_store {w : Nat} (a : Nat) (v : BitVec w) (m : Memory w) (hm : Memory.wf m = true) :
    Memory.wf (Memory.store m a v) = true := by
  induction m with
  | nil => simp [Memory.store, Memory.wf, Memory.above]
  | cons c m ih =>
    obtain ⟨d, u⟩ := c
    rw [Memory.wf_cons] at hm
    rcases Nat.lt_trichotomy a d with h | h | h
    · simp [Memory.store, h, Memory.wf_cons, Memory.above_cons, hm, Memory.above_trans m h hm.1]
    · subst h
      simp [Memory.store, Memory.wf_cons, hm]
    · have h1 : ¬ a < d := by omega
      have h2 : a ≠ d := by omega
      simp [Memory.store, h1, h2, Memory.wf_cons, ih hm.2, Memory.above_store d a v m h hm.1]

/-- A write inside a space of `n` cells keeps the memory inside it. -/
theorem Memory.within_store {w : Nat} (n a : Nat) (v : BitVec w) (m : Memory w) (ha : a < n)
    (hm : Memory.within n m = true) : Memory.within n (Memory.store m a v) = true := by
  induction m with
  | nil => simp [Memory.store, Memory.within, ha]
  | cons c m ih =>
    obtain ⟨d, u⟩ := c
    rw [Memory.within_cons] at hm
    rcases Nat.lt_trichotomy a d with h | h | h
    · simp [Memory.store, h, Memory.within_cons, ha, hm]
    · subst h
      simp [Memory.store, Memory.within_cons, hm]
    · have h1 : ¬ a < d := by omega
      have h2 : a ≠ d := by omega
      simp [Memory.store, h1, h2, Memory.within_cons, hm, ih hm.2]

/-- An address below every listed one is not listed. -/
theorem Memory.cell?_of_above {w : Nat} (m : Memory w) {lo a : Nat} (hm : Memory.above lo m = true) (ha : a ≤ lo) :
    Memory.cell? m a = none := by
  induction m with
  | nil => rfl
  | cons c m ih =>
    obtain ⟨d, u⟩ := c
    rw [Memory.above_cons] at hm
    have : d ≠ a := by omega
    simp [Memory.cell?, this, ih hm.2]

/-- The form is canonical: two memories with the same cells are the same list. -/
theorem Memory.eq_of_cells {w : Nat} (m n : Memory w) (hm : Memory.wf m = true) (hn : Memory.wf n = true)
    (h : ∀ a, Memory.cell? m a = Memory.cell? n a) : m = n := by
  induction m generalizing n with
  | nil =>
    cases n with
    | nil => rfl
    | cons c n =>
      obtain ⟨d, u⟩ := c
      simpa [Memory.cell?] using h d
  | cons c m ih =>
    obtain ⟨a, v⟩ := c
    cases n with
    | nil => simpa [Memory.cell?] using h a
    | cons c n =>
      obtain ⟨d, u⟩ := c
      rw [Memory.wf_cons] at hm hn
      have had : a = d := by
        rcases Nat.lt_trichotomy a d with hlt | heq | hgt
        · have := h a
          rw [Memory.cell?_of_above ((d, u) :: n) (lo := a)
            ((Memory.above_cons ..).2 ⟨hlt, Memory.above_trans n hlt hn.1⟩) (Nat.le_refl a)] at this
          simp [Memory.cell?] at this
        · exact heq
        · have := h d
          rw [Memory.cell?_of_above ((a, v) :: m) (lo := d)
            ((Memory.above_cons ..).2 ⟨hgt, Memory.above_trans m hgt hm.1⟩) (Nat.le_refl d)] at this
          simp [Memory.cell?] at this
      subst had
      have hv : v = u := by simpa [Memory.cell?] using h a
      subst hv
      congr 1
      refine ih n hm.2 hn.2 fun b => ?_
      by_cases hb : a = b
      · subst hb
        rw [Memory.cell?_of_above m hm.1 (Nat.le_refl a), Memory.cell?_of_above n hn.1 (Nat.le_refl a)]
      · simpa [Memory.cell?, hb] using h b

namespace Machine

/-! ## Reads after writes of the state -/

theorem State.inByte_storeIn (s : State) (a b : Nat) (v : Byte) :
    (s.storeIn a v).inByte b = if a = b then v else s.inByte b := by
  simp only [State.inByte, State.storeIn_inMem, Memory.cell?_store]
  split <;> rfl

theorem State.outByte_storeOut (s : State) (a b : Nat) (v : Byte) :
    (s.storeOut a v).outByte b = if a = b then v else s.outByte b := by
  simp only [State.outByte, State.storeOut_outMem, Memory.cell?_store]
  split <;> rfl

theorem State.nodeWord_storeNode (s : State) (a b : Nat) (v : Word) :
    (s.storeNode a v).nodeWord b = if a = b then v else s.nodeWord b := by
  simp only [State.nodeWord, State.storeNode_nodeMem, Memory.cell?_store]
  split <;> rfl

/-- A byte of IN depends on IN alone. -/
theorem State.inByte_congr {s t : State} (h : s.inMem = t.inMem) (a : Nat) : s.inByte a = t.inByte a := by
  simp [State.inByte, h]

/-- A byte of OUT depends on OUT alone. -/
theorem State.outByte_congr {s t : State} (h : s.outMem = t.outMem) (a : Nat) : s.outByte a = t.outByte a := by
  simp [State.outByte, h]

/-- A word of NODE depends on NODE alone. -/
theorem State.nodeWord_congr {s t : State} (h : s.nodeMem = t.nodeMem) (a : Nat) : s.nodeWord a = t.nodeWord a := by
  simp [State.nodeWord, h]

end Machine

end Sys2Proof
end

