-- ==== Sys2Proof/Laws/Ops.lean ====
section
/-! SUPPORT. What the order of checks can do with a command, and how a helper's result ends a command. -/

namespace Sys2Proof.Machine

@[simp] theorem Res.andThen_ok {α β : Type} (a : α) (s : State) (k : α → State → Res β) :
    (Res.ok a s).andThen k = k a s := rfl

@[simp] theorem Res.andThen_raise {α β : Type} (c : FaultCode) (info : Word) (s : State) (k : α → State → Res β) :
    (Res.raise c info s : Res α).andThen k = .raise c info s := rfl

@[simp] theorem Res.andThen_stop {α β : Type} (f : Fault) (k : α → State → Res β) :
    (Res.stop f : Res α).andThen k = .stop f := rfl

@[simp] theorem Res.answer_ok {α : Type} (a : α) (s : State) (stat : α → Stat) (val : α → Word) :
    (Res.ok a s).answer stat val = .next (s.respond (stat a) (val a)) := rfl

@[simp] theorem Res.answer_raise {α : Type} (c : FaultCode) (info : Word) (s : State) (stat : α → Stat) (val : α → Word) :
    (Res.raise c info s).answer stat val = .next (s.raise c info) := rfl

@[simp] theorem Res.answer_stop {α : Type} (f : Fault) (stat : α → Stat) (val : α → Word) :
    (Res.stop f).answer stat val = .fault f := rfl

/-- What a command's end can be when it answers a next state: the helper's value was answered, or its fault was taken. -/
theorem Res.answer_next {α : Type} {r : Res α} {stat : α → Stat} {val : α → Word} {t : State}
    (h : r.answer stat val = .next t) :
    (∃ a s, r = .ok a s ∧ t = s.respond (stat a) (val a)) ∨ (∃ c info s, r = .raise c info s ∧ t = s.raise c info) := by
  cases r with
  | ok a s => exact .inl ⟨a, s, rfl, (Host.Outcome.next.inj h).symm⟩
  | raise c info s => exact .inr ⟨c, info, s, rfl, (Host.Outcome.next.inj h).symm⟩
  | stop f => exact absurd h (by simp)

/-- A helper that goes on and ends with a value ended its first part with one. -/
theorem Res.andThen_eq_ok {α β : Type} {r : Res α} {k : α → State → Res β} {b : β} {t : State}
    (h : r.andThen k = .ok b t) : ∃ a s, r = .ok a s ∧ k a s = .ok b t := by
  cases r with
  | ok a s => exact ⟨a, s, rfl, h⟩
  | raise c info s => exact absurd h (by simp)
  | stop f => exact absurd h (by simp)

/-- A legal command with no fault recorded runs its own pseudocode. -/
@[simp] theorem issue_run {i : Instr} {s : State} (body : Outcome) (he : s.err = 0) (hw : i.wellFormed = true) :
    issue i s body = body := by
  simp [issue, he, hw]

/-- RESET and GETREG run whatever ERR holds. -/
theorem issue_exempt {i : Instr} {s : State} (body : Outcome) (hp : Instr.passesGate i = true)
    (hw : i.wellFormed = true) : issue i s body = body := by
  simp [issue, hp, hw]

/-- The sticky-fault gate. -/
theorem issue_sticky {i : Instr} {s : State} (body : Outcome) (he : s.err ≠ 0) (hp : Instr.passesGate i = false) :
    issue i s body = .next s.refuseSticky :=
  if_pos ⟨he, hp⟩

/-- An illegal command with no fault recorded. -/
theorem issue_illegal {i : Instr} {s : State} (body : Outcome) (he : s.err = 0) (hw : i.wellFormed = false) :
    issue i s body = .next (s.raise .illegalCommand i.headInfo) := by
  simp [issue, he, hw]

/-- Everything the order of checks can do: refuse, raise ILLEGAL_COMMAND, or run the body. -/
theorem issue_cases (i : Instr) (s : State) (body : Outcome) :
    (issue i s body = .next s.refuseSticky ∧ s.err ≠ 0 ∧ Instr.passesGate i = false) ∨
    (issue i s body = .next (s.raise .illegalCommand i.headInfo) ∧ i.wellFormed = false) ∨
    (issue i s body = body ∧ i.wellFormed = true ∧ (s.err = 0 ∨ Instr.passesGate i = true)) := by
  unfold issue
  split
  · rename_i h
    exact .inl ⟨rfl, h.1, h.2⟩
  · rename_i h
    cases hw : i.wellFormed with
    | false => exact .inr (.inl ⟨by simp, rfl⟩)
    | true =>
      refine .inr (.inr ⟨by simp, rfl, ?_⟩)
      by_cases he : s.err = 0
      · exact .inl he
      · right
        cases hp : Instr.passesGate i with
        | true => rfl
        | false => exact absurd ⟨he, hp⟩ h

@[simp] theorem State.refuseSticky_rsp (s : State) : s.refuseSticky.rsp = some ⟨.errSticky, s.err.setWidth 64⟩ := rfl

/-- The sticky-fault gate changes nothing but the response. -/
theorem State.refuseSticky_eq (s : State) : s.refuseSticky = { s with rsp := s.refuseSticky.rsp } := rfl

/-- An answer changes nothing but the response. -/
theorem State.respond_eq (s : State) (stat : Stat) (val : Word) : s.respond stat val = { s with rsp := some ⟨stat, val⟩ } := rfl

/-- Every fault code is one of 0x81 to 0x8A (R63). -/
theorem FaultCode.code_range (c : FaultCode) : 0x81 ≤ c.code.toNat ∧ c.code.toNat ≤ 0x8A := by cases c <;> decide

theorem FaultCode.code_ne_zero (c : FaultCode) : c.code ≠ 0 := by cases c <;> decide

/-- A fault changes nothing but ERR, EINFO and the response (R203). -/
theorem State.raise_eq (s : State) (c : FaultCode) (info : Word) :
    s.raise c info = { s with
      err := (if s.err = 0 then c.code else s.err), einfo := (if s.err = 0 then info else s.einfo), rsp := some ⟨.fault c, info⟩ } := by
  unfold State.raise State.latch
  split <;> rfl

end Sys2Proof.Machine
end

