-- ==== Sys2Proof/Laws/Operands.lean ====
section
/-! SUPPORT. The bit cursor: what `getBits`, `put` and `flushPad` can do, said once, with the bits read and written (spec R40, R41,
R44, R81 to R83). -/

namespace Sys2Proof.Machine

/-! ## Values and bit strings -/

@[simp] theorem msbFirst_length (v : Word) (n : Nat) : (msbFirst v n).length = n := by
  induction n with
  | zero => rfl
  | succ n ih => simp [msbFirst, ih]

/-- The bits WRBITS appends are the low `n` bits, most significant first (R41). -/
theorem msbFirst_eq_valueBits (v : Word) (n : Nat) : msbFirst v n = valueBits v n := by
  induction n with
  | zero => rfl
  | succ n ih =>
    rw [msbFirst, ih, valueBits, valueBits, List.range_succ_eq_map, List.map_cons, List.map_map]
    refine congrArg₂ List.cons (by simp) (List.map_congr_left fun k _ => ?_)
    simp only [Function.comp]
    congr 1
    omega

@[simp] theorem valueBits_length (v : Word) (n : Nat) : (valueBits v n).length = n := by simp [valueBits]

@[simp] theorem State.inCode_length (s : State) (q n : Nat) : (s.inCode q n).length = n := by simp [State.inCode]

@[simp] theorem State.pending_length (s : State) : s.pending.length = s.wbit.toNat := by simp [State.pending]

theorem State.inCode_succ (s : State) (q n : Nat) : s.inCode q (n + 1) = s.inBit q :: s.inCode (q + 1) n := by
  rw [State.inCode, List.range_succ_eq_map, List.map_cons, List.map_map]
  refine congrArg₂ List.cons rfl (List.map_congr_left fun k _ => ?_)
  simp only [Function.comp]
  congr 1
  omega

theorem State.inCode_add (s : State) (q m n : Nat) : s.inCode q (m + n) = s.inCode q m ++ s.inCode (q + m) n := by
  simp only [State.inCode, List.range_add, List.map_append, List.map_map]
  congr 1
  exact List.map_congr_left fun k _ => by simp [Nat.add_assoc]

/-- The loop of `getBits` reads the number of the input bits (R41, R81). -/
theorem State.inValue_eq (s : State) (q n v : Nat) :
    s.inValue q n v = (s.inCode q n).foldl (fun v b => 2 * v + b.toNat) v := by
  induction n generalizing q v with
  | zero => rfl
  | succ n ih => rw [State.inValue, ih, State.inCode_succ, List.foldl_cons]

/-- A bit string of `n` bits is a number below `2^n`. -/
theorem foldl_bits_lt (c : Code) (v : Nat) :
    c.foldl (fun v b => 2 * v + b.toNat) v < (v + 1) * 2 ^ c.length := by
  induction c generalizing v with
  | nil => simp
  | cons b c ih =>
    refine Nat.lt_of_lt_of_le (ih _) ?_
    rw [List.length_cons, Nat.pow_succ, ← Nat.mul_assoc, Nat.mul_right_comm]
    refine Nat.mul_le_mul_right _ ?_
    cases b <;> simp <;> omega

theorem bitsNat_lt (c : Code) : bitsNat c < 2 ^ c.length := by
  simpa [bitsNat] using foldl_bits_lt c 0

/-! ## The read side -/

/-- The input bits depend on IN alone. -/
theorem State.inBit_congr {s t : State} (h : s.inMem = t.inMem) (q : Nat) : s.inBit q = t.inBit q := by
  simp only [State.inBit, State.inByte_congr h]

theorem State.inCode_congr {s t : State} (h : s.inMem = t.inMem) (q n : Nat) : s.inCode q n = t.inCode q n := by
  simp only [State.inCode, State.inBit_congr h]

/-- A position below a 61-bit byte address can be held by the read cursor. -/
theorem State.readPos_setReadPos (s : State) (q : Nat) (h : q / 8 < 2 ^ 61) : (s.setReadPos q).readPos = q := by
  simp only [State.readPos, State.setReadPos_rbyte, State.setReadPos_rbit, BitVec.toNat_ofNat]
  rw [Nat.mod_eq_of_lt h]
  omega

/-- Everything `getBits` can do: read and advance, raise READ_UNDERRUN with nothing changed, or stop at an absent byte. -/
theorem getBits_cases (n : Nat) (s : State) :
    (getBits n s = .ok (BitVec.ofNat 64 (bitsNat (s.inCode s.readPos n))) (s.setReadPos (s.readPos + n)) ∧
      s.hasMore n = true ∧ (s.readPos + n - 1) / 8 < s.size.inSize.val) ∨
    (getBits n s = .raise .readUnderrun 0 s ∧ s.hasMore n = false) ∨
    (getBits n s = .stop (.noInByte ((s.readPos + n - 1) / 8)) ∧ s.hasMore n = true ∧
      s.size.inSize.val ≤ (s.readPos + n - 1) / 8) := by
  unfold getBits
  cases hm : s.hasMore n with
  | false => exact .inr (.inl ⟨by simp, rfl⟩)
  | true =>
    by_cases hi : (s.readPos + n - 1) / 8 < s.size.inSize.val
    · refine .inl ⟨?_, rfl, hi⟩
      simp [hi, State.inValue_eq, bitsNat]
    · exact .inr (.inr ⟨by simp [hi], rfl, by omega⟩)

theorem State.hasMore_iff (s : State) (n : Nat) : s.hasMore n = true ↔ s.readPos + n ≤ 8 * s.rlim.toNat := by
  simp [State.hasMore]

/-- Where bits are left and RLIM is legal, `getBits` reads them. -/
theorem getBits_ok {n : Nat} {s : State} (hn : 1 ≤ n) (hm : s.readPos + n ≤ 8 * s.rlim.toNat)
    (hr : s.rlim.toNat ≤ s.size.inSize.val) :
    getBits n s = .ok (BitVec.ofNat 64 (bitsNat (s.inCode s.readPos n))) (s.setReadPos (s.readPos + n)) := by
  rcases getBits_cases n s with ⟨h, -, -⟩ | ⟨-, h⟩ | ⟨-, -, h⟩
  · exact h
  · rw [← Bool.not_eq_true, State.hasMore_iff] at h
    exact absurd hm h
  · omega

/-- One bit read. -/
theorem getBits_one {s : State} (hm : s.readPos + 1 ≤ 8 * s.rlim.toNat) (hr : s.rlim.toNat ≤ s.size.inSize.val) :
    getBits 1 s = .ok (BitVec.ofNat 64 (s.inBit s.readPos).toNat) (s.setReadPos (s.readPos + 1)) := by
  rw [getBits_ok (Nat.le_refl 1) hm hr]
  simp [bitsNat, State.inCode]

/-- The position after a read that stays below RLIM is held by the cursor. -/
theorem State.readPos_advance {s : State} {n : Nat} (hm : s.readPos + n ≤ 8 * s.rlim.toNat) :
    (s.setReadPos (s.readPos + n)).readPos = s.readPos + n := by
  have := s.rlim.isLt
  exact State.readPos_setReadPos _ _ (by omega)

/-! ## The write side -/

@[simp] theorem putBits_nil (s : State) : s.putBits [] = s := rfl

@[simp] theorem putBits_cons (s : State) (b : Bool) (c : Code) : s.putBits (b :: c) = (s.putBit b).putBits c := rfl

theorem putBits_append (s : State) (c d : Code) : s.putBits (c ++ d) = (s.putBits c).putBits d := by
  induction c generalizing s with
  | nil => rfl
  | cons b c ih => simp [ih]

/-- `put`'s loop touches the write side alone. -/
theorem putBit_eq (s : State) (b : Bool) :
    s.putBit b = { s with
      wbyte := (s.putBit b).wbyte, wbit := (s.putBit b).wbit, wacc := (s.putBit b).wacc, outMem := (s.putBit b).outMem } := by
  unfold State.putBit
  split <;> rfl

theorem putBits_eq (s : State) (c : Code) :
    s.putBits c = { s with
      wbyte := (s.putBits c).wbyte, wbit := (s.putBits c).wbit, wacc := (s.putBits c).wacc,
      outMem := (s.putBits c).outMem } := by
  induction c generalizing s with
  | nil => rfl
  | cons b c ih =>
    rw [putBits_cons]
    have h := ih (s.putBit b)
    rw [putBit_eq] at h ⊢
    exact h

@[simp] theorem putBits_symw (s : State) (c : Code) : (s.putBits c).symw = s.symw := by rw [putBits_eq]
@[simp] theorem putBits_rbyte (s : State) (c : Code) : (s.putBits c).rbyte = s.rbyte := by rw [putBits_eq]
@[simp] theorem putBits_rbit (s : State) (c : Code) : (s.putBits c).rbit = s.rbit := by rw [putBits_eq]
@[simp] theorem putBits_rlim (s : State) (c : Code) : (s.putBits c).rlim = s.rlim := by rw [putBits_eq]
@[simp] theorem putBits_wlim (s : State) (c : Code) : (s.putBits c).wlim = s.wlim := by rw [putBits_eq]
@[simp] theorem putBits_root (s : State) (c : Code) : (s.putBits c).root = s.root := by rw [putBits_eq]
@[simp] theorem putBits_tcur (s : State) (c : Code) : (s.putBits c).tcur = s.tcur := by rw [putBits_eq]
@[simp] theorem putBits_naddr (s : State) (c : Code) : (s.putBits c).naddr = s.naddr := by rw [putBits_eq]
@[simp] theorem putBits_ncnt (s : State) (c : Code) : (s.putBits c).ncnt = s.ncnt := by rw [putBits_eq]
@[simp] theorem putBits_flags (s : State) (c : Code) : (s.putBits c).flags = s.flags := by rw [putBits_eq]
@[simp] theorem putBits_err (s : State) (c : Code) : (s.putBits c).err = s.err := by rw [putBits_eq]
@[simp] theorem putBits_einfo (s : State) (c : Code) : (s.putBits c).einfo = s.einfo := by rw [putBits_eq]
@[simp] theorem putBits_inMem (s : State) (c : Code) : (s.putBits c).inMem = s.inMem := by rw [putBits_eq]
@[simp] theorem putBits_nodeMem (s : State) (c : Code) : (s.putBits c).nodeMem = s.nodeMem := by rw [putBits_eq]
@[simp] theorem putBits_size (s : State) (c : Code) : (s.putBits c).size = s.size := by rw [putBits_eq]
@[simp] theorem putBits_script (s : State) (c : Code) : (s.putBits c).script = s.script := by rw [putBits_eq]
@[simp] theorem putBits_rsp (s : State) (c : Code) : (s.putBits c).rsp = s.rsp := by rw [putBits_eq]

/-- WACC with one more bit: bit `7 − WBIT` becomes the bit, the others stay (R82). -/
theorem accBit (acc : BitVec 8) (w : Nat) (b : Bool) (hw : w ≤ 7) (hc : ∀ j, j < 8 - w → acc.getLsbD j = false) (j : Nat)
    (hj : j < 8) :
    (acc ||| ((BitVec.ofBool b).setWidth 8 <<< (7 - w))).getLsbD j =
      if j = 7 - w then b else acc.getLsbD j := by
  rw [BitVec.getLsbD_or, BitVec.getLsbD_shiftLeft]
  by_cases h1 : j = 7 - w
  · subst h1
    rw [hc _ (by omega)]
    simp [hj]
  · by_cases h2 : j < 7 - w
    · simp [h1, h2]
    · have h3 : j - (7 - w) ≠ 0 := by omega
      have h4 : j - (7 - w) < 8 := by omega
      simp [h1, h2, h3]

/-- Nothing appended. -/
theorem appended_nil {s : State} (hc : s.AccClear) : Appended s s [] := by
  have hw := s.wbit.isLt
  have h0 : s.bytesFor 0 = 0 := by
    simp only [State.bytesFor]
    omega
  refine ⟨by simp [h0], by simp [h0], hc, fun k hk => ?_, fun a _ => rfl⟩
  simp [h0] at hk

/-- One bit appended (R82). -/
theorem appended_putBit {s : State} (b : Bool) (hc : s.AccClear) (hb : s.wbyte.toNat + s.bytesFor 1 < 2 ^ 61) :
    Appended s (s.putBit b) [b] := by
  have hw := s.wbit.isLt
  unfold State.putBit
  by_cases h7 : s.wbit.toNat + 1 = 8
  · have hn : s.bytesFor 1 = 1 := by simp [State.bytesFor, h7]
    have hp : s.wbit.toNat = 7 := by omega
    rw [hn] at hb
    simp only [h7, if_true]
    refine ⟨?_, ?_, ?_, ?_, ?_⟩
    · simp [hn, BitVec.toNat_add]
      omega
    · have : (s.pending ++ [b]).length = 8 := by simp [hp]
      rw [List.length_singleton, hn, List.drop_eq_nil_of_le (by omega)]
      simp [State.pending]
    · intro j hj
      simp
    · intro k hk
      simp only [List.length_singleton, hn] at hk
      have hk0 : k / 8 = 0 := by omega
      have hk1 : k % 8 = k := by omega
      rw [hk0, hk1, Nat.add_zero, State.outByte_congr (State.setWrite_outMem _ _ _ _), State.outByte_storeOut, if_pos rfl,
        accBit _ _ _ (by omega) hc _ (by omega), hp]
      by_cases h : k = 7
      · subst h
        simp [State.pending, hp, List.getD]
      · have hk2 : k < 7 := by omega
        simp [State.pending, hp, List.getD, List.getElem?_append, hk2]
        omega
    · intro a ha
      simp only [List.length_singleton, hn] at ha
      rw [State.outByte_congr (State.setWrite_outMem _ _ _ _), State.outByte_storeOut, if_neg (by omega)]
  · have hn : s.bytesFor 1 = 0 := by
      simp only [State.bytesFor]
      omega
    have hlt : s.wbit.toNat < 7 := by omega
    simp only [h7, if_false]
    have hbit : (s.wbit + 1).toNat = s.wbit.toNat + 1 := by
      rw [BitVec.toNat_add]
      have : (1 : BitVec 3).toNat = 1 := rfl
      omega
    refine ⟨by simp [hn], ?_, ?_, ?_, fun a _ => by simp [State.outByte]⟩
    · simp only [List.length_singleton, hn, Nat.mul_zero, List.drop_zero]
      simp only [State.pending, State.setWrite_wbit, State.setWrite_wacc, hbit]
      rw [List.range_succ, List.map_append]
      congr 1
      · refine List.map_congr_left fun k hk => ?_
        have hk' := List.mem_range.1 hk
        rw [accBit _ _ _ (by omega) hc _ (by omega), if_neg (by omega)]
      · simp only [List.map_cons, List.map_nil]
        rw [accBit _ _ _ (by omega) hc _ (by omega), if_pos rfl]
    · intro j hj
      simp only [State.setWrite_wbit, hbit] at hj
      simp only [State.setWrite_wacc]
      rw [accBit _ _ _ (by omega) hc _ (by omega), if_neg (by omega)]
      exact hc j (by omega)
    · intro k hk
      simp [hn] at hk

/-- Appending one bit string after another. -/
theorem appended_trans {s t u : State} {c d : Code} (h1 : Appended s t c) (h2 : Appended t u d) : Appended s u (c ++ d) := by
  obtain ⟨ha, hb, -, hd, he⟩ := h1
  obtain ⟨ha', hb', hc', hd', he'⟩ := h2
  have hw := s.wbit.isLt
  have hl : t.wbit.toNat = s.wbit.toNat + c.length - 8 * s.bytesFor c.length := by
    have := congrArg List.length hb
    simpa [Nat.add_comm] using this
  have hn : s.bytesFor (c ++ d).length = s.bytesFor c.length + t.bytesFor d.length := by
    simp only [State.bytesFor, hl, List.length_append]
    omega
  have hle : 8 * s.bytesFor c.length ≤ (s.pending ++ c).length := by
    simp only [State.bytesFor, List.length_append, State.pending_length]
    omega
  have hstr : t.pending ++ d = (s.pending ++ (c ++ d)).drop (8 * s.bytesFor c.length) := by
    rw [hb, ← List.append_assoc, List.drop_append_of_le_length hle]
  refine ⟨by omega, ?_, hc', fun k hk => ?_, fun a h => ?_⟩
  · rw [hb', hstr, List.drop_drop, hn, Nat.mul_add]
  · rw [hn] at hk
    by_cases hk1 : k < 8 * s.bytesFor c.length
    · have h8 : k / 8 < s.bytesFor c.length := by omega
      rw [he' _ (.inl (by omega)), hd k hk1, ← List.append_assoc]
      simp only [List.getD, List.getElem?_append_left (Nat.lt_of_lt_of_le hk1 hle)]
    · have h1 := hd' (k - 8 * s.bytesFor c.length) (by omega)
      have h2 : t.wbyte.toNat + (k - 8 * s.bytesFor c.length) / 8 = s.wbyte.toNat + k / 8 := by omega
      have h3 : (k - 8 * s.bytesFor c.length) % 8 = k % 8 := by omega
      rw [h2, h3, hstr] at h1
      rw [h1]
      simp only [List.getD, List.getElem?_drop]
      congr 2
      omega
  · rw [hn] at h
    rw [he' a (by omega), he a (by omega)]

/-- `put`'s loop appends its bit string (R82). -/
theorem appended_putBits {s : State} (c : Code) (hc : s.AccClear) (hb : s.wbyte.toNat + s.bytesFor c.length < 2 ^ 61) :
    Appended s (s.putBits c) c := by
  induction c generalizing s with
  | nil => exact appended_nil hc
  | cons b c ih =>
    have hmono : s.bytesFor 1 ≤ s.bytesFor (b :: c).length := by
      simp only [State.bytesFor, List.length_cons]
      omega
    have h1 := appended_putBit b hc (by omega)
    have hl : (s.putBit b).wbit.toNat = s.wbit.toNat + 1 - 8 * s.bytesFor 1 := by
      have := congrArg List.length h1.2.1
      simpa using this
    have h2 : (s.putBit b).wbyte.toNat + (s.putBit b).bytesFor c.length < 2 ^ 61 := by
      have h3 : (s.putBit b).wbyte.toNat = s.wbyte.toNat + s.bytesFor 1 := h1.1
      rw [h3]
      simp only [State.bytesFor, List.length_cons] at hb hl ⊢
      omega
    have := appended_trans h1 (ih h1.2.2.1 h2)
    simpa using this

/-- Whatever WACC holds, `put`'s loop moves the write cursor by the bytes it completes and stores to no other byte. -/
theorem putBits_moves (c : Code) {s : State} (hb : s.wbyte.toNat + s.bytesFor c.length < 2 ^ 61) :
    (s.putBits c).wbyte.toNat = s.wbyte.toNat + s.bytesFor c.length ∧
    (s.putBits c).wbit.toNat = s.wbit.toNat + c.length - 8 * s.bytesFor c.length ∧
    ∀ a, a < s.wbyte.toNat ∨ s.wbyte.toNat + s.bytesFor c.length ≤ a → (s.putBits c).outByte a = s.outByte a := by
  induction c generalizing s with
  | nil =>
    have hw := s.wbit.isLt
    have h0 : s.bytesFor 0 = 0 := by
      simp only [State.bytesFor]
      omega
    simp [h0]
  | cons b c ih =>
    have hw := s.wbit.isLt
    rw [putBits_cons]
    simp only [State.bytesFor, List.length_cons] at hb ⊢
    by_cases h8 : s.wbit.toNat + 1 = 8
    · have hp : s.putBit b = (s.storeOut s.wbyte.toNat
          (s.wacc ||| ((BitVec.ofBool b).setWidth 8 <<< (7 - s.wbit.toNat)))).setWrite (s.wbyte + 1) 0 0 := if_pos h8
      have h1 : (s.putBit b).wbyte.toNat = s.wbyte.toNat + 1 := by
        rw [hp, State.setWrite_wbyte, BitVec.toNat_add]
        have : (1 : BitVec 61).toNat = 1 := rfl
        omega
      have h2 : (s.putBit b).wbit.toNat = 0 := by rw [hp]; rfl
      have h3 := ih (s := s.putBit b) (by simp only [State.bytesFor, h1, h2]; omega)
      simp only [State.bytesFor, h1, h2] at h3
      refine ⟨by omega, by omega, fun a ha => ?_⟩
      rw [h3.2.2 a (by omega), hp, State.outByte_congr (State.setWrite_outMem _ _ _ _), State.outByte_storeOut, if_neg (by omega)]
    · have hp : s.putBit b = s.setWrite s.wbyte (s.wbit + 1)
          (s.wacc ||| ((BitVec.ofBool b).setWidth 8 <<< (7 - s.wbit.toNat))) := if_neg h8
      have h1 : (s.putBit b).wbyte.toNat = s.wbyte.toNat := by rw [hp, State.setWrite_wbyte]
      have h2 : (s.putBit b).wbit.toNat = s.wbit.toNat + 1 := by
        rw [hp, State.setWrite_wbit, BitVec.toNat_add]
        have : (1 : BitVec 3).toNat = 1 := rfl
        omega
      have h3 := ih (s := s.putBit b) (by simp only [State.bytesFor, h1, h2]; omega)
      simp only [State.bytesFor, h1, h2] at h3
      refine ⟨by omega, by omega, fun a ha => ?_⟩
      rw [h3.2.2 a (by omega), hp, State.outByte_congr (State.setWrite_outMem _ _ _ _)]

/-- `put`'s loop keeps the canonical form of OUT. -/
theorem putBits_wf (c : Code) {s : State} (h : Memory.wf (w := 8) s.outMem = true) :
    Memory.wf (w := 8) (s.putBits c).outMem = true := by
  induction c generalizing s with
  | nil => exact h
  | cons b c ih =>
    refine ih ?_
    unfold State.putBit
    split
    · exact Memory.wf_store _ _ _ h
    · exact h

/-- `put`'s loop stores below the end of the bytes it completes. -/
theorem putBits_within {n : Nat} (c : Code) {s : State} (hc : s.AccClear) (hb : s.wbyte.toNat + s.bytesFor c.length < 2 ^ 61)
    (hn : s.bytesFor c.length = 0 ∨ s.wbyte.toNat + s.bytesFor c.length ≤ n) (h : Memory.within (w := 8) n s.outMem = true) :
    Memory.within (w := 8) n (s.putBits c).outMem = true := by
  induction c generalizing s with
  | nil => exact h
  | cons b c ih =>
    have hw := s.wbit.isLt
    have hmono : s.bytesFor 1 ≤ s.bytesFor (b :: c).length := by
      simp only [State.bytesFor, List.length_cons]
      omega
    have h1 := appended_putBit b hc (by omega)
    have hl : (s.putBit b).wbit.toNat = s.wbit.toNat + 1 - 8 * s.bytesFor 1 := by
      have := congrArg List.length h1.2.1
      simpa using this
    have h3 : (s.putBit b).wbyte.toNat = s.wbyte.toNat + s.bytesFor 1 := h1.1
    have h4 : (s.putBit b).bytesFor c.length = s.bytesFor (b :: c).length - s.bytesFor 1 := by
      simp only [State.bytesFor, List.length_cons] at hl ⊢
      omega
    refine ih h1.2.2.1 (by omega) (by omega) ?_
    unfold State.putBit
    split
    · rename_i h8
      have : s.bytesFor 1 = 1 := by simp [State.bytesFor, h8]
      exact Memory.within_store _ _ _ _ (by omega) h
    · exact h

/-- What fits can be held by the write cursor. -/
theorem State.fits_lt {s : State} {n : Nat} (h : s.Fits n) : s.wbyte.toNat + s.bytesFor n < 2 ^ 61 := by
  have := s.wlim.isLt
  have := s.wbyte.isLt
  rcases h with h | h <;> omega

/-- Everything `put` can do: append, raise WRITE_OVERRUN with nothing changed, or stop at an absent byte. -/
theorem put_cases (c : Code) (s : State) :
    (put c s = .ok () (s.putBits c) ∧ s.Fits c.length ∧
      (s.bytesFor c.length = 0 ∨ s.wbyte.toNat + s.bytesFor c.length ≤ s.size.outSize.val)) ∨
    (put c s = .raise .writeOverrun 0 s ∧ ¬ s.Fits c.length) ∨
    (∃ a, put c s = .stop (.noOutByte a) ∧ s.Fits c.length ∧ s.size.outSize.val < s.wlim.toNat) := by
  have hd : put c s = if s.bytesFor c.length = 0 then .ok () (s.putBits c)
      else if s.wlim.toNat < s.wbyte.toNat + s.bytesFor c.length then .raise .writeOverrun 0 s
      else if s.size.outSize.val < s.wbyte.toNat + s.bytesFor c.length then
        .stop (.noOutByte (s.wbyte.toNat + s.bytesFor c.length - 1))
      else .ok () (s.putBits c) := rfl
  rw [hd]
  unfold State.Fits
  by_cases h0 : s.bytesFor c.length = 0
  · exact .inl ⟨by simp [h0], .inl h0, .inl h0⟩
  · by_cases h1 : s.wlim.toNat < s.wbyte.toNat + s.bytesFor c.length
    · exact .inr (.inl ⟨by simp [h0, h1], by omega⟩)
    · by_cases h2 : s.size.outSize.val < s.wbyte.toNat + s.bytesFor c.length
      · exact .inr (.inr ⟨_, by rw [if_neg h0, if_neg h1, if_pos h2], by omega, by omega⟩)
      · exact .inl ⟨by simp [h0, h1, h2], by omega, by omega⟩

/-- Where the bytes fit and WLIM is legal, `put` appends. -/
theorem put_ok {c : Code} {s : State} (hf : s.Fits c.length) (hl : s.wlim.toNat ≤ s.size.outSize.val) :
    put c s = .ok () (s.putBits c) := by
  rcases put_cases c s with ⟨h, -⟩ | ⟨-, h⟩ | ⟨a, -, -, h⟩
  · exact h
  · exact absurd hf h
  · omega

theorem put_overrun {c : Code} {s : State} (hf : ¬ s.Fits c.length) : put c s = .raise .writeOverrun 0 s := by
  rcases put_cases c s with ⟨-, h, -⟩ | ⟨h, -⟩ | ⟨a, -, h, -⟩
  · exact absurd h hf
  · exact h
  · exact absurd h hf

/-- Everything `flushPad` can do (R83). -/
theorem flushPad_cases (s : State) :
    (flushPad s = .ok 0 s ∧ s.wbit = 0) ∨
    (flushPad s = .ok 1 ((s.storeOut s.wbyte.toNat s.wacc).setWrite (s.wbyte + 1) 0 0) ∧ s.wbit ≠ 0 ∧
      s.wbyte.toNat < s.wlim.toNat ∧ s.wbyte.toNat < s.size.outSize.val) ∨
    (flushPad s = .raise .writeOverrun 0 s ∧ s.wbit ≠ 0 ∧ s.wlim.toNat ≤ s.wbyte.toNat) ∨
    (flushPad s = .stop (.noOutByte s.wbyte.toNat) ∧ s.size.outSize.val < s.wlim.toNat) := by
  unfold flushPad
  by_cases h0 : s.wbit = 0
  · exact .inl ⟨if_pos h0, h0⟩
  · by_cases h1 : s.wlim.toNat ≤ s.wbyte.toNat
    · exact .inr (.inr (.inl ⟨by rw [if_neg h0, if_pos h1], h0, h1⟩))
    · by_cases h2 : s.size.outSize.val ≤ s.wbyte.toNat
      · exact .inr (.inr (.inr ⟨by rw [if_neg h0, if_neg h1, if_pos h2], by omega⟩))
      · exact .inr (.inl ⟨by rw [if_neg h0, if_neg h1, if_neg h2], h0, by omega, by omega⟩)

/-- `flushPad` leaves what appending the zero bits to the next byte boundary leaves (R66, R83). -/
theorem flushPad_eq_putBits {s : State} (hc : s.AccClear) (h0 : s.wbit ≠ 0) :
    (s.storeOut s.wbyte.toNat s.wacc).setWrite (s.wbyte + 1) 0 0 = s.putBits (padding s.wbit.toNat) := by
  have key : ∀ (n : Nat) (s : State), s.AccClear → s.wbit.toNat + n = 8 → n ≠ 0 →
      s.putBits (List.replicate n false) = (s.storeOut s.wbyte.toNat s.wacc).setWrite (s.wbyte + 1) 0 0 := by
    intro n
    induction n with
    | zero => intro s _ _ h; exact absurd rfl h
    | succ n ih =>
      intro s hc hn _
      have hz : ((BitVec.ofBool false).setWidth 8 : BitVec 8) <<< (7 - s.wbit.toNat) = 0 := by simp
      rw [List.replicate_succ, putBits_cons]
      by_cases hn0 : n = 0
      · subst hn0
        have h8 : s.wbit.toNat + 1 = 8 := by omega
        simp [State.putBit, h8]
      · have h8 : ¬ s.wbit.toNat + 1 = 8 := by omega
        have hs : s.putBit false = s.setWrite s.wbyte (s.wbit + 1) s.wacc := by
          simp [State.putBit, h8]
        have hbit : (s.wbit + 1).toNat = s.wbit.toNat + 1 := by
          rw [BitVec.toNat_add]
          have : (1 : BitVec 3).toNat = 1 := rfl
          omega
        have hc' : (s.setWrite s.wbyte (s.wbit + 1) s.wacc).AccClear := fun j hj =>
          hc j (by simp only [State.setWrite_wbit, hbit] at hj; omega)
        have h9 : (s.setWrite s.wbyte (s.wbit + 1) s.wacc).wbit.toNat + n = 8 := by
          simp only [State.setWrite_wbit, hbit]
          omega
        rw [hs, ih _ hc' h9 hn0]
        rfl
  have hw := s.wbit.isLt
  have hne : s.wbit.toNat ≠ 0 := fun h => h0 (BitVec.eq_of_toNat_eq (by simpa using h))
  have hp : padding s.wbit.toNat = List.replicate (8 - s.wbit.toNat) false := by
    unfold padding
    congr 1
    omega
  rw [hp, key _ s hc (by omega) (by omega)]

end Sys2Proof.Machine
end

