-- ==== Sys2Proof/Laws/Tree.lean ====
section
/-! SUPPORT. The tree: what `descend`, `descendInput` and `search` can do, said once, and the paths of the tree (spec R28, R100,
R101, R120). -/

namespace Sys2Proof.Machine

/-! ## The tree is a function of NODE and NCNT -/

theorem State.kind_congr {s t : State} (h : s.nodeMem = t.nodeMem) (i : Nat) : s.kind i = t.kind i := by
  simp only [State.kind, State.nodeWord_congr h]

theorem State.payload_congr {s t : State} (h : s.nodeMem = t.nodeMem) (i : Nat) : s.payload i = t.payload i := by
  simp only [State.payload, State.nodeWord_congr h]

theorem State.child_congr {s t : State} (h : s.nodeMem = t.nodeMem) (i : Nat) (b : Bool) : s.child i b = t.child i b := by
  simp only [State.child, State.payload_congr h]

theorem State.walk_congr {s t : State} (h : s.nodeMem = t.nodeMem) (hn : s.ncnt = t.ncnt) (i : Nat) (c : Code) :
    s.walk i c = t.walk i c := by
  induction c generalizing i with
  | nil => rfl
  | cons b c ih => simp only [State.walk, State.kind_congr h, State.child_congr h, hn, ih]

theorem search_congr {s t : State} (h : s.nodeMem = t.nodeMem) (hn : s.ncnt = t.ncnt) (k i : Nat) (path : Code)
    (seen : List Visit) : search s k i path seen = search t k i path seen := by
  induction k generalizing i path seen with
  | zero => rfl
  | succ k ih => simp only [search, State.kind_congr h, State.child_congr h, State.payload_congr h, hn, ih]

theorem reachedNodes_congr {s t : State} (h : s.nodeMem = t.nodeMem) (hn : s.ncnt = t.ncnt) (hr : s.root = t.root) :
    reachedNodes s = reachedNodes t := by
  simp only [reachedNodes, hn, hr, search_congr h hn]

theorem codeOf_congr {s t : State} (h : s.nodeMem = t.nodeMem) (hn : s.ncnt = t.ncnt) (hr : s.root = t.root) (v : Word) :
    codeOf s v = codeOf t v := by
  simp only [codeOf, reachedNodes_congr h hn hr]

theorem codeOfEof_congr {s t : State} (h : s.nodeMem = t.nodeMem) (hn : s.ncnt = t.ncnt) (hr : s.root = t.root) :
    codeOfEof s = codeOfEof t := by
  simp only [codeOfEof, reachedNodes_congr h hn hr]

theorem wfTree_congr {s t : State} (h : s.nodeMem = t.nodeMem) (hn : s.ncnt = t.ncnt) (hr : s.root = t.root)
    (hz : s.size = t.size) : wfTree s = wfTree t := by
  simp only [wfTree, reachedNodes_congr h hn hr, State.kind_congr h, hn, hr, hz]

/-! ## Paths -/

/-- A child index is a 32-bit value (R64). -/
theorem State.child_lt (s : State) (i : Nat) (b : Bool) : s.child i b < 2 ^ 32 := by
  unfold State.child
  split <;> exact BitVec.isLt _

/-- Walking a code and then another. -/
theorem State.walk_append (s : State) (i : Nat) (c e : Code) :
    s.walk i (c ++ e) = (s.walk i c).bind fun j => s.walk j e := by
  induction c generalizing i with
  | nil => rfl
  | cons b c ih =>
    simp only [List.cons_append, State.walk]
    split
    · exact ih _
    · rfl

/-- One edge more at the end of a code. -/
theorem State.walk_snoc (s : State) (i d : Nat) (c : Code) (b : Bool) :
    s.walk i (c ++ [b]) = some d ↔
      ∃ j, s.walk i c = some j ∧ s.kind j = .internal ∧ s.child j b < s.ncnt.toNat ∧ d = s.child j b := by
  rw [State.walk_append, Option.bind_eq_some_iff]
  refine exists_congr fun j => and_congr_right fun _ => ?_
  simp only [State.walk]
  split
  · rename_i h
    simp [h, eq_comm]
  · rename_i h
    simp only [reduceCtorEq, false_iff]
    exact fun hc => h ⟨hc.1, hc.2.1⟩

/-- A walk from below NCNT stays below it. -/
theorem State.walk_below {s : State} {i d : Nat} {c : Code} (hi : i < s.ncnt.toNat) (h : s.walk i c = some d) :
    d < s.ncnt.toNat := by
  induction c generalizing i with
  | nil => exact Option.some.inj h ▸ hi
  | cons b c ih =>
    rw [State.walk] at h
    split at h
    · rename_i hc
      exact ih hc.2 h
    · exact absurd h (by simp)

/-! ## One step of the tree cursor (R100) -/

/-- Everything `descend` can do: refuse to move with nothing changed, arrive at the child, or stop at an absent node. -/
theorem descend_cases (b : Bool) (s : State) :
    (descend b s = inconsistent s ∧ s.NoWay s.tcur.toNat b) ∨
    (descend b s = arrive (s.child s.tcur.toNat b) s ∧ s.tcur.toNat < s.ncnt.toNat ∧ s.kind s.tcur.toNat = .internal ∧
      s.child s.tcur.toNat b < s.ncnt.toNat ∧ s.kind (s.child s.tcur.toNat b) ≠ .invalid) ∨
    (∃ a, descend b s = .stop (.noNodeWord a) ∧ s.size.nNodes.val < s.ncnt.toNat) := by
  simp only [descend]
  split
  · exact .inl ⟨rfl, .inl ‹_›⟩
  · split
    · exact .inr (.inr ⟨_, rfl, by omega⟩)
    · split
      · exact .inl ⟨rfl, .inr (.inl ‹_›)⟩
      · split
        · exact .inl ⟨rfl, .inr (.inr (.inl ‹_›))⟩
        · split
          · exact .inr (.inr ⟨_, rfl, by omega⟩)
          · rename_i hk _ _
            cases hd : s.kind (s.child s.tcur.toNat b) with
            | invalid => exact .inl ⟨by simp only [arrive, hd], .inr (.inr (.inr hd))⟩
            | internal => exact .inr (.inl ⟨rfl, by omega, not_not.1 hk, by omega, by simp⟩)
            | leaf => exact .inr (.inl ⟨rfl, by omega, not_not.1 hk, by omega, by simp⟩)
            | eof => exact .inr (.inl ⟨rfl, by omega, not_not.1 hk, by omega, by simp⟩)

/-- Where movement is impossible and NCNT is legal, `descend` changes nothing. -/
theorem descend_noWay {b : Bool} {s : State} (hn : s.ncnt.toNat ≤ s.size.nNodes.val) (h : s.NoWay s.tcur.toNat b) :
    descend b s = inconsistent s := by
  rcases descend_cases b s with ⟨h1, -⟩ | ⟨-, h1, h2, h3, h4⟩ | ⟨a, -, h1⟩
  · exact h1
  · rcases h with h | h | h | h
    · omega
    · exact absurd h2 h
    · omega
    · exact absurd h h4
  · omega

/-- Where the cursor stands on an internal node and the child exists, `descend` arrives there. -/
theorem descend_arrive {b : Bool} {s : State} (hn : s.ncnt.toNat ≤ s.size.nNodes.val) (hc : s.tcur.toNat < s.ncnt.toNat)
    (hk : s.kind s.tcur.toNat = .internal) (hd : s.child s.tcur.toNat b < s.ncnt.toNat) :
    descend b s = arrive (s.child s.tcur.toNat b) s := by
  simp only [descend]
  rw [if_neg (by omega), if_neg (by omega), if_neg (by simp [hk]), if_neg (by omega), if_neg (by omega)]

theorem arrive_internal {d : Nat} {s : State} (h : s.kind d = .internal) :
    arrive d s = .ok .moved (s.setTcur (BitVec.ofNat 32 d)) := by
  simp only [arrive, h]

theorem arrive_leaf {d : Nat} {s : State} (h : s.kind d = .leaf) :
    arrive d s = .ok (.symbol (s.payload d)) (s.setTcur s.root) := by
  simp only [arrive, h]

theorem arrive_eof {d : Nat} {s : State} (h : s.kind d = .eof) :
    arrive d s = .ok .eof (s.setTcur s.root).setEofSeen := by
  simp only [arrive, h]

/-! ## Decoding one symbol (R101) -/

/-- The read cursor and the tree cursor moved together: `n` bits on, at node `d`. -/
def State.descended (s : State) (n d : Nat) : State := (s.setReadPos (s.readPos + n)).setTcur (BitVec.ofNat 32 d)

/-- A cursor put where it stands is unchanged. -/
theorem State.setReadPos_self (s : State) : s.setReadPos s.readPos = s := by
  have h := s.rbit.isLt
  have h1 : BitVec.ofNat 61 (s.readPos / 8) = s.rbyte := by
    apply BitVec.eq_of_toNat_eq
    have := s.rbyte.isLt
    simp only [State.readPos, BitVec.toNat_ofNat]
    omega
  have h2 : BitVec.ofNat 3 (s.readPos % 8) = s.rbit := by
    apply BitVec.eq_of_toNat_eq
    simp only [State.readPos, BitVec.toNat_ofNat]
    omega
  simp only [State.setReadPos, h1, h2]

theorem State.descended_zero (s : State) : s.descended 0 s.tcur.toNat = s := by
  simp only [State.descended, Nat.add_zero, State.setReadPos_self, BitVec.ofNat_toNat, BitVec.setWidth_eq]
  rfl

/-- One turn of the loop where a bit is left: the bit is consumed, then the cursor takes its step. -/
theorem descendInput_bit {s : State} (k : Nat) (hr : s.rlim.toNat ≤ s.size.inSize.val)
    (hm : s.readPos + 1 ≤ 8 * s.rlim.toNat) :
    descendInput (k + 1) s =
      (descend (s.inBit s.readPos) (s.setReadPos (s.readPos + 1))).andThen fun r s1 =>
        match r with
        | .moved => descendInput k s1
        | .symbol v => .ok (.symbol v) s1
        | .eof => .ok .eof s1 := by
  have hb : (BitVec.ofNat 64 (s.inBit s.readPos).toNat).getLsbD 0 = s.inBit s.readPos := by
    cases s.inBit s.readPos <;> rfl
  rw [descendInput, if_pos ((State.hasMore_iff s 1).2 hm), getBits_one hm hr, Res.andThen_ok, hb] <;> rfl

/-- No bit is left: the loop ends. -/
theorem descendInput_end {s : State} (k : Nat) (h : 8 * s.rlim.toNat < s.readPos + 1) : descendInput k s = inputEnds s := by
  cases k with
  | zero => rfl
  | succ k =>
    rw [descendInput, if_neg]
    rw [State.hasMore_iff]
    omega

/-- The loop follows the tree while it meets internal nodes: `n` turns consume `n` bits and lead to the node the bits lead to. -/
theorem descendInput_follow {s : State} (k n d : Nat) (hr : s.rlim.toNat ≤ s.size.inSize.val)
    (hn : s.ncnt.toNat ≤ s.size.nNodes.val) (hm : s.readPos + n ≤ 8 * s.rlim.toNat) (hc : n ≠ 0 → s.tcur.toNat < s.ncnt.toNat)
    (hw : s.walk s.tcur.toNat (s.inCode s.readPos n) = some d) (hk : n ≠ 0 → s.kind d = .internal) :
    descendInput (n + k) s = descendInput k (s.descended n d) := by
  induction n generalizing s with
  | zero =>
    have : s.tcur.toNat = d := by simpa [State.inCode, State.walk] using hw
    rw [← this, State.descended_zero, Nat.zero_add]
  | succ n ih =>
    rw [State.inCode_succ, State.walk] at hw
    split at hw
    · rename_i h
      have hp : (s.setReadPos (s.readPos + 1)).readPos = s.readPos + 1 := State.readPos_advance (by omega)
      have hch := s.child_lt s.tcur.toNat (s.inBit s.readPos)
      have hi : s.kind (s.child s.tcur.toNat (s.inBit s.readPos)) = .internal := by
        cases n with
        | zero =>
          have : s.child s.tcur.toNat (s.inBit s.readPos) = d := by simpa [State.inCode, State.walk] using hw
          rw [this]
          exact hk (by simp)
        | succ n =>
          rw [State.inCode_succ, State.walk] at hw
          split at hw
          · rename_i h1
            exact h1.1
          · exact absurd hw (by simp)
      have hd : descend (s.inBit s.readPos) (s.setReadPos (s.readPos + 1)) =
          .ok .moved (s.descended 1 (s.child s.tcur.toNat (s.inBit s.readPos))) := by
        have h1 := descend_arrive (b := s.inBit s.readPos) (s := s.setReadPos (s.readPos + 1)) hn (hc (by simp)) h.1 h.2
        exact h1.trans (arrive_internal (s := s.setReadPos (s.readPos + 1)) hi)
      have ht : (s.descended 1 (s.child s.tcur.toNat (s.inBit s.readPos))).tcur.toNat =
          s.child s.tcur.toNat (s.inBit s.readPos) := by
        simp only [State.descended, State.setTcur_tcur, BitVec.toNat_ofNat]
        omega
      have hq : (s.descended 1 (s.child s.tcur.toNat (s.inBit s.readPos))).readPos = s.readPos + 1 := hp
      have hnext : (s.descended 1 (s.child s.tcur.toNat (s.inBit s.readPos))).descended n d = s.descended (n + 1) d := by
        rw [State.descended, hq, Nat.add_assoc, Nat.add_comm 1 n]
        rfl
      rw [show n + 1 + k = n + k + 1 by omega, descendInput_bit _ hr (by omega), hd, Res.andThen_ok, ← hnext]
      refine ih hr hn ?_ ?_ ?_ ?_
      · rw [hq]
        exact (by omega : s.readPos + 1 + n ≤ 8 * s.rlim.toNat)
      · rw [ht]
        exact fun _ => h.2
      · rw [hq, ht, State.inCode_congr (s := s.descended 1 _) (t := s) rfl,
          State.walk_congr (s := s.descended 1 _) (t := s) rfl rfl]
        exact hw
      · exact fun _ => (State.kind_congr rfl _).trans (hk (by simp))
    · exact absurd hw (by simp)

/-- The cursor's node after a descent, as a 32-bit index. -/
theorem State.descended_tcur {s : State} {n d : Nat} (h : d < 2 ^ 32) : (s.descended n d).tcur.toNat = d := by
  simp only [State.descended, State.setTcur_tcur, BitVec.toNat_ofNat]
  exact Nat.mod_eq_of_lt h

theorem State.descended_readPos {s : State} {n : Nat} (d : Nat) (hm : s.readPos + n ≤ 8 * s.rlim.toNat) :
    (s.descended n d).readPos = s.readPos + n :=
  State.readPos_advance (s := s) hm

/-- A node that a walk from a 32-bit index leads to is a 32-bit index. -/
theorem State.walk_lt {s : State} {i d : Nat} {c : Code} (hi : i < 2 ^ 32) (h : s.walk i c = some d) : d < 2 ^ 32 := by
  induction c generalizing i with
  | nil => exact Option.some.inj h ▸ hi
  | cons b c ih =>
    rw [State.walk] at h
    split at h
    · exact ih (s.child_lt i b) h
    · exact absurd h (by simp)

/-- The loop arrives: the bits lead, after `n + 1` turns, from the tree cursor to node `d`, and the loop does what arriving there
does. -/
theorem descendInput_arrive {s : State} (k n d : Nat) (hr : s.rlim.toNat ≤ s.size.inSize.val)
    (hn : s.ncnt.toNat ≤ s.size.nNodes.val) (hm : s.readPos + (n + 1) ≤ 8 * s.rlim.toNat) (hc : s.tcur.toNat < s.ncnt.toNat)
    (hw : s.walk s.tcur.toNat (s.inCode s.readPos (n + 1)) = some d) :
    (s.kind d = .leaf → descendInput (n + 1 + k) s =
      .ok (.symbol (s.payload d)) ((s.setReadPos (s.readPos + (n + 1))).setTcur s.root)) ∧
    (s.kind d = .eof → descendInput (n + 1 + k) s =
      .ok .eof ((s.setReadPos (s.readPos + (n + 1))).setTcur s.root).setEofSeen) := by
  rw [State.inCode_add, State.inCode_succ s (s.readPos + n) 0,
    show s.inCode (s.readPos + n + 1) 0 = [] from rfl, State.walk_snoc] at hw
  obtain ⟨j, hj, hk, hd, rfl⟩ := hw
  have hf := descendInput_follow (k + 1) n j hr hn (by omega) (fun _ => hc) hj (fun _ => hk)
  have hp := s.descended_readPos (n := n) j (by omega)
  have hjt := s.descended_tcur (n := n) (State.walk_lt (by omega) hj)
  have hjn : j < s.ncnt.toNat := by
    rcases List.eq_nil_or_concat (s.inCode s.readPos n) with h0 | ⟨c, b, h0⟩
    · rw [h0] at hj
      exact Option.some.inj hj ▸ hc
    · rw [h0, List.concat_eq_append, State.walk_snoc] at hj
      obtain ⟨_, _, _, h1, rfl⟩ := hj
      exact h1
  have hb := descendInput_bit (s := s.descended n j) k hr (by rw [hp]; exact (by omega : s.readPos + n + 1 ≤ 8 * s.rlim.toNat))
  rw [hp, State.inBit_congr (s := s.descended n j) (t := s) rfl] at hb
  have ha := descend_arrive (b := s.inBit (s.readPos + n)) (s := (s.descended n j).setReadPos (s.readPos + n + 1)) hn
    (by rw [State.setReadPos_tcur, hjt]; exact hjn) (by rw [State.setReadPos_tcur, hjt]; exact hk)
    (by rw [State.setReadPos_tcur, hjt]; exact hd)
  rw [State.setReadPos_tcur, hjt] at ha
  rw [show n + 1 + k = n + (k + 1) by omega, hf, hb, ha]
  constructor
  · intro h
    exact congrArg (fun r : Res Arrival => r.andThen _) (arrive_leaf (s := (s.descended n j).setReadPos _) h)
  · intro h
    exact congrArg (fun r : Res Arrival => r.andThen _) (arrive_eof (s := (s.descended n j).setReadPos _) h)

/-- The loop is stuck: the bits lead to node `d`, from where movement on the next bit is impossible. The failing bit is consumed. -/
theorem descendInput_noWay {s : State} (k n d : Nat) (hr : s.rlim.toNat ≤ s.size.inSize.val)
    (hn : s.ncnt.toNat ≤ s.size.nNodes.val) (hm : s.readPos + (n + 1) ≤ 8 * s.rlim.toNat)
    (hc : n ≠ 0 → s.tcur.toNat < s.ncnt.toNat) (hw : s.walk s.tcur.toNat (s.inCode s.readPos n) = some d)
    (hk : n ≠ 0 → s.kind d = .internal) (hb : s.NoWay d (s.inBit (s.readPos + n))) :
    descendInput (n + 1 + k) s = .raise .internalConsistency (BitVec.ofNat 64 d) (s.descended (n + 1) d) := by
  have hf := descendInput_follow (k + 1) n d hr hn (by omega) hc hw hk
  have hp := s.descended_readPos (n := n) d (by omega)
  have hdl := State.walk_lt (by omega) hw
  have hdt := s.descended_tcur (n := n) hdl
  have h1 := descendInput_bit (s := s.descended n d) k hr (by rw [hp]; exact (by omega : s.readPos + n + 1 ≤ 8 * s.rlim.toNat))
  rw [hp, State.inBit_congr (s := s.descended n d) (t := s) rfl] at h1
  have h2 := descend_noWay (b := s.inBit (s.readPos + n)) (s := (s.descended n d).setReadPos (s.readPos + n + 1)) hn
    (by rw [State.setReadPos_tcur, hdt]; exact hb)
  have h3 : (s.descended n d).tcur.setWidth 64 = BitVec.ofNat 64 d := by
    apply BitVec.eq_of_toNat_eq
    rw [BitVec.toNat_setWidth, hdt, BitVec.toNat_ofNat]
  rw [show n + 1 + k = n + (k + 1) by omega, hf, h1, h2, inconsistent, State.setReadPos_tcur, h3]
  rfl

/-- The input runs out on node `d`, no leaf: a normal end at the root, TRUNCATED_INPUT with the cursor put back mid-path. -/
theorem descendInput_runsOut {s : State} (k n d : Nat) (hr : s.rlim.toNat ≤ s.size.inSize.val)
    (hn : s.ncnt.toNat ≤ s.size.nNodes.val) (hm : s.readPos + n ≤ 8 * s.rlim.toNat) (he : 8 * s.rlim.toNat < s.readPos + n + 1)
    (hc : n ≠ 0 → s.tcur.toNat < s.ncnt.toNat) (hw : s.walk s.tcur.toNat (s.inCode s.readPos n) = some d)
    (hk : n ≠ 0 → s.kind d = .internal) :
    (d = s.root.toNat → descendInput (n + k) s = .ok .exhausted (s.descended n d)) ∧
    (d ≠ s.root.toNat → descendInput (n + k) s =
      .raise .truncatedInput (BitVec.ofNat 64 d) ((s.descended n d).setTcur s.root)) := by
  have hf := descendInput_follow k n d hr hn hm hc hw hk
  have hp := s.descended_readPos (n := n) d hm
  have hdt := s.descended_tcur (n := n) (State.walk_lt (by omega) hw)
  have h1 : descendInput k (s.descended n d) = inputEnds (s.descended n d) :=
    descendInput_end k (by rw [hp]; exact he)
  have h3 : (s.descended n d).tcur.setWidth 64 = BitVec.ofNat 64 d := by
    apply BitVec.eq_of_toNat_eq
    rw [BitVec.toNat_setWidth, hdt, BitVec.toNat_ofNat]
  rw [hf, h1, inputEnds, show (s.descended n d).root = s.root from rfl]
  constructor
  · intro h
    rw [if_pos (BitVec.eq_of_toNat_eq (hdt.trans h))]
  · intro h
    rw [if_neg (fun he => h (hdt.symm.trans (congrArg BitVec.toNat he))), h3]

/-! ## The search (R28, R120) -/

/-- What a search that succeeds has found: new visits in front of those it was given, one for each path below the node, each with its
node's record and its path, and no index met twice. -/
theorem search_some {s : State} {k i : Nat} {path : Code} {seen out : List Visit} (h : search s k i path seen = some out) :
    ∃ new, out = new ++ seen ∧
      (∀ v ∈ new, v.index < s.ncnt.toNat ∧ v.kind = s.kind v.index ∧ v.payload = s.payload v.index ∧ v.kind ≠ .invalid ∧
        ∃ c, v.path = path ++ c ∧ s.walk i c = some v.index) ∧
      (∀ c d, s.walk i c = some d → ∃ v ∈ new, v.index = d ∧ v.path = path ++ c) ∧
      (∀ c d, s.walk i c = some d → s.kind d = .internal → ∀ b, s.child d b < s.ncnt.toNat) ∧
      ((seen.map Visit.index).Nodup → (out.map Visit.index).Nodup) := by
  induction k generalizing i path seen out with
  | zero => exact absurd h (by simp [search])
  | succ k ih =>
    rw [search] at h
    split at h
    · exact absurd h (by simp)
    · rename_i hi
      split at h
      · exact absurd h (by simp)
      · rename_i hseen
        have hfresh : i ∉ seen.map Visit.index := by
          intro hm
          obtain ⟨v, hv, hvi⟩ := List.mem_map.1 hm
          exact hseen (List.any_eq_true.2 ⟨v, hv, by simp [hvi]⟩)
        have hleaf : ∀ kd, s.kind i = kd → kd ≠ .invalid → kd ≠ .internal → out = ⟨i, kd, s.payload i, path⟩ :: seen →
            ∃ new, out = new ++ seen ∧
              (∀ v ∈ new, v.index < s.ncnt.toNat ∧ v.kind = s.kind v.index ∧ v.payload = s.payload v.index ∧
                v.kind ≠ .invalid ∧ ∃ c, v.path = path ++ c ∧ s.walk i c = some v.index) ∧
              (∀ c d, s.walk i c = some d → ∃ v ∈ new, v.index = d ∧ v.path = path ++ c) ∧
              (∀ c d, s.walk i c = some d → s.kind d = .internal → ∀ b, s.child d b < s.ncnt.toNat) ∧
              ((seen.map Visit.index).Nodup → (out.map Visit.index).Nodup) := by
          intro kd hk h1 h2 ho
          have hnil : ∀ c d, s.walk i c = some d → c = [] ∧ d = i := by
            intro c d hw
            cases c with
            | nil => exact ⟨rfl, (Option.some.inj hw).symm⟩
            | cons b c =>
              rw [State.walk, if_neg (by rw [hk]; exact fun h => h2 h.1)] at hw
              exact absurd hw (by simp)
          refine ⟨[⟨i, kd, s.payload i, path⟩], ho, ?_, ?_, ?_, ?_⟩
          · intro v hv
            rw [List.mem_singleton] at hv
            subst hv
            exact ⟨by simpa using hi, hk.symm, rfl, h1, [], by simp, rfl⟩
          · intro c d hw
            obtain ⟨rfl, rfl⟩ := hnil c d hw
            exact ⟨_, List.mem_singleton.2 rfl, rfl, by simp⟩
          · intro c d hw hd
            obtain ⟨rfl, rfl⟩ := hnil c d hw
            exact absurd (hk.symm.trans hd) h2
          · intro hnd
            rw [ho, List.map_cons]
            exact List.nodup_cons.2 ⟨hfresh, hnd⟩
        split at h
        · exact absurd h (by simp)
        · rename_i hk
          exact hleaf .leaf hk (by simp) (by simp) (Option.some.inj h).symm
        · rename_i hk
          exact hleaf .eof hk (by simp) (by simp) (Option.some.inj h).symm
        · rename_i hk
          split at h
          · exact absurd h (by simp)
          · rename_i seen1 hl
            obtain ⟨new1, ho1, hv1, hc1, hb1, hn1⟩ := ih hl
            obtain ⟨new2, ho2, hv2, hc2, hb2, hn2⟩ := ih h
            have hroot : ∀ (j : Nat) (p : Code) (new : List Visit), (∀ c d, s.walk j c = some d → ∃ v ∈ new, v.index = d ∧ v.path = p ++ c) →
                (∀ v ∈ new, v.index < s.ncnt.toNat ∧ v.kind = s.kind v.index ∧ v.payload = s.payload v.index ∧
                  v.kind ≠ .invalid ∧ ∃ c, v.path = p ++ c ∧ s.walk j c = some v.index) → j < s.ncnt.toNat := by
              intro j p new hc hv
              obtain ⟨v, hm, hj, -⟩ := hc [] j rfl
              exact hj ▸ (hv v hm).1
            have hlt : ∀ b, s.child i b < s.ncnt.toNat := by
              intro b
              cases b with
              | false => exact hroot _ _ _ hc1 hv1
              | true => exact hroot _ _ _ hc2 hv2
            have hstep : ∀ b c, s.walk i (b :: c) = s.walk (s.child i b) c := fun b c => by
              rw [State.walk, if_pos ⟨hk, hlt b⟩]
            refine ⟨new2 ++ (new1 ++ [⟨i, .internal, s.payload i, path⟩]), by simp [ho2, ho1], ?_, ?_, ?_, ?_⟩
            · intro v hv
              rw [List.mem_append, List.mem_append, List.mem_singleton] at hv
              rcases hv with hv | hv | rfl
              · obtain ⟨h1, h2, h3, h4, c, h5, h6⟩ := hv2 v hv
                exact ⟨h1, h2, h3, h4, true :: c, by simp [h5], (hstep _ _).trans h6⟩
              · obtain ⟨h1, h2, h3, h4, c, h5, h6⟩ := hv1 v hv
                exact ⟨h1, h2, h3, h4, false :: c, by simp [h5], (hstep _ _).trans h6⟩
              · exact ⟨by simpa using hi, hk.symm, rfl, by simp, [], by simp, rfl⟩
            · intro c d hw
              cases c with
              | nil => exact ⟨⟨i, .internal, s.payload i, path⟩, by simp, Option.some.inj hw, by simp⟩
              | cons b c =>
                rw [hstep] at hw
                cases b with
                | false =>
                  obtain ⟨v, hm, h1, h2⟩ := hc1 c d hw
                  exact ⟨v, by simp [hm], h1, by simp [h2]⟩
                | true =>
                  obtain ⟨v, hm, h1, h2⟩ := hc2 c d hw
                  exact ⟨v, by simp [hm], h1, by simp [h2]⟩
            · intro c d hw hd
              cases c with
              | nil => exact (Option.some.inj hw) ▸ hlt
              | cons b c =>
                rw [hstep] at hw
                cases b with
                | false => exact hb1 c d hw hd
                | true => exact hb2 c d hw hd
            · intro hnd
              exact hn2 (hn1 (List.nodup_cons.2 ⟨hfresh, hnd⟩))

/-- What a search that succeeds adds has one node that is not internal more than it has internal ones: a binary tree's leaves (R28). -/
theorem search_counts {s : State} {k i : Nat} {path : Code} {seen out : List Visit} (h : search s k i path seen = some out) :
    out.countP (fun v => v.kind != .internal) + seen.countP (fun v => v.kind == .internal) =
      seen.countP (fun v => v.kind != .internal) + out.countP (fun v => v.kind == .internal) + 1 := by
  induction k generalizing i path seen out with
  | zero => exact absurd h (by simp [search])
  | succ k ih =>
    rw [search] at h
    split at h
    · exact absurd h (by simp)
    · split at h
      · exact absurd h (by simp)
      · split at h
        · exact absurd h (by simp)
        · cases h
          simp only [List.countP_cons]
          simp
          omega
        · cases h
          simp only [List.countP_cons]
          simp
          omega
        · split at h
          · exact absurd h (by simp)
          · rename_i seen1 hl
            have h1 := ih hl
            have h2 := ih h
            simp only [List.countP_cons] at h1
            simp at h1 h2 ⊢
            omega

/-- A search below a node succeeds where the paths below it are shorter than the bound, meet no node twice, none met before, no
invalid node and no index at or above NCNT. -/
theorem search_complete {s : State} {k i : Nat} (path : Code) {seen : List Visit} (hi : i < s.ncnt.toNat)
    (hlen : ∀ c d, s.walk i c = some d → c.length < k)
    (hok : ∀ c d, s.walk i c = some d → s.kind d ≠ .invalid ∧ (s.kind d = .internal → ∀ b, s.child d b < s.ncnt.toNat))
    (huniq : ∀ c c1 d, s.walk i c = some d → s.walk i c1 = some d → c = c1)
    (hnew : ∀ c d, s.walk i c = some d → d ∉ seen.map Visit.index) :
    ∃ out, search s k i path seen = some out := by
  induction k generalizing i path seen with
  | zero => exact absurd (hlen [] i rfl) (by simp)
  | succ k ih =>
    have hs : (seen.any fun v => v.index == i) = false := by
      rw [← Bool.not_eq_true, List.any_eq_true]
      rintro ⟨v, hv, hvi⟩
      exact hnew [] i rfl (List.mem_map.2 ⟨v, hv, by simpa using hvi⟩)
    rw [search, if_neg (by omega), if_neg (by simp [hs])]
    cases hk : s.kind i with
    | invalid => exact absurd hk (hok [] i rfl).1
    | leaf => exact ⟨_, rfl⟩
    | eof => exact ⟨_, rfl⟩
    | internal =>
      have hlt := (hok [] i rfl).2 hk
      have hstep : ∀ b c, s.walk i (b :: c) = s.walk (s.child i b) c := fun b c => by
        rw [State.walk, if_pos ⟨hk, hlt b⟩]
      have hbelow : ∀ b c d, s.walk (s.child i b) c = some d → s.walk i (b :: c) = some d := fun b c d h => (hstep b c).trans h
      obtain ⟨out1, h1⟩ := ih (i := s.child i false) (path ++ [false]) (seen := ⟨i, .internal, s.payload i, path⟩ :: seen) (hlt false)
        (fun c d h => Nat.lt_of_succ_lt_succ (hlen _ _ (hbelow _ _ _ h)))
        (fun c d h => hok _ _ (hbelow _ _ _ h))
        (fun c c1 d h h1 => (List.cons.inj (huniq _ _ _ (hbelow _ _ _ h) (hbelow _ _ _ h1))).2)
        (fun c d h => by
          rw [List.map_cons, List.mem_cons]
          rintro (rfl | hm)
          · exact absurd (huniq _ _ _ (hbelow _ _ _ h) (show s.walk _ [] = _ from rfl)) (by simp)
          · exact hnew _ _ (hbelow _ _ _ h) hm)
      obtain ⟨new1, ho, hv, -, -, -⟩ := search_some h1
      simp only [h1]
      refine ih (i := s.child i true) (path ++ [true]) (hlt true)
        (fun c d h => Nat.lt_of_succ_lt_succ (hlen _ _ (hbelow _ _ _ h)))
        (fun c d h => hok _ _ (hbelow _ _ _ h))
        (fun c c1 d h h1 => (List.cons.inj (huniq _ _ _ (hbelow _ _ _ h) (hbelow _ _ _ h1))).2)
        (fun c d h => ?_)
      rw [ho, List.map_append, List.mem_append, List.map_cons, List.mem_cons]
      rintro (hm | rfl | hm)
      · obtain ⟨v, hvm, rfl⟩ := List.mem_map.1 hm
        obtain ⟨-, -, -, -, c1, -, h5⟩ := hv v hvm
        exact absurd (huniq _ _ _ (hbelow _ _ _ h) (hbelow _ _ _ h5)) (by simp)
      · exact absurd (huniq _ _ _ (hbelow _ _ _ h) (show s.walk _ [] = _ from rfl)) (by simp)
      · exact hnew _ _ (hbelow _ _ _ h) hm

end Sys2Proof.Machine
end

