-- ==== Sys2Proof/Laws/Frames.lean ====
section
/-! SUPPORT. What the helper procedures and the loops of DECODE and ENCODE can do to the state, each induction packaged once: a
property of states that the single changes keep is kept by the whole helper, whether it ends with a value or raises. -/

namespace Sys2Proof.Machine

/-- The state a helper ends with, by a value or by a raise, has the property. -/
def Res.All {α : Type} (P : State → Prop) : Res α → Prop
  | .ok _ s => P s
  | .raise _ _ s => P s
  | .stop _ => True

theorem Res.all_ok {α : Type} {P : State → Prop} {r : Res α} {a : α} {s : State} (h : r.All P) (he : r = .ok a s) : P s := by
  subst he
  exact h

theorem Res.all_raise {α : Type} {P : State → Prop} {r : Res α} {c : FaultCode} {info : Word} {s : State} (h : r.All P)
    (he : r = .raise c info s) : P s := by
  subst he
  exact h

theorem Res.all_mono {α : Type} {P Q : State → Prop} {r : Res α} (h : r.All P) (hpq : ∀ s, P s → Q s) : r.All Q := by
  cases r with
  | ok a s => exact hpq s h
  | raise c info s => exact hpq s h
  | stop f => trivial

theorem Res.all_andThen {α β : Type} {P : State → Prop} {r : Res α} {k : α → State → Res β} (h : r.All P)
    (hk : ∀ a s, P s → (k a s).All P) : (r.andThen k).All P := by
  cases r with
  | ok a s => exact hk a s h
  | raise c info s => exact h
  | stop f => trivial

/-- A command that ends through a helper ends in a state of the helper's, with the answer or the fault on it. -/
theorem Res.answer_all {α : Type} {P Q : State → Prop} {r : Res α} {stat : α → Stat} {val : α → Word} {t : State}
    (h : r.All P) (hq : ∀ s st v, P s → Q (s.respond st v)) (hr : ∀ s c info, P s → Q (s.raise c info))
    (ht : r.answer stat val = .next t) : Q t := by
  rcases Res.answer_next ht with ⟨a, s, he, rfl⟩ | ⟨c, info, s, he, rfl⟩
  · exact hq _ _ _ (Res.all_ok h he)
  · exact hr _ _ _ (Res.all_raise h he)

theorem getBits_all {P : State → Prop} {n : Nat} {s : State} (h : P s)
    (hb : s.readPos + n ≤ 8 * s.rlim.toNat → P (s.setReadPos (s.readPos + n))) : (getBits n s).All P := by
  rcases getBits_cases n s with ⟨h1, h2, -⟩ | ⟨h1, -⟩ | ⟨h1, -⟩
  · rw [h1]
    exact hb ((State.hasMore_iff s n).1 h2)
  · rw [h1]
    exact h
  · rw [h1]
    trivial

theorem put_all {P : State → Prop} {c : Code} {s : State} (h : P s)
    (hp : s.Fits c.length → (s.bytesFor c.length = 0 ∨ s.wbyte.toNat + s.bytesFor c.length ≤ s.size.outSize.val) → P (s.putBits c)) :
    (put c s).All P := by
  rcases put_cases c s with ⟨h1, h2, h3⟩ | ⟨h1, -⟩ | ⟨a, h1, -⟩
  · rw [h1]
    exact hp h2 h3
  · rw [h1]
    exact h
  · rw [h1]
    trivial

theorem flushPad_all {P : State → Prop} {s : State} (h : P s)
    (hf : s.wbit ≠ 0 → s.wbyte.toNat < s.wlim.toNat → s.wbyte.toNat < s.size.outSize.val →
      P ((s.storeOut s.wbyte.toNat s.wacc).setWrite (s.wbyte + 1) 0 0)) : (flushPad s).All P := by
  rcases flushPad_cases s with ⟨h1, -⟩ | ⟨h1, h2, h3, h4⟩ | ⟨h1, -⟩ | ⟨h1, -⟩
  · rw [h1]
    exact h
  · rw [h1]
    exact hf h2 h3 h4
  · rw [h1]
    exact h
  · rw [h1]
    trivial

/-- A move of the tree cursor is to a child below NCNT, or to ROOT, with EOFSEEN set at the EOF leaf. -/
theorem descend_all {P : State → Prop} {b : Bool} {s : State} (h : P s)
    (ht : ∀ d, d < s.ncnt.toNat → d < 2 ^ 32 → P (s.setTcur (BitVec.ofNat 32 d))) (hr : P (s.setTcur s.root))
    (he : P (s.setTcur s.root).setEofSeen) : (descend b s).All P := by
  rcases descend_cases b s with ⟨h1, -⟩ | ⟨h1, -, -, h2, h3⟩ | ⟨a, h1, -⟩
  · rw [h1]
    exact h
  · rw [h1]
    cases hk : s.kind (s.child s.tcur.toNat b) with
    | invalid => exact absurd hk h3
    | internal =>
      rw [arrive_internal hk]
      exact ht _ h2 (s.child_lt _ _)
    | leaf =>
      rw [arrive_leaf hk]
      exact hr
    | eof =>
      rw [arrive_eof hk]
      exact he
  · rw [h1]
    trivial

/-- The changes DSYM and DECODE make on the read side: the property is kept by each. -/
structure KeptByDescent (P : State → Prop) : Prop where
  read : ∀ s q, P s → q ≤ 8 * s.rlim.toNat → P (s.setReadPos q)
  move : ∀ s d, P s → d < s.ncnt.toNat → d < 2 ^ 32 → P (s.setTcur (BitVec.ofNat 32 d))
  root : ∀ s, P s → P (s.setTcur s.root)
  eof : ∀ s, P s → P s.setEofSeen

/-- The changes `put` and `flushPad` make: the property is kept by each. -/
structure KeptByWrites (P : State → Prop) : Prop where
  put : ∀ s c, P s → s.Fits c.length → (s.bytesFor c.length = 0 ∨ s.wbyte.toNat + s.bytesFor c.length ≤ s.size.outSize.val) →
    P (s.putBits c)
  flush : ∀ s, P s → s.wbit ≠ 0 → s.wbyte.toNat < s.wlim.toNat → s.wbyte.toNat < s.size.outSize.val →
    P ((s.storeOut s.wbyte.toNat s.wacc).setWrite (s.wbyte + 1) 0 0)

theorem inputEnds_all {P : State → Prop} (hP : KeptByDescent P) {s : State} (h : P s) : (inputEnds s).All P := by
  unfold inputEnds
  split
  · exact h
  · exact hP.root s h

theorem descendInput_all {P : State → Prop} (hP : KeptByDescent P) (k : Nat) {s : State} (h : P s) : (descendInput k s).All P := by
  induction k generalizing s with
  | zero => exact inputEnds_all hP h
  | succ k ih =>
    rw [descendInput]
    split
    · refine Res.all_andThen (getBits_all h fun hm => hP.read s _ h hm) fun v s1 h1 => ?_
      refine Res.all_andThen (descend_all h1 (fun d => hP.move s1 d h1) (hP.root s1 h1) (hP.eof _ (hP.root s1 h1))) fun r s2 h2 => ?_
      cases r with
      | moved => exact ih h2
      | symbol v => exact h2
      | eof => exact h2
    · exact inputEnds_all hP h

theorem decodeOne_all {P : State → Prop} (hP : KeptByDescent P) {s : State} (h : P s) : (decodeOne s).All P := by
  unfold decodeOne
  split
  · exact h
  · exact descendInput_all hP _ h

theorem decodeEnds_all {P : State → Prop} (hW : KeptByWrites P) (stat : Stat) (count : Nat) {s : State} (h : P s) :
    (decodeEnds stat count s).All P :=
  Res.all_andThen (flushPad_all h (hW.flush s h)) fun _ _ h1 => h1

theorem decodeLoop_all {P : State → Prop} (hP : KeptByDescent P) (hW : KeptByWrites P) (k count : Nat) {s : State} (h : P s) :
    (decodeLoop k count s).All P := by
  induction k generalizing count s with
  | zero => exact decodeEnds_all hW _ _ h
  | succ k ih =>
    rw [decodeLoop]
    refine Res.all_andThen (decodeOne_all hP h) fun r s1 h1 => ?_
    cases r with
    | symbol v => exact Res.all_andThen (put_all h1 (hW.put s1 _ h1)) fun _ _ h2 => ih _ h2
    | eof => exact decodeEnds_all hW _ _ h1
    | exhausted => exact decodeEnds_all hW _ _ h1

theorem putCode_all {P : State → Prop} (hW : KeptByWrites P) (c : Code) {s : State} (h : P s) : (putCode c s).All P :=
  Res.all_andThen (put_all h (hW.put s c h)) fun _ _ h1 => h1

/-- DECODE's loop, where it ends with a value, ends with EOF or EXHAUSTED. -/
theorem decodeLoop_stat (k count : Nat) {s t : State} {r : Stat × Nat} (h : decodeLoop k count s = .ok r t) :
    r.1 = .eof ∨ r.1 = .exhausted := by
  have hends : ∀ (stat : Stat) (n : Nat) (u : State), decodeEnds stat n u = .ok r t → r.1 = stat := by
    intro stat n u hu
    obtain ⟨a, w, -, hw⟩ := Res.andThen_eq_ok hu
    cases hw
    rfl
  induction k generalizing count s with
  | zero => exact .inr (hends _ _ _ h)
  | succ k ih =>
    rw [decodeLoop] at h
    obtain ⟨a, s1, -, h1⟩ := Res.andThen_eq_ok h
    cases a with
    | symbol v =>
      obtain ⟨_, s2, -, h2⟩ := Res.andThen_eq_ok h1
      exact ih _ h2
    | eof => exact .inl (hends _ _ _ h1)
    | exhausted => exact .inr (hends _ _ _ h1)

/-- The changes ENCODE makes: those of `put` and `flushPad`, a read of one symbol, and the read cursor put back. -/
theorem encodeOne_all {P : State → Prop} (hW : KeptByWrites P) (hR : ∀ s q, P s → q ≤ 8 * s.rlim.toNat → P (s.setReadPos q))
    (hB : ∀ s, P s → P ((s.setReadPos (s.readPos + s.symw.toNat)).backTo s)) {s : State} (h : P s) : (encodeOne s).All P := by
  unfold encodeOne
  rcases getBits_cases s.symw.toNat s with ⟨h1, h2, -⟩ | ⟨h1, -⟩ | ⟨h1, -⟩
  · have h3 := hR s _ h ((State.hasMore_iff s _).1 h2)
    rw [h1, Res.andThen_ok]
    split
    · exact hB s h
    · rename_i c _
      rcases put_cases c (s.setReadPos (s.readPos + s.symw.toNat)) with ⟨h4, h5, h6⟩ | ⟨h4, -⟩ | ⟨a, h4, -⟩
      · rw [h4]
        exact hW.put _ _ h3 h5 h6
      · rw [h4]
        exact hB s h
      · rw [h4]
        trivial
  · rw [h1]
    exact h
  · rw [h1]
    trivial

theorem encodeLoop_all {P : State → Prop} (hW : KeptByWrites P) (hR : ∀ s q, P s → q ≤ 8 * s.rlim.toNat → P (s.setReadPos q))
    (hB : ∀ s, P s → P ((s.setReadPos (s.readPos + s.symw.toNat)).backTo s)) (k count : Nat) {s : State} (h : P s) :
    (encodeLoop k count s).All P := by
  induction k generalizing count s with
  | zero => exact h
  | succ k ih =>
    rw [encodeLoop]
    split
    · exact Res.all_andThen (encodeOne_all hW hR hB h) fun _ _ h1 => ih _ h1
    · exact h

theorem encodeEnds_all {P : State → Prop} (hW : KeptByWrites P) (count : Nat) {s : State} (h : P s) :
    (encodeEnds count s).All P :=
  Res.all_andThen (put_all h (hW.put s _ h)) fun _ s1 h1 => Res.all_andThen (flushPad_all h1 (hW.flush s1 h1)) fun _ _ h2 => h2

/-! ## No helper stops where the limits are legal (R29, R47) -/

/-- The helper does not end at an absent address. -/
abbrev Res.GoesOn {α : Type} (r : Res α) : Prop := ∀ f, r ≠ .stop f

theorem Res.goesOn_andThen {α β : Type} {r : Res α} {k : α → State → Res β} (h : r.GoesOn)
    (hk : ∀ a s, r = .ok a s → (k a s).GoesOn) : (r.andThen k).GoesOn := by
  cases r with
  | ok a s => exact hk a s rfl
  | raise c info s => exact fun f => by simp
  | stop f => exact absurd rfl (h f)

theorem Res.goesOn_answer {α : Type} {r : Res α} {stat : α → Stat} {val : α → Word} (h : r.GoesOn) :
    ∃ t, r.answer stat val = .next t := by
  cases r with
  | ok a s => exact ⟨_, rfl⟩
  | raise c info s => exact ⟨_, rfl⟩
  | stop f => exact absurd rfl (h f)

theorem limitsLegal_descent : KeptByDescent State.LimitsLegal :=
  ⟨fun _ _ h _ => h, fun _ _ h _ _ => h, fun _ h => h, fun _ h => h⟩

theorem limitsLegal_writes : KeptByWrites State.LimitsLegal :=
  ⟨fun s c h _ _ => by simpa [State.LimitsLegal] using h, fun _ h _ _ _ => h⟩

theorem getBits_goesOn {n : Nat} {s : State} (hn : 1 ≤ n) (h : s.LimitsLegal) : (getBits n s).GoesOn := by
  have h1 := h.1
  rcases getBits_cases n s with ⟨h2, -⟩ | ⟨h2, -⟩ | ⟨-, h2, h3⟩
  · exact fun f => by simp [h2]
  · exact fun f => by simp [h2]
  · rw [State.hasMore_iff] at h2
    omega

theorem put_goesOn (c : Code) {s : State} (h : s.LimitsLegal) : (put c s).GoesOn := by
  have h1 := h.2.1
  rcases put_cases c s with ⟨h2, -⟩ | ⟨h2, -⟩ | ⟨a, -, -, h3⟩
  · exact fun f => by simp [h2]
  · exact fun f => by simp [h2]
  · omega

theorem flushPad_goesOn {s : State} (h : s.LimitsLegal) : (flushPad s).GoesOn := by
  have h1 := h.2.1
  rcases flushPad_cases s with ⟨h2, -⟩ | ⟨h2, -⟩ | ⟨h2, -⟩ | ⟨-, h3⟩
  · exact fun f => by simp [h2]
  · exact fun f => by simp [h2]
  · exact fun f => by simp [h2]
  · omega

theorem descend_goesOn (b : Bool) {s : State} (h : s.LimitsLegal) : (descend b s).GoesOn := by
  have h1 := h.2.2
  rcases descend_cases b s with ⟨h2, -⟩ | ⟨h2, -⟩ | ⟨a, -, h3⟩
  · exact fun f => by simp [h2, inconsistent]
  · rw [h2]
    unfold arrive
    split <;> exact fun f => by simp [inconsistent]
  · omega

theorem inputEnds_goesOn (s : State) : (inputEnds s).GoesOn := by
  unfold inputEnds
  split <;> exact fun f => by simp

theorem descendInput_goesOn (k : Nat) {s : State} (h : s.LimitsLegal) : (descendInput k s).GoesOn := by
  induction k generalizing s with
  | zero => exact inputEnds_goesOn s
  | succ k ih =>
    rw [descendInput]
    split
    · refine Res.goesOn_andThen (getBits_goesOn (Nat.le_refl 1) h) fun v s1 h1 => ?_
      have l1 := Res.all_ok (getBits_all h fun _ => limitsLegal_descent.read s _ h (by omega)) h1
      refine Res.goesOn_andThen (descend_goesOn _ l1) fun r s2 h2 => ?_
      have l2 := Res.all_ok (descend_all l1 (fun d => limitsLegal_descent.move s1 d l1) (limitsLegal_descent.root s1 l1)
        (limitsLegal_descent.eof _ (limitsLegal_descent.root s1 l1))) h2
      cases r with
      | moved => exact ih l2
      | symbol v => exact fun f => by simp
      | eof => exact fun f => by simp
    · exact inputEnds_goesOn s

theorem decodeOne_goesOn {s : State} (h : s.LimitsLegal) : (decodeOne s).GoesOn := by
  unfold decodeOne
  split
  · exact fun f => by simp
  · exact descendInput_goesOn _ h

theorem decodeEnds_goesOn (stat : Stat) (count : Nat) {s : State} (h : s.LimitsLegal) : (decodeEnds stat count s).GoesOn :=
  Res.goesOn_andThen (flushPad_goesOn h) fun _ _ _ f => by simp

theorem decodeLoop_goesOn (k count : Nat) {s : State} (h : s.LimitsLegal) : (decodeLoop k count s).GoesOn := by
  induction k generalizing count s with
  | zero => exact decodeEnds_goesOn _ _ h
  | succ k ih =>
    rw [decodeLoop]
    refine Res.goesOn_andThen (decodeOne_goesOn h) fun r s1 h1 => ?_
    have l1 := Res.all_ok (decodeOne_all limitsLegal_descent h) h1
    cases r with
    | symbol v =>
      exact Res.goesOn_andThen (put_goesOn _ l1) fun _ s2 h2 =>
        ih _ (Res.all_ok (put_all l1 (limitsLegal_writes.put s1 _ l1)) h2)
    | eof => exact decodeEnds_goesOn _ _ l1
    | exhausted => exact decodeEnds_goesOn _ _ l1

theorem encodeOne_goesOn {s : State} (hw : 1 ≤ s.symw.toNat) (h : s.LimitsLegal) : (encodeOne s).GoesOn := by
  refine Res.goesOn_andThen (getBits_goesOn hw h) fun v s1 h1 => ?_
  have l1 : s1.LimitsLegal := Res.all_ok (getBits_all h fun _ => h) h1
  split
  · exact fun f => by simp
  · rename_i c _
    rcases hp : put c s1 with ⟨a, s2⟩ | ⟨e, info, s2⟩ | f
    · exact fun f => by simp
    · exact fun f => by simp
    · exact absurd hp (put_goesOn c l1 f)

theorem encodeLoop_goesOn (k count : Nat) {s : State} (hw : 1 ≤ s.symw.toNat) (h : s.LimitsLegal) :
    (encodeLoop k count s).GoesOn := by
  induction k generalizing count s with
  | zero => exact fun f => by simp [encodeLoop]
  | succ k ih =>
    rw [encodeLoop]
    split
    · refine Res.goesOn_andThen (encodeOne_goesOn hw h) fun _ s1 h1 => ?_
      have l1 : 1 ≤ s1.symw.toNat ∧ s1.LimitsLegal :=
        Res.all_ok (encodeOne_all (P := fun t => 1 ≤ t.symw.toNat ∧ t.LimitsLegal)
          ⟨fun s c h _ _ => by simpa [State.LimitsLegal] using h, fun _ h _ _ _ => h⟩ (fun _ _ h _ => h) (fun _ h => h) ⟨hw, h⟩) h1
      exact ih _ l1.1 l1.2
    · exact fun f => by simp

theorem encodeEnds_goesOn (count : Nat) {s : State} (h : s.LimitsLegal) : (encodeEnds count s).GoesOn :=
  Res.goesOn_andThen (put_goesOn _ h) fun _ s1 h1 =>
    have l1 : s1.LimitsLegal := Res.all_ok (put_all h (limitsLegal_writes.put s _ h)) h1
    Res.goesOn_andThen (flushPad_goesOn l1) fun _ _ _ f => by simp

end Sys2Proof.Machine
end

