-- ==== Sys2Proof/Laws/Exec.lean ====
section
/-! SUPPORT. What every command does before its own pseudocode, over all commands at once (spec R205, R206), and what a step does
with each move of the host (R239). -/

namespace Sys2Proof.Machine

/-- The order of checks, made twice, is the order of checks. -/
theorem issue_issue (i : Instr) (s : State) (body : Outcome) : issue i s (issue i s body) = issue i s body := by
  unfold issue
  split
  · rfl
  · split <;> rfl

/-- Every command runs inside the order of checks. -/
theorem exec_issue (i : Instr) (s : State) : exec i s = issue i s (exec i s) := by
  cases i <;> exact (issue_issue _ _ _).symm

/-- While a fault is recorded every command but RESET and GETREG is refused. -/
theorem exec_sticky {i : Instr} {s : State} (he : s.err ≠ 0) (hp : Instr.passesGate i = false) :
    exec i s = .next s.refuseSticky := by
  rw [exec_issue]
  exact issue_sticky _ he hp

/-- An ill-formed command does what an illegal packet does. -/
theorem exec_illegal {i : Instr} {s : State} (he : s.err = 0) (hw : i.wellFormed = false) :
    exec i s = .next (s.raise .illegalCommand i.headInfo) := by
  rw [exec_issue]
  exact issue_illegal _ he hw

/-- A command whose answer is neither the gate's nor ILLEGAL_COMMAND is legal, and no fault is recorded unless it passes the gate. -/
theorem exec_cases (i : Instr) (s : State) :
    (exec i s = .next s.refuseSticky ∧ s.err ≠ 0 ∧ Instr.passesGate i = false) ∨
    (exec i s = .next (s.raise .illegalCommand i.headInfo) ∧ i.wellFormed = false) ∨
    (i.wellFormed = true ∧ (s.err = 0 ∨ Instr.passesGate i = true)) := by
  rcases issue_cases i s (exec i s) with ⟨h, h1⟩ | ⟨h, h1⟩ | ⟨-, h1⟩
  · exact .inl ⟨(exec_issue i s).trans h, h1⟩
  · exact .inr (.inl ⟨(exec_issue i s).trans h, h1⟩)
  · exact .inr (.inr h1)

/-! ## A step -/

theorem step_idle {s : State} (h : s.script = []) : step s = .next s := by
  simp only [step, advance, h]

theorem step_move {s : State} {m : HostMove} {rest : List HostMove} (h : s.script = m :: rest) :
    step s = runMove m (s.setScript rest) := by
  simp only [step, advance, h]

theorem runPacket_legal {p : Packet} {i : Instr} (h : decode p = .legal i) (s : State) : runPacket p s = exec i s := by
  simp only [runPacket, h]

theorem runPacket_illegal {p : Packet} {why : Illegal} (h : decode p = .illegal why) (s : State) :
    runPacket p s = .next (illegalPacket p s) := by
  simp only [runPacket, h]

/-- The canonical form of the memories holds in the state after reset, and every write of a memory keeps it. -/
theorem State.memories_reset : State.reset.MemoriesLegal := by decide

theorem State.memories_storeIn {s : State} {a : Nat} {b : Byte} (h : s.MemoriesLegal) (ha : a < s.size.inSize.val) :
    (s.storeIn a b).MemoriesLegal :=
  ⟨Memory.wf_store _ _ _ h.1, Memory.within_store _ _ _ _ ha h.2.1, h.2.2⟩

theorem State.memories_storeOut {s : State} {a : Nat} {b : Byte} (h : s.MemoriesLegal) (ha : a < s.size.outSize.val) :
    (s.storeOut a b).MemoriesLegal :=
  ⟨h.1, h.2.1, Memory.wf_store _ _ _ h.2.2.1, Memory.within_store _ _ _ _ ha h.2.2.2.1, h.2.2.2.2⟩

theorem State.memories_storeNode {s : State} {a : Nat} {v : Word} (h : s.MemoriesLegal) (ha : a < 2 * s.size.nNodes.val) :
    (s.storeNode a v).MemoriesLegal :=
  ⟨h.1, h.2.1, h.2.2.1, h.2.2.2.1, Memory.wf_store _ _ _ h.2.2.2.2.1, Memory.within_store _ _ _ _ ha h.2.2.2.2.2⟩

end Sys2Proof.Machine
end

