-- ==== Sys2Proof/Laws/Effects.lean ====
section
/-! SUPPORT. What each command can change, said once for all commands (spec R12, R203, R207): the state a command ends in is that
command's own effect on the fields listed for it, with an answer or a fault on top; or the command was turned away and nothing
changed. -/

namespace Sys2Proof.Machine

/-- Only the read cursor may differ. -/
def OnlyRead (s t : State) : Prop := t = { s with rbyte := t.rbyte, rbit := t.rbit }

/-- Only the tree cursor and FLAGS may differ. -/
def OnlyTree (s t : State) : Prop := t = { s with tcur := t.tcur, flags := t.flags }

/-- Only the read cursor, the tree cursor and FLAGS may differ. -/
def OnlyDescent (s t : State) : Prop := t = { s with rbyte := t.rbyte, rbit := t.rbit, tcur := t.tcur, flags := t.flags }

/-- Only the write cursor, the partial byte and OUT may differ. -/
def OnlyWrite (s t : State) : Prop := t = { s with wbyte := t.wbyte, wbit := t.wbit, wacc := t.wacc, outMem := t.outMem }

/-- Only the two bit cursors, the partial byte and OUT may differ. -/
def OnlyBits (s t : State) : Prop :=
  t = { s with rbyte := t.rbyte, rbit := t.rbit, wbyte := t.wbyte, wbit := t.wbit, wacc := t.wacc, outMem := t.outMem }

/-- Only the bit cursors, the partial byte, OUT, the tree cursor and FLAGS may differ. -/
def OnlyStream (s t : State) : Prop :=
  t = { s with
    rbyte := t.rbyte, rbit := t.rbit, tcur := t.tcur, flags := t.flags, wbyte := t.wbyte, wbit := t.wbit, wacc := t.wacc,
    outMem := t.outMem }

theorem onlyDescent_kept (s : State) : KeptByDescent (OnlyDescent s) :=
  ⟨fun t _ h _ => by unfold OnlyDescent at *; rw [h]; rfl, fun t _ h _ _ => by unfold OnlyDescent at *; rw [h]; rfl,
    fun t h => by unfold OnlyDescent at *; rw [h]; rfl, fun t h => by unfold OnlyDescent at *; rw [h]; rfl⟩

theorem onlyStream_descent (s : State) : KeptByDescent (OnlyStream s) :=
  ⟨fun t _ h _ => by unfold OnlyStream at *; rw [h]; rfl, fun t _ h _ _ => by unfold OnlyStream at *; rw [h]; rfl,
    fun t h => by unfold OnlyStream at *; rw [h]; rfl, fun t h => by unfold OnlyStream at *; rw [h]; rfl⟩

theorem onlyStream_writes (s : State) : KeptByWrites (OnlyStream s) :=
  ⟨fun t _ h _ _ => by unfold OnlyStream at *; rw [putBits_eq, h], fun t h _ _ _ => by unfold OnlyStream at *; rw [h]; rfl⟩

theorem onlyWrite_writes (s : State) : KeptByWrites (OnlyWrite s) :=
  ⟨fun t _ h _ _ => by unfold OnlyWrite at *; rw [putBits_eq, h], fun t h _ _ _ => by unfold OnlyWrite at *; rw [h]; rfl⟩

theorem onlyBits_writes (s : State) : KeptByWrites (OnlyBits s) :=
  ⟨fun t _ h _ _ => by unfold OnlyBits at *; rw [putBits_eq, h], fun t h _ _ _ => by unfold OnlyBits at *; rw [h]; rfl⟩

/-- A command's own effect, before its answer: the fields it may write. -/
def Effect (i : Instr) (s t : State) : Prop :=
  match i with
  | .reset => t = s.resetRegs
  | .setreg r v => s.setregFault r v = none ∧ t = s.writeReg r v
  | .getreg _ => t = s
  | .wrnode w => t = (s.storeNode s.naddr.toNat w).setNaddr (s.naddr + 1) ∧ s.naddr.toNat < 2 * s.size.nNodes.val
  | .rdnode => t = s.setNaddr (s.naddr + 1) ∧ s.naddr.toNat < 2 * s.size.nNodes.val
  | .rdbits _ => OnlyRead s t
  | .wrbits _ _ => OnlyWrite s t
  | .rewind _ => OnlyRead s t
  | .hasmore _ => t = s
  | .flush => OnlyWrite s t
  | .treset => t = (s.setTcur s.root).clearEofSeen
  | .tstep _ => OnlyTree s t
  | .dsym => OnlyDescent s t
  | .decode => OnlyStream s t
  | .encsym _ => OnlyWrite s t
  | .enceof => OnlyWrite s t
  | .encode => OnlyBits s t

/-- A command's end: a state with an answer that is no fault on it, or with a fault taken on it. -/
def EndsIn (Q : State → Prop) (t : State) : Prop :=
  ∃ u, Q u ∧ ((∃ st v, (∀ c, st ≠ .fault c) ∧ t = u.respond st v) ∨ ∃ c v, t = u.raise c v)

theorem endsIn_answer {α : Type} {P : State → Prop} {r : Res α} {stat : α → Stat} {val : α → Word} {t : State}
    (hst : ∀ a c, stat a ≠ .fault c) (h : r.All P) (ht : r.answer stat val = .next t) : EndsIn P t := by
  rcases Res.answer_next ht with ⟨a, s, he, rfl⟩ | ⟨c, info, s, he, rfl⟩
  · exact ⟨s, Res.all_ok h he, .inl ⟨_, _, hst a, rfl⟩⟩
  · exact ⟨s, Res.all_raise h he, .inr ⟨_, _, rfl⟩⟩

theorem endsIn_done {Q : State → Prop} {u : State} {st : Stat} (v : Word) (h : Q u) (hst : ∀ c, st ≠ .fault c) :
    EndsIn Q (u.respond st v) :=
  ⟨u, h, .inl ⟨st, v, hst, rfl⟩⟩

theorem endsIn_raise {Q : State → Prop} {u : State} (c : FaultCode) (v : Word) (h : Q u) : EndsIn Q (u.raise c v) :=
  ⟨u, h, .inr ⟨c, v, rfl⟩⟩

/-- Everything a command that goes on can do: be refused by the sticky-fault gate; end in its own effect; or, but for RESET, take a
fault on the state it found. -/
theorem exec_effect {i : Instr} {s t : State} (ht : exec i s = .next t) :
    (t = s.refuseSticky ∧ s.err ≠ 0 ∧ i ≠ .reset) ∨ EndsIn (fun u => Effect i s u ∨ (u = s ∧ i ≠ .reset)) t := by
  have hiss : ∀ body : Outcome, (i = .reset → i.wellFormed = true ∧ Instr.passesGate i = true) →
      (body = .next t → EndsIn (fun u => Effect i s u ∨ (u = s ∧ i ≠ .reset)) t) → issue i s body = .next t →
      (t = s.refuseSticky ∧ s.err ≠ 0 ∧ i ≠ .reset) ∨ EndsIn (fun u => Effect i s u ∨ (u = s ∧ i ≠ .reset)) t := by
    intro body hr hb hi
    rcases issue_cases i s body with ⟨h1, h2, h3⟩ | ⟨h1, h2⟩ | ⟨h1, -⟩
    · rw [h1] at hi
      cases hi
      exact .inl ⟨rfl, h2, fun h => by rw [(hr h).2] at h3; cases h3⟩
    · rw [h1] at hi
      cases hi
      exact .inr (endsIn_raise _ _ (.inr ⟨rfl, fun h => by rw [(hr h).1] at h2; cases h2⟩))
    · rw [h1] at hi
      exact .inr (hb hi)
  cases i
  case reset => exact hiss _ (fun _ => ⟨rfl, rfl⟩) (fun he => by cases he; exact endsIn_done _ (.inl rfl) (by simp)) ht
  case setreg r v =>
    refine hiss _ (by simp) (fun he => ?_) ht
    split at he
    · cases he
      exact endsIn_raise _ _ (.inr (by simp))
    · cases he
      exact endsIn_done _ (.inl ⟨by assumption, rfl⟩) (by simp)
  case getreg r => exact hiss _ (by simp) (fun he => by cases he; exact endsIn_done _ (.inl rfl) (by simp)) ht
  case wrnode w =>
    refine hiss _ (by simp) (fun he => ?_) ht
    split at he
    · cases he
      exact endsIn_raise _ _ (.inr (by simp))
    · rename_i hn
      cases he
      exact endsIn_done _ (.inl ⟨rfl, by omega⟩) (by simp)
  case rdnode =>
    refine hiss _ (by simp) (fun he => ?_) ht
    split at he
    · cases he
      exact endsIn_raise _ _ (.inr (by simp))
    · rename_i hn
      cases he
      exact endsIn_done _ (.inl ⟨rfl, by omega⟩) (by simp)
  case rdbits n =>
    exact hiss _ (by simp) (fun he => endsIn_answer (by simp) (getBits_all (.inr (by simp)) fun _ => .inl rfl) he) ht
  case wrbits n v =>
    exact hiss _ (by simp) (fun he => endsIn_answer (by simp) (put_all (.inr (by simp)) fun _ _ => .inl (putBits_eq _ _)) he) ht
  case rewind n =>
    refine hiss _ (by simp) (fun he => ?_) ht
    split at he
    · cases he
      exact endsIn_raise _ _ (.inr (by simp))
    · cases he
      refine endsIn_done _ (.inl ?_) (by simp)
      exact (rfl : OnlyRead s (s.setReadPos _))
  case hasmore n => exact hiss _ (by simp) (fun he => by cases he; exact endsIn_done _ (.inl rfl) (by simp)) ht
  case flush =>
    exact hiss _ (by simp) (fun he => endsIn_answer (by simp) (flushPad_all (.inr (by simp)) fun _ _ _ => .inl rfl) he) ht
  case treset => exact hiss _ (by simp) (fun he => by cases he; exact endsIn_done _ (.inl rfl) (by simp)) ht
  case tstep b =>
    exact hiss _ (by simp) (fun he => endsIn_answer (by intro a; cases a <;> simp [Arrival.stat])
      (descend_all (.inr (by simp)) (fun _ _ _ => .inl rfl) (.inl rfl) (.inl rfl)) he) ht
  case dsym =>
    exact hiss _ (by simp) (fun he => endsIn_answer (by intro a; cases a <;> simp [Answer.stat])
      (Res.all_mono (decodeOne_all (onlyDescent_kept s) (s := s) rfl) fun _ h => .inl h) he) ht
  case decode =>
    refine hiss _ (by simp) (fun he => ?_) ht
    split at he
    · cases he
      exact endsIn_raise _ _ (.inr (by simp))
    · rcases Res.answer_next he with ⟨a, u, hu, rfl⟩ | ⟨c, info, u, hu, rfl⟩
      · refine endsIn_done _ (.inl (Res.all_ok (decodeLoop_all (onlyStream_descent s) (onlyStream_writes s) _ _ (s := s) rfl) hu)) ?_
        rcases decodeLoop_stat _ _ hu with h | h <;> simp [h]
      · exact endsIn_raise _ _ (.inl (Res.all_raise (decodeLoop_all (onlyStream_descent s) (onlyStream_writes s) _ _ (s := s) rfl) hu))
  case encsym v =>
    refine hiss _ (by simp) (fun he => ?_) ht
    unfold whenTree at he
    split at he
    · split at he
      · cases he
        exact endsIn_raise _ _ (.inr (by simp))
      · exact endsIn_answer (by simp) (Res.all_mono (putCode_all (onlyWrite_writes s) _ (s := s) rfl) fun _ h => .inl h) he
    · cases he
  case enceof =>
    refine hiss _ (by simp) (fun he => ?_) ht
    unfold whenTree at he
    split at he
    · exact endsIn_answer (by simp) (Res.all_mono (putCode_all (onlyWrite_writes s) _ (s := s) rfl) fun _ h => .inl h) he
    · cases he
  case encode =>
    refine hiss _ (by simp) (fun he => ?_) ht
    unfold whenTree at he
    split at he
    · cases he
      exact endsIn_raise _ _ (.inr (by simp))
    · split at he
      · refine endsIn_answer (by simp) (Res.all_mono (P := OnlyBits s) (Res.all_andThen
          (encodeLoop_all (onlyBits_writes s) (fun t q h _ => ?_) (fun t h => ?_) _ _ (s := s) rfl)
          fun _ _ h1 => encodeEnds_all (onlyBits_writes s) _ h1) fun _ h => .inl h) he
        · unfold OnlyBits at *
          rw [h]
          rfl
        · unfold OnlyBits at *
          rw [h]
          rfl
      · cases he

end Sys2Proof.Machine
end

