-- ==== Sys2Proof/Machine/HostScripts.lean ====
section
/-! DEFINITION. Scripts of the host: the pseudo-commands (spec/30_encoding.md R70), the preparation of a pass
(spec/70_reset_and_hazards.md R235), the framing of a blob (spec/45_host_tree_construction.md R177) and the calls of the software
(R178). They are lists of commands or of host moves; no step runs anything but the moves themselves. Log entry 12. -/

namespace Sys2Proof.Machine

/-! ## Pseudo-commands (R70), each its expansion -/

/-- `NODE.I i, l, r`: internal node `i` with children `l` and `r`. -/
def nodeI (i : Nat) (l r : BitVec 32) : List Instr :=
  [.setreg .naddr (BitVec.ofNat 64 (2 * i)), .wrnode 1, .wrnode (r ++ l)]

/-- `NODE.L i, s`: data leaf `i` with symbol `s`. -/
def nodeL (i : Nat) (s : Word) : List Instr := [.setreg .naddr (BitVec.ofNat 64 (2 * i)), .wrnode 2, .wrnode s]

/-- `NODE.E i`: the EOF leaf at `i`. -/
def nodeE (i : Nat) : List Instr := [.setreg .naddr (BitVec.ofNat 64 (2 * i)), .wrnode 3, .wrnode eofVal]

/-- `SEEKRD byte, bit`. -/
def seekrd (byte bit : Word) : List Instr := [.setreg .rbyte byte, .setreg .rbit bit]

/-- `INWIN start, end`: read bytes `start` to `end − 1`. -/
def inwin (first past : Word) : List Instr := [.setreg .rlim past, .setreg .rbyte first, .setreg .rbit 0]

/-- `OUTWIN start, end`: write bytes `start` to `end − 1`. -/
def outwin (first past : Word) : List Instr := [.setreg .wlim past, .setreg .wbyte first]

/-- `TREE root, count`. -/
def treeAt (root count : Word) : List Instr := [.setreg .ncnt count, .setreg .root root]

/-- The moves by which the host issues a script (R69). -/
def issueAll (l : List Instr) : List HostMove := l.map fun i => .command (encode i)

/-- The host writes bytes into IN from an address on. -/
def writeInAll (a : Nat) (l : List Byte) : List HostMove := l.zipIdx.map fun e => .writeIn (a + e.2) e.1

/-- The host writes bytes into OUT from an address on. -/
def writeOutAll (a : Nat) (l : List Byte) : List HostMove := l.zipIdx.map fun e => .writeOut (a + e.2) e.1

/-- The host's moves one after another, while none stops (R69). -/
def runHost : List HostMove → State → Outcome
  | [], s => .next s
  | m :: l, s =>
    match runMove m s with
    | .next t => runHost l t
    | .fault f => .fault f
    | .refused r => .refused r

/-! ## A pass and its result (R235, R238) -/

/-- The result of a pass whose last response is in the state: the bytes of OUT from the window's start to WBYTE where it ended well, with
DONE, EOF or EXHAUSTED; none where it ended with a fault, for then the output is void (R126, R238). -/
def passOutput (first : Nat) (s : State) : Option (List Byte) :=
  match s.rsp with
  | none => none
  | some r =>
    match r.stat with
    | .done | .eof | .exhausted => some ((List.range (s.wbyte.toNat - first)).map fun k => s.outByte (first + k))
    | .symbol | .fault _ | .errSticky => none

/-- The state in which the host's moves end; none where one stops. -/
def stateAfter (l : List HostMove) (s : State) : Option State :=
  match runHost l s with
  | .next t => some t
  | .fault _ => none
  | .refused _ => none

/-- A call: the host's moves, then the result buffer, which starts at `first` in OUT (R178). -/
def callResult (l : List HostMove) (first : Nat) (s : State) : Option (List Byte) := (stateAfter l s).bind (passOutput first)

/-! ## The calls of the software (R178) -/

/-- `Coder::new(table)`: a fresh block with the table's width and its tree, or the constructor's failure (R170, R171, R176). -/
def newCoder (t : FreqTable) : Except HostFailure (List Instr) :=
  (buildTree t).map fun c => [.reset, .setreg .symw (BitVec.ofNat 64 t.width.val)] ++ loadTree c

/-- What stands before the payload in a blob: the caller's header bytes, then the serialized table if it is asked for (R177). -/
def blobHead (f : TableFormat) (t : FreqTable) (includeTable includeSize : Bool) (header : List Byte) :
    Except HostFailure (List Byte) :=
  if includeTable then (serializeTable f t includeSize).map fun b => header ++ b else .ok header

/-- The commands that encode a window: INWIN, OUTWIN, ENCODE (R178). -/
def encodeCall (inFirst inPast outFirst outPast : Word) : List Instr :=
  inwin inFirst inPast ++ outwin outFirst outPast ++ [.encode]

/-- `Coder.encode`: the head of the blob written into OUT from `outFirst` on by the host, WBYTE at the next free byte, then ENCODE
(R177, R178). Its buffer is `callResult` from `outFirst` on. -/
def encodeBlob (head : List Byte) (inFirst inPast : Word) (outFirst : Nat) (outPast : Word) : List HostMove :=
  writeOutAll outFirst head ++ issueAll (encodeCall inFirst inPast (BitVec.ofNat 64 (outFirst + head.length)) outPast)

/-- `Coder.encodeStreaming`: the head and the output window as in `encodeBlob`, then ENCSYM for each symbol of the input, ENCEOF and FLUSH
(R128, R178). -/
def encodeStreaming (head : List Byte) (symbols : List Word) (outFirst : Nat) (outPast : Word) : List HostMove :=
  writeOutAll outFirst head ++
    issueAll (outwin (BitVec.ofNat 64 (outFirst + head.length)) outPast ++ symbols.map .encsym ++ [.enceof, .flush])

/-- `Coder.decode(source, startOffset)`: INWIN from the start offset on, OUTWIN, DECODE (R178). Its buffer is `callResult` from
`outFirst` on. -/
def decodeCall (start inPast outFirst outPast : Word) : List Instr :=
  inwin start inPast ++ outwin outFirst outPast ++ [.decode]

/-- A decoder's host on a blob that includes its table and stands in IN from `inFirst` on: the table found by the scan, a coder built from
it, the header bytes and the table skipped, DECODE from the payload's first byte (R177, R235 step 6). A blob without a table is
`decodeCall` from the byte after its header, on a coder of the table the host has otherwise. -/
def decodeBlob (f : TableFormat) (blob : List Byte) (searchFrom inFirst : Nat) (outFirst outPast : Word) :
    Except HostFailure (List Instr) :=
  (readTable f blob searchFrom).bind fun t =>
    (newCoder t).bind fun load =>
      (tableEnd f blob searchFrom).map fun start =>
        load ++ decodeCall (BitVec.ofNat 64 (inFirst + start)) (BitVec.ofNat 64 (inFirst + blob.length)) outFirst outPast

/-- The window of a chunk that stands at `inFirst`, from its byte `start` on; empty where the chunk ends before that. -/
def chunkWindow (inFirst start : Nat) (chunk : List Byte) : Word × Word :=
  (BitVec.ofNat 64 (inFirst + min start chunk.length), BitVec.ofNat 64 (inFirst + chunk.length))

/-- `Coder.decodeStreaming(inputPath, outputPath, startOffset)` with refilling (R178): each chunk of the input is written into IN at
`inFirst` and decoded by INWIN, OUTWIN, DECODE, the read window beginning `start` bytes into the input; what a DECODE wrote is drained
before the next. The answer is the output and the state after EOF, or after the last chunk; none where a command fails. A chunk must
end between two codes, for what a refill in the middle of a code does is outside the spec (R178), and as DECODE pads at the end of each
(R105) the output has zero bits between chunks whose symbols do not fill whole bytes. -/
def decodeRefilled (inFirst outFirst : Nat) (outPast : Word) : Nat → List (List Byte) → State → Option (List Byte × State)
  | _, [], s => some ([], s)
  | start, b :: l, s =>
    let w := chunkWindow inFirst start b
    (stateAfter (writeInAll inFirst b ++ issueAll (decodeCall w.1 w.2 (BitVec.ofNat 64 outFirst) outPast)) s).bind fun t =>
      (passOutput outFirst t).bind fun out =>
        if t.eofSeen then some (out, t)
        else (decodeRefilled inFirst outFirst outPast (start - b.length) l t).map fun e => (out ++ e.1, e.2)

/-- A DSYM per symbol, each symbol written by a WRBITS of SYMW bits, which DECODE's `put` is (R105): the state after the answer EOF or
EXHAUSTED; none where a command fails, or where the number, which bounds the DSYMs, ends first. -/
def decodeSymbols : Nat → State → Option State
  | 0, _ => none
  | k + 1, s =>
    (stateAfter (issueAll [.dsym]) s).bind fun t =>
      match t.rsp with
      | none => none
      | some r =>
        match r.stat with
        | .symbol => (stateAfter (issueAll [.wrbits (BitVec.ofNat 8 t.symw.toNat) r.val]) t).bind (decodeSymbols k)
        | .eof | .exhausted => some t
        | .done | .fault _ | .errSticky => none

/-- The chunks of the input refilled one after another, each from `start` on and then decoded a DSYM at a time, up to EOF or the last one.
A DSYM that answers a symbol consumes a bit, so one DSYM more than bits are enough. -/
def decodeChunks (inFirst : Nat) : Nat → List (List Byte) → State → Option State
  | _, [], s => some s
  | start, b :: l, s =>
    let w := chunkWindow inFirst start b
    (stateAfter (writeInAll inFirst b ++ issueAll (inwin w.1 w.2)) s).bind fun t =>
      (decodeSymbols (t.bitsLeft + 1) t).bind fun u =>
        if u.eofSeen then some u else decodeChunks inFirst (start - b.length) l u

/-- `Coder.decodeStreaming(inputPath, outputPath, startOffset)`, a DSYM per symbol (R178): OUTWIN, the chunks from the start offset on, then
a FLUSH; the answer is the output. The partial byte stays in the block from chunk to chunk, so this form is for every width; a chunk
must end between two codes here too. -/
def decodeStreaming (inFirst outFirst : Nat) (outPast : Word) (start : Nat) (chunks : List (List Byte)) (s : State) :
    Option (List Byte) :=
  (stateAfter (issueAll (outwin (BitVec.ofNat 64 outFirst) outPast)) s).bind fun t =>
    (decodeChunks inFirst start chunks t).bind (callResult (issueAll [.flush]) outFirst)

end Sys2Proof.Machine
end

