-- ==== Sys2Proof/Laws/Host.lean ====
section
/-! SUPPORT. The software around the block: what its orders keep (spec R164, R165, R173). -/

namespace Sys2Proof.Machine

/-- Insertion adds the new element and loses none. -/
theorem insertBy_perm {α : Type} (before : α → α → Bool) (n : α) (l : List α) : (insertBy before n l).Perm (n :: l) := by
  induction l with
  | nil => exact .refl _
  | cons m l ih =>
    rw [insertBy]
    split
    · exact (ih.cons m).trans (.swap n m l)
    · exact .refl _

/-- A list built by insertions holds what was inserted. -/
theorem foldl_insertBy_perm {α β : Type} (before : β → β → Bool) (g : α → β) (l : List α) (acc : List β) :
    (l.foldl (fun r e => insertBy before (g e) r) acc).Perm (l.map g ++ acc) := by
  induction l generalizing acc with
  | nil => exact .refl _
  | cons e l ih =>
    exact (ih _).trans (((insertBy_perm before (g e) acc).append_left (l.map g)).trans List.perm_middle)

/-- Sorting by frequency loses no entry and adds none, whatever the two arguments. -/
theorem entriesSortedByFrequency_perm (t : FreqTable) (greatestFirst : Bool) (tie : Word → Word → Bool) :
    (t.entriesSortedByFrequency greatestFirst tie).Perm t.entriesSortedBySymbol := by
  have h := foldl_insertBy_perm
    (fun x y : Word × Word => if x.2 = y.2 then tie x.1 y.1 else decide (x.2.toNat < y.2.toNat) != greatestFirst) id
    t.entriesSortedBySymbol []
  rw [List.map_id, List.append_nil] at h
  exact h

/-- The worklist holds a leaf for every valid entry, and the EOF leaf: it is never empty (R163). -/
theorem worklist_length (t : FreqTable) : (worklist t).length = t.validEntries + 1 := by
  have h := foldl_insertBy_perm WorkItem.before (fun e : Word × Word => (⟨e.2.toNat, .leaf e.1⟩ : WorkItem))
    t.entriesSortedBySymbol []
  rw [worklist, insertItem, (insertBy_perm _ _ _).length_eq, List.length_cons, h.length_eq]
  simp [FreqTable.entriesSortedBySymbol, FreqTable.validEntries]

theorem recordsFirst_perm (vs : List Word) (l : List (Word × Word)) : (recordsFirst vs l).Perm l := by
  induction vs generalizing l with
  | nil => exact .refl _
  | cons v vs ih => exact ((ih _).append_left _).trans (List.filter_append_perm _ _)

/-- Whatever the record order of a format, the records are those of the table (R173). -/
theorem RecordOrder.arrange_perm (o : RecordOrder) (l : List (Word × Word)) : (o.arrange l).Perm l := by
  cases o with
  | ascending => exact .refl _
  | tableNative vs => exact recordsFirst_perm vs l

theorem runHost_append (l l' : List HostMove) (s : State) :
    runHost (l ++ l') s = match runHost l s with
      | .next t => runHost l' t
      | .fault f => .fault f
      | .refused r => .refused r := by
  induction l generalizing s with
  | nil => rfl
  | cons m l ih =>
    rw [List.cons_append, runHost, runHost]
    cases runMove m s with
    | next t => exact ih t
    | fault f => rfl
    | refused r => rfl

/-- A script's parts run one after the other. -/
theorem stateAfter_append (l l' : List HostMove) (s : State) :
    stateAfter (l ++ l') s = (stateAfter l s).bind (stateAfter l') := by
  simp only [stateAfter, runHost_append]
  cases runHost l s <;> rfl

end Sys2Proof.Machine
end

