-- ==== Sys2Proof/Laws/PerInstr.lean ====
section
/-! SUPPORT. The families of statements made for each instruction by name (LAWS.json). -/

namespace Sys2Proof.Laws

/-- The packet of a command holds, in the fields OP, IMM and ARG, the command's opcode and its two operand fields (spec R60, R61,
R68). -/
def EncodeFields.Statement (i : Instr) : Prop := opOf (encode i) = i.op.code ∧ immOf (encode i) = i.imm ∧ argOf (encode i) = i.arg

/-- It holds whatever the command. -/
theorem EncodeFields.all (i : Instr) : EncodeFields.Statement i :=
  ⟨opOf_packet _ _ _, immOf_packet _ _ _, argOf_packet _ _ _⟩

theorem EncodeFields.reset : EncodeFields.Statement .reset := EncodeFields.all _
theorem EncodeFields.setreg (reg : Reg) (value : Word) : EncodeFields.Statement (.setreg reg value) := EncodeFields.all _
theorem EncodeFields.getreg (reg : Reg) : EncodeFields.Statement (.getreg reg) := EncodeFields.all _
theorem EncodeFields.wrnode (word : Word) : EncodeFields.Statement (.wrnode word) := EncodeFields.all _
theorem EncodeFields.rdnode : EncodeFields.Statement .rdnode := EncodeFields.all _
theorem EncodeFields.rdbits (n : BitVec 8) : EncodeFields.Statement (.rdbits n) := EncodeFields.all _
theorem EncodeFields.wrbits (n : BitVec 8) (value : Word) : EncodeFields.Statement (.wrbits n value) := EncodeFields.all _
theorem EncodeFields.rewind (n : BitVec 8) : EncodeFields.Statement (.rewind n) := EncodeFields.all _
theorem EncodeFields.hasmore (n : BitVec 8) : EncodeFields.Statement (.hasmore n) := EncodeFields.all _
theorem EncodeFields.flush : EncodeFields.Statement .flush := EncodeFields.all _
theorem EncodeFields.treset : EncodeFields.Statement .treset := EncodeFields.all _
theorem EncodeFields.tstep (b : Bool) : EncodeFields.Statement (.tstep b) := EncodeFields.all _
theorem EncodeFields.dsym : EncodeFields.Statement .dsym := EncodeFields.all _
theorem EncodeFields.decode : EncodeFields.Statement .decode := EncodeFields.all _
theorem EncodeFields.encsym (symbol : Word) : EncodeFields.Statement (.encsym symbol) := EncodeFields.all _
theorem EncodeFields.enceof : EncodeFields.Statement .enceof := EncodeFields.all _
theorem EncodeFields.encode : EncodeFields.Statement .encode := EncodeFields.all _

end Sys2Proof.Laws
end

