-- ==== Sys2Proof/Laws/Streams.lean ====
section
/-! SUPPORT. What the loops of DECODE and ENCODE do with a run of whole symbols (spec R66, R71, R105, R124), and how what fits adds
up. -/

namespace Sys2Proof.Machine

/-! ## What fits adds up -/

/-- The write cursor after a bit string. -/
theorem putBits_cursor {s : State} (c : Code) (hc : s.AccClear) (hb : s.wbyte.toNat + s.bytesFor c.length < 2 ^ 61) :
    (s.putBits c).wbyte.toNat = s.wbyte.toNat + s.bytesFor c.length ∧
    (s.putBits c).wbit.toNat = s.wbit.toNat + c.length - 8 * s.bytesFor c.length := by
  have h := appended_putBits c hc hb
  exact ⟨h.1, by simpa using congrArg List.length h.2.1⟩

/-- Bits that fit after others that fit are bits that fit together. -/
theorem State.fits_add {s : State} {c : Code} (n : Nat) (hc : s.AccClear) (hf : s.Fits c.length) :
    s.Fits (c.length + n) ↔ (s.putBits c).Fits n := by
  obtain ⟨h1, h2⟩ := putBits_cursor c hc (State.fits_lt hf)
  simp only [State.Fits, State.bytesFor, h1, h2, putBits_wlim] at hf ⊢
  omega

theorem State.fits_mono {s : State} {m n : Nat} (h : s.Fits n) (hm : m ≤ n) : s.Fits m := by
  simp only [State.Fits, State.bytesFor] at h ⊢
  omega

/-- The padding after a bit string is the padding of the partial byte it leaves. -/
theorem padding_putBits {s : State} (c : Code) (hc : s.AccClear) (hf : s.Fits c.length) :
    padding (s.putBits c).wbit.toNat = padding (s.wbit.toNat + c.length) := by
  obtain ⟨-, h2⟩ := putBits_cursor c hc (State.fits_lt hf)
  simp only [padding, h2, State.bytesFor]
  congr 1
  omega

/-- Where the padding fits, `flushPad` appends it. -/
theorem flushPad_ok {s : State} (hc : s.AccClear) (hf : s.Fits (padding s.wbit.toNat).length)
    (hl : s.wlim.toNat ≤ s.size.outSize.val) :
    ∃ k, flushPad s = .ok k (s.putBits (padding s.wbit.toNat)) := by
  have hw := s.wbit.isLt
  rcases flushPad_cases s with ⟨h, h0⟩ | ⟨h, h0, -⟩ | ⟨-, h0, h1⟩ | ⟨-, h1⟩
  · exact ⟨0, by rw [h, h0]; rfl⟩
  · exact ⟨1, by rw [h, flushPad_eq_putBits hc h0]⟩
  · have h2 : s.wbit.toNat ≠ 0 := fun he => h0 (BitVec.eq_of_toNat_eq he)
    simp only [State.Fits, State.bytesFor, padding, List.length_replicate] at hf
    omega
  · omega

/-- Where the padding does not fit, `flushPad` raises WRITE_OVERRUN with nothing changed. -/
theorem flushPad_overrun {s : State} (hf : ¬ s.Fits (padding s.wbit.toNat).length) :
    flushPad s = .raise .writeOverrun 0 s := by
  have hw := s.wbit.isLt
  simp only [State.Fits, State.bytesFor, padding, List.length_replicate] at hf
  rcases flushPad_cases s with ⟨-, h0⟩ | ⟨-, h0, h1, -⟩ | ⟨h, -⟩ | ⟨-, -⟩
  · rw [h0] at hf
    exact absurd (.inl rfl) hf
  · omega
  · exact h
  · have h2 : ¬ s.wbit = 0 := fun he => hf (.inl (by rw [he]; rfl))
    have h3 : s.wlim.toNat ≤ s.wbyte.toNat := by omega
    unfold flushPad
    rw [if_neg h2, if_pos h3]

/-- The write side and the read cursor do not meet. -/
theorem putBits_setReadPos (s : State) (c : Code) (q : Nat) : (s.putBits c).setReadPos q = (s.setReadPos q).putBits c := by
  induction c generalizing s with
  | nil => rfl
  | cons b c ih =>
    rw [putBits_cons, putBits_cons, ih]
    congr 1
    unfold State.putBit
    show State.setReadPos (if s.wbit.toNat + 1 = 8 then _ else _) q = if (s.setReadPos q).wbit.toNat + 1 = 8 then _ else _
    by_cases h : s.wbit.toNat + 1 = 8
    · rw [if_pos h, if_pos (c := (s.setReadPos q).wbit.toNat + 1 = 8) h]
      rfl
    · rw [if_neg h, if_neg (c := (s.setReadPos q).wbit.toNat + 1 = 8) h]
      rfl

/-- The write side and the tree cursor do not meet. -/
theorem putBits_setTcur (s : State) (c : Code) (i : BitVec 32) : (s.putBits c).setTcur i = (s.setTcur i).putBits c := by
  induction c generalizing s with
  | nil => rfl
  | cons b c ih =>
    rw [putBits_cons, putBits_cons, ih]
    congr 1
    unfold State.putBit
    show State.setTcur (if s.wbit.toNat + 1 = 8 then _ else _) i = if (s.setTcur i).wbit.toNat + 1 = 8 then _ else _
    by_cases h : s.wbit.toNat + 1 = 8
    · rw [if_pos h, if_pos (c := (s.setTcur i).wbit.toNat + 1 = 8) h]
      rfl
    · rw [if_neg h, if_neg (c := (s.setTcur i).wbit.toNat + 1 = 8) h]
      rfl

/-! ## One symbol decoded -/

/-- Where the next bits are a path from the tree cursor to a leaf, `decodeOne` consumes exactly them and puts the cursor at ROOT
(R101). -/
theorem decodeOne_leads {s : State} {c : Code} {d : Nat} (hf : s.flags = 0) (hr : s.tcur.toNat < s.ncnt.toNat) (hl : s.LimitsLegal)
    (hc : s.Leads s.tcur.toNat c d) (hm : s.readPos + c.length ≤ 8 * s.rlim.toNat) (hi : s.inCode s.readPos c.length = c) :
    (s.kind d = .leaf →
      decodeOne s = .ok (.symbol (s.payload d)) ((s.setReadPos (s.readPos + c.length)).setTcur s.root)) ∧
    (s.kind d = .eof → decodeOne s = .ok .eof ((s.setReadPos (s.readPos + c.length)).setTcur s.root).setEofSeen) := by
  obtain ⟨hne, hw⟩ := hc
  obtain ⟨n, hn⟩ : ∃ n, c.length = n + 1 := ⟨c.length - 1, by have := List.length_pos_of_ne_nil hne; omega⟩
  obtain ⟨k, hk⟩ : ∃ k, s.bitsLeft = n + 1 + k := ⟨s.bitsLeft - (n + 1), by unfold State.bitsLeft; omega⟩
  have he : s.eofSeen = false := by simp [State.eofSeen, hf]
  have h := descendInput_arrive k n d hl.1 hl.2.2 (by omega) hr (by rw [← hn, hi]; exact hw)
  simp only [decodeOne, he, hk, hn]
  exact h

/-! ## A run of symbols decoded -/

theorem symbolStream_cons (n : Nat) (v : Word) (vs : List Word) : symbolStream n (v :: vs) = valueBits v n ++ symbolStream n vs := by
  simp [symbolStream]

theorem symbolStream_append (n : Nat) (vs ws : List Word) :
    symbolStream n (vs ++ ws) = symbolStream n vs ++ symbolStream n ws := by
  simp [symbolStream]

theorem symbolStream_length (n : Nat) (vs : List Word) : (symbolStream n vs).length = vs.length * n := by
  induction vs with
  | nil => simp [symbolStream]
  | cons v vs ih =>
    rw [symbolStream_cons, List.length_append, ih, valueBits_length, List.length_cons, Nat.succ_mul, Nat.add_comm]

/-- Every code is at least one bit long (R65). -/
theorem State.spells_length {s : State} {vs : List Word} {c : Code} (h : s.Spells vs c) : vs.length ≤ c.length := by
  induction vs generalizing c with
  | nil => simp
  | cons v vs ih =>
    obtain ⟨c1, c2, d, rfl, hl, -, -, h2⟩ := h
    have := ih h2
    have := List.length_pos_of_ne_nil hl.1
    simp only [List.length_cons, List.length_append]
    omega

theorem State.spells_congr {s t : State} (h : s.nodeMem = t.nodeMem) (hn : s.ncnt = t.ncnt) (hr : s.root = t.root)
    {vs : List Word} {c : Code} (hs : s.Spells vs c) : t.Spells vs c := by
  induction vs generalizing c with
  | nil => exact hs
  | cons v vs ih =>
    obtain ⟨c1, c2, d, h1, ⟨h2, h3⟩, h4, h5, h6⟩ := hs
    exact ⟨c1, c2, d, h1, ⟨h2, by rw [← State.walk_congr h hn, ← hr]; exact h3⟩, by rw [← State.kind_congr h]; exact h4,
      by rw [← State.payload_congr h]; exact h5, ih h6⟩

/-- Every code is at least one bit long (R65). -/
theorem State.decodes_length {s : State} {vs : List Word} {i j : Nat} {c : Code} (h : s.Decodes i vs c j) :
    vs.length ≤ c.length := by
  induction vs generalizing i c with
  | nil => simp
  | cons v vs ih =>
    obtain ⟨c1, c2, d, rfl, -, hl, -, -, h2⟩ := h
    have := ih h2
    have := List.length_pos_of_ne_nil hl.1
    simp only [List.length_cons, List.length_append]
    omega

theorem State.decodes_congr {s t : State} (h : s.nodeMem = t.nodeMem) (hn : s.ncnt = t.ncnt) (hr : s.root = t.root)
    {vs : List Word} {i j : Nat} {c : Code} (hs : s.Decodes i vs c j) : t.Decodes i vs c j := by
  induction vs generalizing i c with
  | nil => exact hs
  | cons v vs ih =>
    obtain ⟨c1, c2, d, h1, h2, ⟨h3, h4⟩, h5, h6, h7⟩ := hs
    exact ⟨c1, c2, d, h1, hn ▸ h2, ⟨h3, by rw [← State.walk_congr h hn]; exact h4⟩, by rw [← State.kind_congr h]; exact h5,
      by rw [← State.payload_congr h]; exact h6, hr ▸ ih h7⟩

/-- A run of symbols from ROOT leaves the cursor at ROOT. -/
theorem State.decodes_of_spells {s : State} {vs : List Word} {c : Code} (hr : s.root.toNat < s.ncnt.toNat) (h : s.Spells vs c) :
    s.Decodes s.root.toNat vs c s.root.toNat := by
  induction vs generalizing c with
  | nil => exact ⟨h, rfl⟩
  | cons v vs ih =>
    obtain ⟨c1, c2, d, h1, h2, h3, h4, h5⟩ := h
    exact ⟨c1, c2, d, h1, hr, h2, h3, h4, ih h5⟩

/-- Where the cursor stands after a run of symbols: where it stood, if there was none, else at ROOT. -/
theorem State.decodes_end {s : State} {vs : List Word} {i j : Nat} {c : Code} (h : s.Decodes i vs c j) :
    (vs = [] ∧ c = [] ∧ j = i) ∨ j = s.root.toNat := by
  induction vs generalizing i c with
  | nil => exact .inl ⟨rfl, h⟩
  | cons v vs ih =>
    obtain ⟨c1, c2, d, -, -, -, -, -, h2⟩ := h
    rcases ih h2 with ⟨-, -, h3⟩ | h3 <;> exact .inr h3

/-- The state of a decoder after a run of symbols: their codes consumed, the tree cursor on node `j`, their fields appended. -/
def State.decoded (s : State) (c : Code) (vs : List Word) (j : Nat) : State :=
  ((s.setReadPos (s.readPos + c.length)).setTcur (BitVec.ofNat 32 j)).putBits (symbolStream s.symw.toNat vs)

/-- The fields the run leaves alone, and the tree cursor. -/
theorem State.decoded_fields (s : State) (c : Code) (vs : List Word) (j : Nat) :
    (s.decoded c vs j).tcur = BitVec.ofNat 32 j ∧ (s.decoded c vs j).root = s.root ∧ (s.decoded c vs j).ncnt = s.ncnt ∧
    (s.decoded c vs j).rlim = s.rlim ∧ (s.decoded c vs j).wlim = s.wlim ∧ (s.decoded c vs j).size = s.size ∧
    (s.decoded c vs j).nodeMem = s.nodeMem ∧ (s.decoded c vs j).inMem = s.inMem ∧ (s.decoded c vs j).symw = s.symw ∧
    (s.decoded c vs j).flags = s.flags ∧ (s.decoded c vs j).err = s.err := by
  simp [State.decoded]

theorem State.decoded_readPos {s : State} {c : Code} (vs : List Word) (j : Nat)
    (hm : c = [] ∨ s.readPos + c.length ≤ 8 * s.rlim.toNat) : (s.decoded c vs j).readPos = s.readPos + c.length := by
  have : (s.decoded c vs j).readPos = (s.setReadPos (s.readPos + c.length)).readPos := by
    simp only [State.readPos, State.decoded, putBits_rbyte, putBits_rbit, State.setTcur_rbyte, State.setTcur_rbit]
  rw [this]
  rcases hm with rfl | hm
  · rw [List.length_nil, Nat.add_zero, State.setReadPos_self]
  · exact State.readPos_advance hm

/-- Nothing decoded. -/
theorem State.decoded_nil (s : State) : s.decoded [] [] s.tcur.toNat = s := by
  simp only [State.decoded, List.length_nil, Nat.add_zero, State.setReadPos_self, BitVec.ofNat_toNat, BitVec.setWidth_eq]
  rfl

/-- The loop of DECODE over a run of symbols (R105): one turn each. -/
theorem decodeLoop_symbols {s : State} {vs : List Word} {c : Code} {j : Nat} (k count : Nat) (hf : s.flags = 0) (hl : s.LimitsLegal)
    (ha : s.AccClear) (hs : s.Decodes s.tcur.toNat vs c j) (hm : c = [] ∨ s.readPos + c.length ≤ 8 * s.rlim.toNat)
    (hi : s.inCode s.readPos c.length = c) (hfit : s.Fits (symbolStream s.symw.toNat vs).length) :
    decodeLoop (vs.length + k) count s = decodeLoop k (count + vs.length) (s.decoded c vs j) := by
  induction vs generalizing s c count with
  | nil =>
    obtain ⟨rfl, rfl⟩ := hs
    rw [State.decoded_nil]
    simp
  | cons v vs ih =>
    obtain ⟨c1, c2, d, rfl, hr, h1, hk, rfl, h2⟩ := hs
    have hm := hm.resolve_left (by simp [h1.1])
    rw [List.length_append] at hm hi
    rw [State.inCode_add] at hi
    obtain ⟨hi1, hi2⟩ := List.append_inj hi (by simp)
    have h3 := (decodeOne_leads hf hr hl h1 (by omega) hi1).1 hk
    rw [symbolStream_cons, List.length_append, valueBits_length] at hfit
    have hf1 : s.Fits (valueBits (s.payload d) s.symw.toNat).length := by
      rw [valueBits_length]
      exact State.fits_mono hfit (by omega)
    have hroot : BitVec.ofNat 32 s.root.toNat = s.root := by simp
    have h4 : put (msbFirst (s.payload d) s.symw.toNat) ((s.setReadPos (s.readPos + c1.length)).setTcur s.root) =
        .ok () (s.decoded c1 [s.payload d] s.root.toNat) := by
      rw [msbFirst_eq_valueBits, put_ok (s := (s.setReadPos (s.readPos + c1.length)).setTcur s.root) hf1 hl.2.1]
      simp [State.decoded, symbolStream]
    have hq := State.decoded_readPos (s := s) (c := c1) [s.payload d] s.root.toNat (.inr (by omega))
    obtain ⟨g1, g2, g3, g4, g5, g6, g7, g8, g9, g10, -⟩ := s.decoded_fields c1 [s.payload d] s.root.toNat
    have hap := appended_putBits (s := (s.setReadPos (s.readPos + c1.length)).setTcur (BitVec.ofNat 32 s.root.toNat))
      (symbolStream s.symw.toNat [s.payload d]) ha
      (State.fits_lt (s := (s.setReadPos (s.readPos + c1.length)).setTcur (BitVec.ofNat 32 s.root.toNat)) (by
        simp only [symbolStream, List.flatMap_cons, List.flatMap_nil, List.append_nil]
        exact hf1))
    have hst : (s.decoded c1 [s.payload d] s.root.toNat).decoded c2 vs j = s.decoded (c1 ++ c2) (s.payload d :: vs) j := by
      rw [State.decoded, hq, g9]
      simp only [State.decoded, putBits_setReadPos, putBits_setTcur, ← putBits_append, symbolStream_cons, List.length_append,
        ← Nat.add_assoc]
      simp only [symbolStream, List.flatMap_nil, List.append_nil]
      rfl
    rw [show (s.payload d :: vs).length + k = vs.length + k + 1 by simp only [List.length_cons]; omega, decodeLoop, h3,
      Res.andThen_ok]
    simp only
    rw [show ((s.setReadPos (s.readPos + c1.length)).setTcur s.root).symw = s.symw from rfl, h4, Res.andThen_ok,
      show count + (s.payload d :: vs).length = count + 1 + vs.length by simp only [List.length_cons]; omega, ← hst]
    refine ih (count + 1) (by rw [g10]; exact hf) (by rw [State.LimitsLegal, g3, g4, g5, g6]; exact hl) hap.2.2.1 ?_ ?_ ?_ ?_
    · rw [g1, hroot]
      exact State.decodes_congr g7.symm g3.symm g2.symm h2
    · rw [hq, g4]
      exact .inr (by omega)
    · rw [hq, State.inCode_congr g8]
      exact hi2
    · rw [g9]
      have h5 := (State.fits_add (s := (s.setReadPos (s.readPos + c1.length)).setTcur (BitVec.ofNat 32 s.root.toNat))
        (c := valueBits (s.payload d) s.symw.toNat)
        (symbolStream s.symw.toNat vs).length ha hf1).1 (by rw [valueBits_length]; exact hfit)
      simpa [State.decoded, symbolStream] using h5

/-- The node the cursor stands on after a run of symbols. -/
theorem State.decoded_node {s : State} {vs : List Word} {c : Code} {j : Nat} (hs : s.Decodes s.tcur.toNat vs c j) :
    (s.decoded c vs j).tcur.toNat = j := by
  have hj : j < 2 ^ 32 := by
    rcases State.decodes_end hs with ⟨-, -, h⟩ | h <;> rw [h] <;> exact BitVec.isLt _
  rw [(s.decoded_fields c vs j).1, BitVec.toNat_ofNat, Nat.mod_eq_of_lt hj]

/-- The padding after the run is the padding of what it has appended. -/
theorem State.decoded_padding {s : State} (c : Code) {vs : List Word} (j : Nat) (ha : s.AccClear)
    (hfit : s.Fits (symbolStream s.symw.toNat vs).length) :
    padding (s.decoded c vs j).wbit.toNat = padding (s.wbit.toNat + (symbolStream s.symw.toNat vs).length) :=
  padding_putBits (s := (s.setReadPos (s.readPos + c.length)).setTcur (BitVec.ofNat 32 j)) _ ha hfit

/-- What fits after the run. -/
theorem State.decoded_fits {s : State} (c : Code) {vs : List Word} (j n : Nat) (ha : s.AccClear)
    (hfit : s.Fits (symbolStream s.symw.toNat vs).length) :
    s.Fits ((symbolStream s.symw.toNat vs).length + n) ↔ (s.decoded c vs j).Fits n :=
  State.fits_add (s := (s.setReadPos (s.readPos + c.length)).setTcur (BitVec.ofNat 32 j)) n ha hfit

/-- What the run has appended. -/
theorem State.appended_decoded {s : State} (c : Code) {vs : List Word} (j : Nat) (ha : s.AccClear)
    (hfit : s.Fits (symbolStream s.symw.toNat vs).length) : Appended s (s.decoded c vs j) (symbolStream s.symw.toNat vs) :=
  appended_putBits (s := (s.setReadPos (s.readPos + c.length)).setTcur (BitVec.ofNat 32 j)) _ ha
    (State.fits_lt (s := (s.setReadPos (s.readPos + c.length)).setTcur (BitVec.ofNat 32 j)) hfit)

/-- What the run leaves alone. -/
theorem State.decoded_eq (s : State) (c : Code) (vs : List Word) (j : Nat) :
    OnlyCursors { s with tcur := BitVec.ofNat 32 j } (s.decoded c vs j) := by
  unfold OnlyCursors State.decoded
  rw [putBits_eq]
  rfl

/-! ## One symbol encoded -/

/-- The state of a packer after one symbol: `n` bits consumed and a code appended. -/
def State.encoded (s : State) (n : Nat) (c : Code) : State := (s.setReadPos (s.readPos + n)).putBits c

theorem State.encoded_readPos {s : State} {n : Nat} (c : Code) (hm : s.readPos + n ≤ 8 * s.rlim.toNat) :
    (s.encoded n c).readPos = s.readPos + n := by
  have : (s.encoded n c).readPos = (s.setReadPos (s.readPos + n)).readPos := by
    simp only [State.readPos, State.encoded, putBits_rbyte, putBits_rbit]
  rw [this, State.readPos_advance hm]

/-- What a run of symbols leaves alone. -/
theorem State.encoded_eq (s : State) (n : Nat) (c : Code) : OnlyCursors s (s.encoded n c) := by
  unfold OnlyCursors State.encoded
  rw [putBits_eq]
  rfl

/-- One bit after the others. -/
theorem bitsNat_snoc (c : Code) (b : Bool) : bitsNat (c ++ [b]) = 2 * bitsNat c + b.toNat := by
  simp [bitsNat]

/-- The low `n` bits of a value below `2^n` are its bits (R41). -/
theorem bitsNat_valueBits (v : Word) (n : Nat) : bitsNat (valueBits v n) = v.toNat % 2 ^ n := by
  rw [← msbFirst_eq_valueBits]
  have key : ∀ (n a : Nat), (msbFirst v n).foldl (fun v b => 2 * v + b.toNat) a = a * 2 ^ n + v.toNat % 2 ^ n := by
    intro n
    induction n with
    | zero =>
      intro a
      simp [msbFirst, Nat.mod_one]
    | succ n ih =>
      intro a
      rw [msbFirst, List.foldl_cons, ih]
      have h1 : (v.getLsbD n).toNat = v.toNat / 2 ^ n % 2 := by
        rw [BitVec.getLsbD, Nat.testBit_eq_decide_div_mod_eq]
        rcases Nat.mod_two_eq_zero_or_one (v.toNat / 2 ^ n) with h | h <;> simp [h]
      rw [h1, Nat.pow_succ, Nat.mod_mul, Nat.add_mul, Nat.add_assoc, Nat.mul_comm 2 a, Nat.mul_assoc, Nat.mul_comm 2 (2 ^ n),
        Nat.mul_comm (v.toNat / 2 ^ n % 2), Nat.add_comm (v.toNat % 2 ^ n)]
  simpa [bitsNat] using key n 0

/-- A symbol whose field the window holds is the value read there. -/
theorem ofNat_bitsNat_valueBits {v : Word} {n : Nat} (h : v.toNat < 2 ^ n) : BitVec.ofNat 64 (bitsNat (valueBits v n)) = v := by
  rw [bitsNat_valueBits, Nat.mod_eq_of_lt h, BitVec.ofNat_toNat, BitVec.setWidth_eq]

/-- The next symbol read and looked up (R124). -/
theorem encodeOne_eq {s : State} {v : Word} (hw : 1 ≤ s.symw.toNat) (hl : s.LimitsLegal)
    (hm : s.readPos + s.symw.toNat ≤ 8 * s.rlim.toNat) (hi : s.inCode s.readPos s.symw.toNat = valueBits v s.symw.toNat)
    (hv : v.toNat < 2 ^ s.symw.toNat) :
    (codeOf s v = none → encodeOne s = .raise .incompatibleTable v s) ∧
    ∀ c, codeOf s v = some c →
      (s.Fits c.length → encodeOne s = .ok () (s.encoded s.symw.toNat c)) ∧
      (¬ s.Fits c.length → encodeOne s = .raise .writeOverrun 0 s) := by
  have hg : getBits s.symw.toNat s = .ok v (s.setReadPos (s.readPos + s.symw.toNat)) := by
    rw [getBits_ok hw hm hl.1, hi, ofNat_bitsNat_valueBits hv]
  have hc : codeOf (s.setReadPos (s.readPos + s.symw.toNat)) v = codeOf s v :=
    codeOf_congr (s := s.setReadPos (s.readPos + s.symw.toNat)) (t := s) rfl rfl rfl v
  unfold encodeOne
  rw [hg, Res.andThen_ok, hc]
  refine ⟨fun h => by rw [h]; rfl, fun c h => ⟨fun hf => ?_, fun hf => ?_⟩⟩
  · rw [h]
    simp only
    rw [put_ok (s := s.setReadPos (s.readPos + s.symw.toNat)) hf hl.2.1]
    rfl
  · rw [h]
    simp only
    rw [put_overrun (s := s.setReadPos (s.readPos + s.symw.toNat)) hf]
    rfl

/-- The symbols' codes end to end, as `codeOf` gives them (R66, R120); none if a symbol has no code. -/
def codesOf (s : State) : List Word → Option Code
  | [] => some []
  | v :: vs =>
    match codeOf s v, codesOf s vs with
    | some c, some e => some (c ++ e)
    | _, _ => none

theorem codesOf_cons {s : State} {v : Word} {vs : List Word} {c : Code} :
    codesOf s (v :: vs) = some c ↔ ∃ c1 c2, codeOf s v = some c1 ∧ codesOf s vs = some c2 ∧ c = c1 ++ c2 := by
  rw [codesOf]
  cases h1 : codeOf s v with
  | none => simp
  | some c1 =>
    cases h2 : codesOf s vs with
    | none => simp
    | some c2 => simp [eq_comm]

theorem codesOf_congr {s t : State} (h : s.nodeMem = t.nodeMem) (hn : s.ncnt = t.ncnt) (hr : s.root = t.root) (vs : List Word) :
    codesOf s vs = codesOf t vs := by
  induction vs with
  | nil => rfl
  | cons v vs ih => simp only [codesOf, codeOf_congr h hn hr, ih]

/-- The loop of ENCODE over a run of symbols (R124): one turn each. -/
theorem encodeLoop_symbols {s : State} {vs : List Word} {c : Code} (k count : Nat) (hw : 1 ≤ s.symw.toNat) (hl : s.LimitsLegal)
    (ha : s.AccClear) (hs : codesOf s vs = some c) (hm : s.readPos + vs.length * s.symw.toNat ≤ 8 * s.rlim.toNat ∨ vs = [])
    (hi : s.inCode s.readPos (vs.length * s.symw.toNat) = symbolStream s.symw.toNat vs)
    (hv : ∀ v ∈ vs, v.toNat < 2 ^ s.symw.toNat) (hfit : s.Fits c.length) :
    encodeLoop (vs.length + k) count s = encodeLoop k (count + vs.length) (s.encoded (vs.length * s.symw.toNat) c) := by
  induction vs generalizing s c count with
  | nil =>
    have : c = [] := (Option.some.inj hs).symm
    subst this
    have : s.encoded 0 [] = s := by
      simp only [State.encoded, Nat.add_zero, State.setReadPos_self]
      rfl
    simp [this]
  | cons v vs ih =>
    obtain ⟨c1, c2, h1, h2, rfl⟩ := codesOf_cons.1 hs
    have hm1 : s.readPos + (vs.length + 1) * s.symw.toNat ≤ 8 * s.rlim.toNat := hm.resolve_right (by simp)
    have hlen : (vs.length + 1) * s.symw.toNat = s.symw.toNat + vs.length * s.symw.toNat := by
      rw [Nat.succ_mul, Nat.add_comm]
    rw [List.length_cons, hlen, State.inCode_add, symbolStream_cons] at hi
    obtain ⟨hi1, hi2⟩ := List.append_inj hi (by simp)
    rw [hlen] at hm1
    rw [List.length_append] at hfit
    have hf1 : s.Fits c1.length := State.fits_mono hfit (by omega)
    have h3 := ((encodeOne_eq hw hl (by omega) hi1 (hv v (by simp))).2 c1 h1).1 hf1
    have hq := State.encoded_readPos (s := s) (n := s.symw.toNat) c1 (by omega)
    have hsw : (s.encoded s.symw.toNat c1).symw = s.symw := by simp [State.encoded]
    have hnm : (s.encoded s.symw.toNat c1).nodeMem = s.nodeMem := by simp [State.encoded]
    have hnc : (s.encoded s.symw.toNat c1).ncnt = s.ncnt := by simp [State.encoded]
    have hrt : (s.encoded s.symw.toNat c1).root = s.root := by simp [State.encoded]
    have hap := appended_putBits (s := s.setReadPos (s.readPos + s.symw.toNat)) c1 ha
      (State.fits_lt (s := s.setReadPos (s.readPos + s.symw.toNat)) hf1)
    have hst : (s.encoded s.symw.toNat c1).encoded (vs.length * s.symw.toNat) c2 =
        s.encoded ((v :: vs).length * s.symw.toNat) (c1 ++ c2) := by
      rw [State.encoded, hq, List.length_cons, hlen]
      simp only [State.encoded, putBits_setReadPos, ← putBits_append, ← Nat.add_assoc]
      rfl
    have hmore : s.hasMore s.symw.toNat = true := (State.hasMore_iff _ _).2 (by omega)
    rw [show (v :: vs).length + k = vs.length + k + 1 by simp only [List.length_cons]; omega, encodeLoop, if_pos hmore, h3,
      Res.andThen_ok, show count + (v :: vs).length = count + 1 + vs.length by simp only [List.length_cons]; omega, ← hst]
    have hih := @ih (s.encoded s.symw.toNat c1) c2 (count + 1)
    rw [hsw] at hih
    refine hih ?_ ?_ hap.2.2.1 ((codesOf_congr hnm hnc hrt vs).trans h2) (.inl ?_) ?_ ?_ ?_
    · exact hw
    · simpa [State.encoded, State.LimitsLegal] using hl
    · rw [hq]
      simp only [State.encoded, putBits_rlim, State.setReadPos_rlim]
      omega
    · rw [hq, State.inCode_congr (t := s) (by simp [State.encoded])]
      exact hi2
    · exact fun u hu => hv u (by simp [hu])
    · exact (State.fits_add (s := s.setReadPos (s.readPos + s.symw.toNat)) (c := c1) c2.length ha hf1).1 hfit

end Sys2Proof.Machine
end

