-- ==== Sys2Proof/Tests/Slice0.lean ====
section
/-! SUPPORT. Tests. Every expected value is the spec's (spec/95_test_vectors.md, the section named at each), and a named witness for
the hypotheses of every statement. -/

namespace Sys2Proof.Tests

open Sys2Proof.Machine

/-! ## Small states -/

/-- What the host gets for a packet, as the 72 bits of R62. -/
def answers (s : State) (p : Packet) : Option (BitVec 72) :=
  match step (s.setScript [.command p]) with
  | .next t => t.rsp.map Response.pack
  | .fault _ => none
  | .refused _ => none

/-- The state after a packet. -/
def after (s : State) (p : Packet) : State :=
  match step (s.setScript [.command p]) with
  | .next t => t
  | .fault _ => s
  | .refused _ => s

/-- Cells from address 0 on. -/
def cells {w : Nat} (l : List (BitVec w)) : Memory w := l.zipIdx.map fun e => (e.2, e.1)

/-- The words of tree EX (95 section 1). -/
def exWords : List Word := [1, 0x0000000200000001, 2, 0x41, 1, 0x0000000400000003, 2, 0x42, 3, 0x7FFFFFFFFFFFFFFF]

/-- EX-state (95 section 1), with a read window over the bytes and a write limit. -/
def ex (input : List Byte) (wlim : BitVec 61) : State :=
  { State.reset with
    symw := 8, naddr := 10, ncnt := 5, rlim := BitVec.ofNat 61 input.length, wlim := wlim,
    inMem := cells input, nodeMem := cells exWords }

/-- The reset state with bytes in IN, a read limit after them and a read cursor. -/
def reader (input : List Byte) (byte : BitVec 61) (bit : BitVec 3) : State :=
  { State.reset with rlim := BitVec.ofNat 61 input.length, inMem := cells input, rbyte := byte, rbit := bit }

/-- The reset state with a write limit and a write cursor. -/
def writer (wlim byte : BitVec 61) (bit : BitVec 3) (acc : BitVec 8) : State :=
  { State.reset with wlim := wlim, wbyte := byte, wbit := bit, wacc := acc }

/-! ## Legality: an ill-formed term for each check (R67) -/

theorem test_wellFormed_setreg_readOnly : ∀ r ∈ [Reg.wbit, .wacc, .tcur, .flags, .err, .einfo], ∀ v : BitVec 1,
    (Instr.setreg r (v.setWidth 64)).wellFormed = false := by decide

theorem test_wellFormed_setreg_writable :
    ∀ r ∈ [Reg.symw, .rbyte, .rbit, .rlim, .wbyte, .wlim, .root, .naddr, .ncnt], (Instr.setreg r 0).wellFormed = true := by decide

theorem test_wellFormed_bitCount : ∀ n : BitVec 8, ∀ i ∈ [Instr.rdbits n, .wrbits n 0, .rewind n, .hasmore n],
    i.wellFormed = decide (n.toNat ≠ 0 ∧ n.toNat ≤ 64) := by decide

/-! ## Decoding: a word of every command, written out from 30 R60, R61 and R69 -/

theorem test_decode_reset : decode 0x01000000000000000000 = .legal .reset := by decide
theorem test_decode_setreg : decode 0x0207FFFFFFFFFFFFFFFF = .legal (.setreg .wlim 0xFFFFFFFFFFFFFFFF) := by decide
theorem test_decode_getreg : decode 0x030E0000000000000000 = .legal (.getreg .einfo) := by decide
theorem test_decode_wrnode : decode 0x04000000000400000003 = .legal (.wrnode 0x0000000400000003) := by decide
theorem test_decode_rdnode : decode 0x05000000000000000000 = .legal .rdnode := by decide
theorem test_decode_rdbits : decode 0x103D0000000000000000 = .legal (.rdbits 61) := by decide
theorem test_decode_wrbits : decode 0x11400123456789ABCDEF = .legal (.wrbits 64 0x0123456789ABCDEF) := by decide
theorem test_decode_rewind : decode 0x12010000000000000000 = .legal (.rewind 1) := by decide
theorem test_decode_hasmore : decode 0x13060000000000000000 = .legal (.hasmore 6) := by decide
theorem test_decode_flush : decode 0x14000000000000000000 = .legal .flush := by decide
theorem test_decode_treset : decode 0x20000000000000000000 = .legal .treset := by decide
theorem test_decode_tstep : decode 0x21000000000000000000 = .legal (.tstep false) ∧
    decode 0x21010000000000000000 = .legal (.tstep true) := by decide
theorem test_decode_dsym : decode 0x22000000000000000000 = .legal .dsym := by decide
theorem test_decode_decode : decode 0x23000000000000000000 = .legal .decode := by decide
theorem test_decode_encsym : decode 0x30007FFFFFFFFFFFFFFF = .legal (.encsym 0x7FFFFFFFFFFFFFFF) := by decide
theorem test_decode_enceof : decode 0x31000000000000000000 = .legal .enceof := by decide
theorem test_decode_encode : decode 0x32000000000000000000 = .legal .encode := by decide

/-- The illegal packets of 95 section 3.5, each by the item of R67 the section names. -/
theorem test_decode_illegal :
    [0x00000000000000000000, 0x06000000000000000000, 0xFF000000000000000000, 0x01000000000000000001, 0x01010000000000000000,
      0x14000000000000000001, 0x04010000000000000000, 0x30010000000000000041, 0x10000000000000000000, 0x10410000000000000000,
      0x10080000000000000001, 0x21020000000000000000, 0x020F0000000000000000, 0x030F0000000000000000,
      0x02050000000000000000].map decode =
    [Decoded.illegal .undefinedOpcode, .illegal .undefinedOpcode, .illegal .undefinedOpcode, .illegal .nonZeroField,
      .illegal .nonZeroField, .illegal .nonZeroField, .illegal .nonZeroField, .illegal .nonZeroField, .illegal .bitCount,
      .illegal .bitCount, .illegal .nonZeroField, .illegal .direction, .illegal .registerNumber, .illegal .registerNumber,
      .illegal .readOnlyRegister] := by decide

/-- 95 section 3.5: the answer is ILLEGAL_COMMAND with OP and IMM, recorded in ERR and EINFO. -/
theorem test_illegal_answer : answers State.reset 0x10410000000000000000 = some 0x810000000000001041 ∧
    (after State.reset 0x10410000000000000000).err = 0x81 ∧ (after State.reset 0x10410000000000000000).einfo = 0x1041 := by decide

/-- The opcode table's numbering: the same packets through the host's hooks. -/
theorem test_decodeTableWord : decodeTableWord 80 0x21010000000000000000 = some (.tstep true) ∧
    decodeTableWord 80 0x06000000000000000000 = none := by decide

theorem test_withFetchWord : step (State.reset.withFetchWord 80 0x1107000000000000007F) = exec (.wrbits 7 0x7F) State.reset := by
  rfl

/-! ## System commands (95 section 3.4 and P3) -/

theorem test_reset_clears : (after { ex [0x41] 16 with err := 0x83, einfo := 0x43 } 0x01000000000000000000).err = 0 ∧
    (after (ex [0x41] 16) 0x01000000000000000000).ncnt = 0 := by decide

theorem test_reset_keeps_memory : (after (ex [0x41] 16) 0x01000000000000000000).nodeWord 7 = 0x42 := by decide

theorem test_setreg_ranges : answers State.reset 0x02010000000000000040 = some 0x000000000000000000 ∧
    answers State.reset 0x02010000000000000041 = some 0x8A0000000000000041 ∧
    answers State.reset 0x02000000000000000000 = some 0x820000000000000000 ∧
    answers State.reset 0x02080000000000000020 = some 0x8A0000000000000020 ∧
    answers State.reset 0x0207FFFFFFFFFFFFFFFF = some 0x8AFFFFFFFFFFFFFFFF := by decide

/-- The seek discards the bits of the partial byte (95 section 3.4, last row). -/
theorem test_setreg_wbyte_discards : (after (writer 4 0 3 0xE0) 0x02040000000000000000).wacc = 0 ∧
    (after (writer 4 0 3 0xE0) 0x02040000000000000000).wbit = 0 := by decide

theorem test_getreg_sticky : answers { State.reset with err := 0x83, einfo := 0x43 } 0x030E0000000000000000 =
    some 0x000000000000000043 := by decide

theorem test_wrnode_range : answers { State.reset with naddr := 63 } 0x04000000000000000001 = some 0x000000000000000000 ∧
    (after { State.reset with naddr := 63 } 0x04000000000000000001).naddr = 64 ∧
    answers { State.reset with naddr := 64 } 0x04000000000000000001 = some 0x890000000000000040 := by decide

theorem test_rdnode_range : answers { ex [] 0 with naddr := 5 } 0x05000000000000000000 = some 0x000000000400000003 ∧
    answers { State.reset with naddr := 64 } 0x05000000000000000000 = some 0x890000000000000040 := by decide

/-! ## BitCursor commands (95 section 3.1) -/

theorem test_rdbits_spans : answers (reader [0xA5, 0x3C, 0xF0] 0 3) 0x10070000000000000000 = some 0x000000000000000014 ∧
    (after (reader [0xA5, 0x3C, 0xF0] 0 3) 0x10070000000000000000).rbyte = 1 ∧
    (after (reader [0xA5, 0x3C, 0xF0] 0 3) 0x10070000000000000000).rbit = 2 := by decide

theorem test_rdbits_underrun : answers (reader [0xA5, 0x3C, 0xF0] 2 7) 0x10020000000000000000 = some 0x860000000000000000 ∧
    (after (reader [0xA5, 0x3C, 0xF0] 2 7) 0x10020000000000000000).rbyte = 2 := by decide

theorem test_wrbits_completes : (after (writer 4 0 3 0xA0) 0x11070000000000000014).outByte 0 = 0xA5 ∧
    (after (writer 4 0 3 0xA0) 0x11070000000000000014).wbyte = 1 ∧ (after (writer 4 0 3 0xA0) 0x11070000000000000014).wbit = 2 := by
  decide

theorem test_wrbits_overrun : answers (writer 1 0 3 0xA0) 0x110E0000000000003FFF = some 0x880000000000000000 ∧
    (after (writer 1 0 3 0xA0) 0x110E0000000000003FFF).wacc = 0xA0 ∧ (after (writer 1 0 3 0xA0) 0x110E0000000000003FFF).outMem = [] ∧
    answers (writer 1 1 0 0) 0x11070000000000000000 = some 0x000000000000000000 := by decide

theorem test_rewind : (after { reader [0xA5, 0x3C, 0xF0] 5 0 with rlim := 3 } 0x12080000000000000000).rbyte = 4 ∧
    answers (reader [0xA5, 0x3C, 0xF0] 0 3) 0x12040000000000000000 = some 0x870000000000000000 := by decide

theorem test_hasmore : answers (reader [0xA5, 0x3C, 0xF0] 2 6) 0x13020000000000000000 = some 0x000000000000000001 ∧
    answers (reader [0xA5, 0x3C, 0xF0] 2 6) 0x13030000000000000000 = some 0x000000000000000000 := by decide

theorem test_flush : answers (writer 8 5 3 0xA0) 0x14000000000000000000 = some 0x000000000000000001 ∧
    (after (writer 8 5 3 0xA0) 0x14000000000000000000).outByte 5 = 0xA0 ∧
    answers (writer 8 6 0 0) 0x14000000000000000000 = some 0x000000000000000000 := by decide

theorem test_flush_overrun : answers (writer 0 0 7 0xFE) 0x14000000000000000000 = some 0x880000000000000000 := by decide

/-! ## Decoder commands (95 sections 3.2 and 4) -/

theorem test_treset : (after { ex [] 0 with tcur := 2, flags := 1 } 0x20000000000000000000).tcur = 0 ∧
    (after { ex [] 0 with tcur := 2, flags := 1 } 0x20000000000000000000).flags = 0 := by decide

theorem test_tstep : answers (ex [] 0) 0x21010000000000000000 = some 0x000000000000000000 ∧
    (after (ex [] 0) 0x21010000000000000000).tcur = 2 ∧
    answers { ex [] 0 with tcur := 2 } 0x21000000000000000000 = some 0x010000000000000042 ∧
    answers { ex [] 0 with tcur := 2 } 0x21010000000000000000 = some 0x020000000000000000 ∧
    (after { ex [] 0 with tcur := 2 } 0x21010000000000000000).flags = 1 := by decide

theorem test_tstep_inconsistent : answers { ex [] 0 with ncnt := 2 } 0x21010000000000000000 = some 0x850000000000000000 ∧
    answers { ex [] 0 with root := 1, tcur := 1 } 0x21000000000000000000 = some 0x850000000000000001 ∧
    answers { ex [] 0 with root := 7, tcur := 7 } 0x21000000000000000000 = some 0x850000000000000007 := by decide

theorem test_dsym : answers (ex [0x16] 0) 0x22000000000000000000 = some 0x010000000000000041 ∧
    answers { ex [0x16] 0 with tcur := 2 } 0x22000000000000000000 = some 0x010000000000000042 ∧
    answers State.reset 0x22000000000000000000 = some 0x030000000000000000 := by decide

/-- 95 section 3.2, the second row of DECODE: four-bit fields. -/
theorem test_decode : answers { ex [0x16] 16 with symw := 4 } 0x23000000000000000000 = some 0x020000000000000004 ∧
    (after { ex [0x16] 16 with symw := 4 } 0x23000000000000000000).outMem = [(0, 0x11), (1, 0x12)] ∧
    (after { ex [0x16] 16 with symw := 4 } 0x23000000000000000000).rbit = 7 := by decide

/-- 95 section 4: the exhaustion asymmetry. -/
theorem test_decode_exhaustion : answers (ex [0x02] 16) 0x23000000000000000000 = some 0x030000000000000007 ∧
    answers (ex [0x01] 16) 0x23000000000000000000 = some 0x840000000000000002 ∧
    (after (ex [0x01] 16) 0x23000000000000000000).wbyte = 7 := by decide

/-! ## Packer commands (95 section 3.3) -/

theorem test_encsym : answers (ex [] 16) 0x30000000000000000042 = some 0x000000000000000002 ∧
    (after (ex [] 16) 0x30000000000000000042).wacc = 0x80 ∧
    answers (ex [] 16) 0x30007FFFFFFFFFFFFFFF = some 0x837FFFFFFFFFFFFFFF := by decide

theorem test_enceof : answers { ex [] 16 with wbit := 5, wacc := 0x10 } 0x31000000000000000000 = some 0x000000000000000002 ∧
    (after { ex [] 16 with wbit := 5, wacc := 0x10 } 0x31000000000000000000).wacc = 0x16 := by decide

theorem test_encode : answers (ex [0x41, 0x41, 0x41, 0x42] 16) 0x32000000000000000000 = some 0x000000000000000004 ∧
    (after (ex [0x41, 0x41, 0x41, 0x42] 16) 0x32000000000000000000).outMem = [(0, 0x16)] := by decide

theorem test_encode_faults : answers (ex [0x41, 0x43, 0x41] 16) 0x32000000000000000000 = some 0x830000000000000043 ∧
    (after (ex [0x41, 0x43, 0x41] 16) 0x32000000000000000000).rbyte = 1 ∧
    answers (ex [0x42, 0x42, 0x42, 0x42, 0x42] 0) 0x32000000000000000000 = some 0x880000000000000000 ∧
    (after (ex [0x42, 0x42, 0x42, 0x42, 0x42] 0) 0x32000000000000000000).rbyte = 3 := by decide

/-- Outside WF(tree) the packer has no transition (U5). -/
theorem test_encsym_no_tree : step (State.reset.withFetchWord 80 0x30000000000000000041) = .refused .treeNotWellFormed := by rfl

/-! ## The software around the block (95 sections 2 and 6) -/

/-- The codes of the reference constructor's tree for a table of 8-bit symbols. -/
def codesOf (l : List (Word × Word)) : Except HostFailure (List (Option Word × Code)) :=
  (FreqTable.new 8).bind fun t => (buildTree (l.foldl (fun t e => t.setFrequency e.1 e.2) t)).map CodeTree.codes

/-- The tree of 95 section 2.1: codes 0, 10 and 11. -/
theorem test_host_tree : codesOf [(0x41, 3), (0x42, 1)] =
    .ok [(some 0x41, [false]), (some 0x42, [true, false]), (none, [true, true])] := by decide

/-- The tie of 95 section 2.2: codes 1, 00 and 01, whatever the order of insertion. -/
theorem test_host_tie : codesOf [(0x02, 5), (0x01, 5)] =
    .ok [(some 0x02, [false, false]), (none, [false, true]), (some 0x01, [true])] := by decide

/-- 95 section 6: four symbols with one count each, where merged nodes tie with leaves. -/
theorem test_host_merged_ties : codesOf [(0, 1), (1, 1), (2, 1), (3, 1)] =
    .ok [(some 3, [false, false, false]), (none, [false, false, true]), (some 0, [false, true]), (some 1, [true, false]),
      (some 2, [true, true])] := by decide

/-- 95 sections 2.3 and 6: one symbol; and no symbol of positive count, which is refused (R170). -/
theorem test_host_boundaries : codesOf [(0x07, 9)] = .ok [(some 0x07, [false]), (none, [true])] ∧
    codesOf [] = .error .unsupportedConfiguration ∧ codesOf [(0x07, 9), (0x07, 0)] = .error .unsupportedConfiguration := by decide

/-- A coder's width is 1 to 64 (R160, R176). -/
theorem test_host_width : [0, 65, 2 ^ 64 + 8].map FreqTable.new = List.replicate 3 (.error .unsupportedConfiguration) ∧
    ((FreqTable.new 1).map fun t => t.width.val) = .ok 1 ∧ ((FreqTable.new 64).map fun t => t.width.val) = .ok 64 := by decide

/-- R162: the scan of 95 section 2.1's input counts 0x41 three times, 0x42 once; and 95 section 6's AB AC AB, in fields of four bits. -/
theorem test_host_scan :
    (buildFrequencyTable 8 (reader [0x41, 0x41, 0x41, 0x42] 0 0)).map FreqTable.entriesSortedBySymbol = .ok [(0x41, 3), (0x42, 1)] ∧
    (buildFrequencyTable 4 (reader [0xAB, 0xAC, 0xAB] 0 0)).map FreqTable.entriesSortedBySymbol =
      .ok [(0xA, 3), (0xB, 2), (0xC, 1)] := by decide

/-- R161: by frequency, in both directions, the tie by symbol. -/
theorem test_host_byFrequency : ∀ t ∈ (FreqTable.new 8).toOption.map fun t => ((t.setFrequency 7 1).setFrequency 5 3).setFrequency 2 1,
    t.entriesSortedByFrequency true (fun x y => decide (x.toNat < y.toNat)) = [(5, 3), (2, 1), (7, 1)] ∧
    t.entriesSortedByFrequency false (fun x y => decide (y.toNat < x.toNat)) = [(7, 1), (2, 1), (5, 3)] := by decide

/-- A format: its open parts at values of the test's own (R173, D29). -/
def format (o : RecordOrder) : TableFormat := ⟨0x48554646, 0, .little, .little, .big, o, false⟩

/-- The table of 95 section 2.1 with the declared size 4, and its bytes by R173: magic, size width 4, symbol width 8, record width 8, the
reserved byte, two entries, the size, then the records. -/
def exTable : FreqTable := ⟨⟨8, by decide⟩, some 4, [(0x41, 3), (0x42, 1)]⟩

def exTableBytes : List Byte := [0x48, 0x55, 0x46, 0x46, 4, 8, 8, 0, 2, 0, 0, 0, 4, 0, 0, 0, 0x41, 3, 0x42, 1]

theorem test_host_serialize : serializeTable (format .ascending) exTable true = .ok exTableBytes ∧
    (serializeTable (format (.tableNative [0x42])) exTable true).map (List.drop 16) = .ok [0x42, 1, 0x41, 3] ∧
    (serializeTable (format .ascending) exTable false).map (fun l => (l.getD 4 9, l.length)) = .ok (0, 16) ∧
    serializeTable (format .ascending) ⟨⟨17, by decide⟩, none, [(0x41, 3)]⟩ true = .error .unsupportedConfiguration := by decide

/-- R174, R177: the scan from an offset finds the table behind a header byte and the payload's first byte behind the table. -/
theorem test_host_readTable : readTable (format .ascending) (0x48 :: exTableBytes ++ [0x16]) 1 = .ok exTable ∧
    tableEnd (format .ascending) (0x48 :: exTableBytes ++ [0x16]) 0 = .ok 21 ∧
    readTable (format .ascending) exTableBytes 1 = .error .malformedTable ∧
    readTable (format .ascending) (exTableBytes.set 4 2) 0 = .error .malformedTable ∧
    readTable (format .ascending) (exTableBytes.set 5 17) 0 = .error .malformedTable := by decide

/-- R177: a decoder skips the header and the table; the payload is the byte 0x16 of 95 section 2.1. -/
theorem test_host_decodeBlob :
    (decodeBlob (format .ascending) (0x2A :: exTableBytes ++ [0x16]) 0 0x40 0 4).map (fun l => l.drop 15) =
      .ok ([.setreg .rlim 0x56, .setreg .rbyte 0x55, .setreg .rbit 0, .setreg .wlim 4, .setreg .wbyte 0, .decode]) := by decide

/-- R178: both forms of the streaming decoder, from offset 1 on, on the codes 0 10 11 of 95 section 2.1. -/
theorem test_host_decodeStreaming :
    (decodeRefilled 0 0 4 1 [[0xFF, 0x58]] (ex [] 0)).map Prod.fst = some [0x41, 0x42] ∧
    decodeStreaming 0 0 4 1 [[0xFF], [0x58]] (ex [] 0) = some [0x41, 0x42] := by decide

/-- Pseudo-commands: tree EX written as 95 section 1 writes it gives its ten words. -/
theorem test_pseudo_commands : nodeI 0 1 2 ++ nodeL 1 0x41 ++ nodeI 2 3 4 ++ nodeL 3 0x42 ++ nodeE 4 =
    [.setreg .naddr 0, .wrnode 1, .wrnode 0x0000000200000001, .setreg .naddr 2, .wrnode 2, .wrnode 0x41,
      .setreg .naddr 4, .wrnode 1, .wrnode 0x0000000400000003, .setreg .naddr 6, .wrnode 2, .wrnode 0x42,
      .setreg .naddr 8, .wrnode 3, .wrnode 0x7FFFFFFFFFFFFFFF] := by decide

/-! ## Witnesses: concrete states and operands that meet the hypotheses of each statement -/

/-- DecodeOfEncode: legal commands, at the ends of the operand ranges. -/
theorem witness_DecodeOfEncode : (Instr.rdbits 1).wellFormed = true ∧ (Instr.wrbits 64 0).wellFormed = true ∧
    (Instr.setreg .ncnt 0xFFFFFFFFFFFFFFFF).wellFormed = true ∧ (Instr.tstep true).wellFormed = true := by decide

/-- EncodeOfDecode and the first clause of LegalPacketSelectsOneTableRow. -/
theorem witness_EncodeOfDecode : decode 0x12400000000000000000 = .legal (.rewind 64) := by decide

/-- The second clause of LegalPacketSelectsOneTableRow. -/
theorem witness_LegalPacketSelectsOneTableRow :
    (0x21010000000000000000 : Packet) &&& Op.tstep.mask = Op.tstep.pattern := by decide

/-- PowerOnMeetsTheInvariant: the smallest instance. -/
theorem witness_PowerOnMeetsTheInvariant : Sizes.ok ⟨0, 0, 1⟩ = true ∧ Sizes.ok ⟨0, 0, 0⟩ = false := by decide

/-- A state of a run that meets the invariant, with a command to take. -/
theorem witness_StepKeepsTheInvariant : ((ex [0x41] 16).setScript [.command 0x32000000000000000000]).Inv ∧
    ∃ t, step ((ex [0x41] 16).setScript [.command 0x32000000000000000000]) = .next t :=
  ⟨by decide, _, rfl⟩

/-- StepStopsOnlyWhereTheSpecDoes: a host write at the last address, and a packer command without a tree. -/
theorem witness_StepStopsOnlyWhereTheSpecDoes : (State.reset.setScript [.writeIn 63 0x16]).Inv ∧
    (∀ m rest, (State.reset.setScript [.writeIn 63 0x16]).script = m :: rest → m.inSpaces State.reset.size) ∧
    (State.reset.withFetchWord 80 0x31000000000000000000).Inv ∧
    step (State.reset.withFetchWord 80 0x31000000000000000000) = .refused .treeNotWellFormed := by
  refine ⟨by decide, fun m rest h => ?_, by decide, rfl⟩
  cases h
  exact (by decide : 63 < State.reset.size.inSize.val)

/-- StepRunsTheDecodedCommand: a legal packet next, and nothing next. -/
theorem witness_StepRunsTheDecodedCommand :
    (State.reset.setScript [.command 0x05000000000000000000]).script = .command 0x05000000000000000000 :: [] ∧
    decode 0x05000000000000000000 = .legal .rdnode ∧ State.reset.script = [] := by decide

/-- IllegalPacketRaises. -/
theorem witness_IllegalPacketRaises : (State.reset.setScript [.command 0x020F0000000000000000]).err = 0 ∧
    decode 0x020F0000000000000000 = .illegal .registerNumber := by decide

/-- StickyFaultGate: a fault recorded, and packets for each clause: a command turned away, legal and illegal; GETREG and RESET; the
same two OPs illegal. -/
theorem witness_StickyFaultGate : ({ State.reset with err := 0x81 }).err ≠ 0 ∧
    opOf 0x14000000000000000000 ≠ 0x01 ∧ opOf 0x14000000000000000000 ≠ 0x03 ∧ opOf 0x00000000000000000000 ≠ 0x01 ∧
    (opOf 0x030D0000000000000000 = 0x03 ∧ decode 0x030D0000000000000000 = .legal (.getreg .err)) ∧
    (opOf 0x01000000000000000000 = 0x01 ∧ decode 0x01000000000000000000 = .legal .reset) ∧
    (opOf 0x030F0000000000000000 = 0x03 ∧ decode 0x030F0000000000000000 = .illegal .registerNumber) ∧
    (opOf 0x01010000000000000000 = 0x01 ∧ decode 0x01010000000000000000 = .illegal .nonZeroField) := by decide

/-- HostMovesWriteOneByte: the last address that exists and the first that does not. -/
theorem witness_HostMovesWriteOneByte : 63 < State.reset.size.inSize.val ∧ State.reset.size.inSize.val ≤ 64 ∧
    63 < State.reset.size.outSize.val ∧ State.reset.size.outSize.val ≤ 64 := by decide

/-- FirstFaultIsLatched: a command that faults with ERR = 0, one that does not, and one refused. -/
theorem witness_FirstFaultIsLatched : (∃ t, exec (.rdbits 1) State.reset = .next t ∧ t.rsp = some ⟨.fault .readUnderrun, 0⟩) ∧
    (∃ t, exec (.hasmore 1) State.reset = .next t ∧ t.rsp = some ⟨.done, 0⟩) ∧
    ∃ t, exec .flush { State.reset with err := 0x86 } = .next t :=
  ⟨⟨_, rfl, rfl⟩, ⟨_, rfl, rfl⟩, _, rfl⟩

/-- StateIsWrittenOnlyBy and StoresStayInTheWriteWindow: an ENCODE that moves both cursors and stores a byte. -/
theorem witness_StateIsWrittenOnlyBy : ∃ t, exec .encode (ex [0x41, 0x41, 0x41, 0x42] 16) = .next t ∧
    t.rbyte ≠ (ex [0x41, 0x41, 0x41, 0x42] 16).rbyte ∧ t.outMem ≠ (ex [0x41, 0x41, 0x41, 0x42] 16).outMem :=
  ⟨_, rfl, by decide, by decide⟩

theorem witness_StoresStayInTheWriteWindow : ∃ t, exec (.wrbits 8 0xFF) (writer 1 0 0 0) = .next t ∧
    t.wbyte ≠ (writer 1 0 0 0).wbyte ∧ t.wbyte.toNat ≤ (writer 1 0 0 0).wlim.toNat :=
  ⟨_, rfl, by decide, by decide⟩

/-- ReadsStayBelowTheReadLimit: two memories that agree below RLIM = 1 and differ at it. -/
theorem witness_ReadsStayBelowTheReadLimit :
    (∀ a, a < (ex [0x16] 16).rlim.toNat →
      State.inByte { ex [0x16] 16 with inMem := [(0, 0x16), (1, 0xFF)] } a = (ex [0x16] 16).inByte a) ∧
    ∃ t, exec .dsym (ex [0x16] 16) = .next t :=
  ⟨by decide, _, rfl⟩

/-- PackerIgnoresTheTreeCursor: a packer command that goes on, and one refused. -/
theorem witness_PackerIgnoresTheTreeCursor : (∃ t, exec .enceof (ex [] 16) = .next t) ∧
    exec .enceof State.reset = .refused .treeNotWellFormed :=
  ⟨⟨_, rfl⟩, rfl⟩

/-- WidthIsReadOnlyByDecodeAndEncode. -/
theorem witness_WidthIsReadOnlyByDecodeAndEncode : Instr.dsym ≠ .decode ∧ Instr.dsym ≠ .encode ∧ Instr.dsym ≠ .getreg .symw ∧
    Instr.dsym ≠ .reset ∧ (∀ v, Instr.dsym ≠ .setreg .symw v) ∧ ∃ t, exec .dsym (ex [0x16] 16) = .next t :=
  ⟨by decide, by decide, by decide, by decide, fun v => by simp, _, rfl⟩

/-- SetregWritesLegalValues: the greatest legal value of each range, and the least of SYMW. -/
theorem witness_SetregWritesLegalValues : State.reset.err = 0 ∧ (1 ≤ (1 : Word).toNat ∧ (64 : Word).toNat ≤ 64) ∧
    (64 : Word).toNat ≤ State.reset.size.inSize.val ∧ (7 : Word).toNat ≤ 7 ∧ (64 : Word).toNat ≤ State.reset.size.outSize.val ∧
    (31 : Word).toNat < State.reset.size.nNodes.val ∧ (64 : Word).toNat ≤ 2 * State.reset.size.nNodes.val ∧
    (32 : Word).toNat ≤ State.reset.size.nNodes.val := by decide

/-- SetregRejectsOtherValues: the least value outside each range. -/
theorem witness_SetregRejectsOtherValues : State.reset.err = 0 ∧ (0 : Word).toNat < 1 ∧ 64 < (65 : Word).toNat ∧
    State.reset.size.inSize.val < (65 : Word).toNat ∧ 7 < (8 : Word).toNat ∧ State.reset.size.outSize.val < (65 : Word).toNat ∧
    State.reset.size.nNodes.val ≤ (32 : Word).toNat ∧ 2 * State.reset.size.nNodes.val < (65 : Word).toNat ∧
    State.reset.size.nNodes.val < (33 : Word).toNat ∧ Reg.einfo ∈ [Reg.wbit, Reg.wacc, Reg.tcur, Reg.flags, Reg.err, Reg.einfo] := by
  decide

/-- NodeWordsAreWrittenAndRead at the last word, NodeRangeFaults just past it. -/
theorem witness_NodeWordsAreWrittenAndRead : ({ State.reset with naddr := 63 }).err = 0 ∧
    ({ State.reset with naddr := 63 }).naddr.toNat < 2 * State.reset.size.nNodes.val := by decide

theorem witness_NodeRangeFaults : ({ State.reset with naddr := 64 }).err = 0 ∧
    2 * State.reset.size.nNodes.val ≤ ({ State.reset with naddr := 64 }).naddr.toNat := by decide

/-- RdbitsCompletes: a read of 64 bits that ends at RLIM, and of the last bit. -/
theorem witness_RdbitsCompletes :
    (let s := reader [1, 2, 3, 4, 5, 6, 7, 8] 0 0
     s.err = 0 ∧ s.readPos + (64 : BitVec 8).toNat ≤ 8 * s.rlim.toNat ∧ s.rlim.toNat ≤ s.size.inSize.val) ∧
    (let s := reader [0xA5, 0x3C, 0xF0] 2 7
     s.readPos + (1 : BitVec 8).toNat ≤ 8 * s.rlim.toNat) := by decide

/-- WrbitsCompletes: bits that complete the last byte below WLIM, and bits that complete none with WBYTE at WLIM. -/
theorem witness_WrbitsCompletes :
    (let s := writer 1 0 3 0xA0
     s.err = 0 ∧ s.AccClear ∧ s.Fits (5 : BitVec 8).toNat ∧ s.wlim.toNat ≤ s.size.outSize.val) ∧
    (let s := writer 1 1 0 0
     s.AccClear ∧ s.Fits (7 : BitVec 8).toNat) := by decide

/-- RewindCompletes: exactly to the start. -/
theorem witness_RewindCompletes : (reader [0xA5] 0 3).err = 0 ∧ (3 : BitVec 8).toNat ≤ (reader [0xA5] 0 3).readPos := by decide

/-- HasmoreCompletes, both answers. -/
theorem witness_HasmoreCompletes : (reader [0xA5, 0x3C, 0xF0] 2 6).err = 0 ∧ (reader [0xA5, 0x3C, 0xF0] 2 6).hasMore 2 = true ∧
    (reader [0xA5, 0x3C, 0xF0] 2 6).hasMore 3 = false := by decide

/-- FlushCompletes: at a byte boundary, and with a partial byte just below WLIM. -/
theorem witness_FlushCompletes : (writer 8 6 0 0).wbit = 0 ∧
    (let s := writer 8 7 3 0xA0
     s.err = 0 ∧ s.wbit ≠ 0 ∧ s.AccClear ∧ s.wbyte.toNat < s.wlim.toNat ∧ s.wlim.toNat ≤ s.size.outSize.val) := by decide

/-- BitCursorFaultsChangeNothing, clause by clause at the edge. -/
theorem witness_BitCursorFaultsChangeNothing :
    (let s := reader [0xA5, 0x3C, 0xF0] 2 7
     s.err = 0 ∧ 8 * s.rlim.toNat < s.readPos + (2 : BitVec 8).toNat) ∧
    (reader [0xA5] 0 3).readPos < (4 : BitVec 8).toNat ∧ ¬ (writer 1 1 0 0).Fits (8 : BitVec 8).toNat ∧
    (let s := writer 1 1 7 0
     s.wbit ≠ 0 ∧ s.wlim.toNat ≤ s.wbyte.toNat) ∧
    (0 : BitVec 8).toNat = 0 ∧ 64 < (65 : BitVec 8).toNat := by decide

/-- RewindUndoesRdbits. -/
theorem witness_RewindUndoesRdbits :
    ∃ t, exec (.rdbits 7) (reader [0xA5, 0x3C, 0xF0] 0 3) = .next t ∧ t.rsp = some ⟨.done, 0x14⟩ :=
  ⟨_, rfl, by decide⟩

/-- The writes and the flush of program P4 (95 section 5), and what they leave. -/
def p4Writes : List (BitVec 8 × Word) := [(3, 5), (64, 0x0123456789ABCDEF)]

def p4End : State :=
  match execAll (p4Writes.map (fun e => Instr.wrbits e.1 e.2) ++ [.flush]) (writer 16 0 0 0) with
  | some (t, _) => t
  | none => State.reset

theorem p4_runs : ∃ rs, execAll (p4Writes.map (fun e => Instr.wrbits e.1 e.2) ++ [.flush]) (writer 16 0 0 0) = some (p4End, rs) := by
  have h : (execAll (p4Writes.map (fun e => Instr.wrbits e.1 e.2) ++ [.flush]) (writer 16 0 0 0)).isSome = true := by
    decide +kernel
  unfold p4End
  cases hx : execAll (p4Writes.map (fun e => Instr.wrbits e.1 e.2) ++ [.flush]) (writer 16 0 0 0) with
  | none => rw [hx] at h; cases h
  | some x => exact ⟨x.2, rfl⟩

/-- A reader of what they wrote. -/
def p4Reader : State := { State.reset with rlim := 9, inMem := p4End.outMem }

/-- WrittenBitsAreReadBack. -/
theorem witness_WrittenBitsAreReadBack : (∀ e ∈ p4Writes, 1 ≤ e.1.toNat ∧ e.1.toNat ≤ 64) ∧ (writer 16 0 0 0).AccClear ∧
    (writer 16 0 0 0).wbit = 0 ∧
    (∃ rs, execAll (p4Writes.map (fun e => Instr.wrbits e.1 e.2) ++ [.flush]) (writer 16 0 0 0) = some (p4End, rs)) ∧
    p4End.err = 0 ∧ p4Reader.err = 0 ∧ p4Reader.readPos = 8 * (writer 16 0 0 0).wbyte.toNat ∧ p4Reader.rlim = p4End.wbyte ∧
    p4Reader.rlim.toNat ≤ p4Reader.size.inSize.val ∧
    ∀ a, (writer 16 0 0 0).wbyte.toNat ≤ a → a < p4End.wbyte.toNat → p4Reader.inByte a = p4End.outByte a := by
  refine ⟨fun e he => ?_, by decide, by decide, p4_runs, by decide +kernel, by decide, by decide, by decide +kernel, by decide,
    fun a _ ha => ?_⟩
  · simp only [p4Writes, List.mem_cons, List.not_mem_nil, or_false] at he
    rcases he with rfl | rfl <;> decide
  · exact (by decide +kernel : ∀ a, a < 9 → p4Reader.inByte a = p4End.outByte a) a
      (Nat.lt_of_lt_of_eq ha (by decide +kernel : p4End.wbyte.toNat = 9))

/-- TresetCompletes, with a ROOT that is no node. -/
theorem witness_TresetCompletes : ({ State.reset with root := 7 }).err = 0 := by decide

/-- TstepCompletes: an edge to each kind of child. -/
theorem witness_TstepCompletes :
    (let s := ex [] 0
     s.err = 0 ∧ s.ncnt.toNat ≤ s.size.nNodes.val ∧ s.tcur.toNat < s.ncnt.toNat ∧ s.kind s.tcur.toNat = .internal ∧
     s.child s.tcur.toNat true < s.ncnt.toNat ∧ s.kind (s.child s.tcur.toNat true) = .internal ∧
     s.kind (s.child s.tcur.toNat false) = .leaf) ∧
    (let s := { ex [] 0 with tcur := 2 }
     s.tcur.toNat < s.ncnt.toNat ∧ s.kind s.tcur.toNat = .internal ∧ s.child s.tcur.toNat true < s.ncnt.toNat ∧
     s.kind (s.child s.tcur.toNat true) = .eof) := by decide

/-- TstepInconsistency: each of the four ways movement is impossible. -/
theorem witness_TstepInconsistency : State.NoWay State.reset 0 false ∧ State.NoWay { ex [] 0 with tcur := 1 } 1 false ∧
    State.NoWay { ex [] 0 with ncnt := 2 } 0 true ∧
    State.NoWay { ex [] 0 with nodeMem := cells [1, 0x0000000200000001, 0, 0x41] } 0 false := by decide

/-- DsymFollowsTheCode: a data leaf's code, the EOF leaf's, and EOFSEEN set. -/
theorem witness_DsymFollowsTheCode :
    (let s := ex [0x16] 0
     s.err = 0 ∧ s.flags = 0 ∧ s.rlim.toNat ≤ s.size.inSize.val ∧ s.ncnt.toNat ≤ s.size.nNodes.val ∧
     s.readPos + 1 ≤ 8 * s.rlim.toNat ∧ s.tcur.toNat < s.ncnt.toNat ∧ s.Leads s.tcur.toNat (s.inCode s.readPos 1) 1 ∧
     s.kind 1 = .leaf) ∧
    (let s := { ex [0x16] 0 with rbit := 5 }
     s.readPos + 2 ≤ 8 * s.rlim.toNat ∧ s.Leads s.tcur.toNat (s.inCode s.readPos 2) 4 ∧ s.kind 4 = .eof) ∧
    ({ ex [0x16] 0 with flags := 1 }).flags = 1 := by decide

/-- DsymAtTheEndOfInput: no bit left at ROOT, one bit left that leads mid-path. -/
theorem witness_DsymAtTheEndOfInput :
    (let s := ex [0x01] 0
     s.err = 0 ∧ s.flags = 0 ∧ s.rlim.toNat ≤ s.size.inSize.val ∧ s.ncnt.toNat ≤ s.size.nNodes.val) ∧
    (let s := ex [] 0
     s.bitsLeft = 0 ∧ s.walk s.tcur.toNat (s.inCode s.readPos s.bitsLeft) = some 0 ∧ 0 = s.root.toNat) ∧
    (let s := { ex [0x01] 0 with rbit := 7 }
     s.tcur.toNat < s.ncnt.toNat ∧ s.kind 2 = .internal ∧ s.walk s.tcur.toNat (s.inCode s.readPos s.bitsLeft) = some 2 ∧
     2 ≠ s.root.toNat) := by decide

/-- EX-state with node 3 made INVALID (95 section 3.2). -/
def exBroken (input : List Byte) : State :=
  { ex input 16 with nodeMem := cells [1, 0x0000000200000001, 2, 0x41, 1, 0x0000000400000003, 0, 0x42, 3, 0x7FFFFFFFFFFFFFFF] }

/-- DsymInconsistency: after one bit, and at once. -/
theorem witness_DsymInconsistency :
    (let s := { exBroken [0x20] with rbit := 2 }
     s.err = 0 ∧ s.flags = 0 ∧ s.rlim.toNat ≤ s.size.inSize.val ∧ s.ncnt.toNat ≤ s.size.nNodes.val ∧
     s.readPos + 1 + 1 ≤ 8 * s.rlim.toNat ∧ s.tcur.toNat < s.ncnt.toNat ∧ s.kind 2 = .internal ∧
     s.walk s.tcur.toNat (s.inCode s.readPos 1) = some 2 ∧ s.NoWay 2 (s.inBit (s.readPos + 1))) ∧
    (let s := { ex [0x20] 0 with tcur := 7 }
     s.walk s.tcur.toNat (s.inCode s.readPos 0) = some 7 ∧ s.NoWay 7 (s.inBit (s.readPos + 0))) := by decide

/-- The symbols 0x41, 0x42 spelled in tree EX. -/
theorem ex_spells {s : State} (h : s.nodeMem = cells exWords) (hn : s.ncnt = 5) (hr : s.root = 0) :
    s.Spells [0x41, 0x42] [false, true, false] :=
  State.spells_congr (s := ex [] 0) h.symm hn.symm hr.symm
    ⟨[false], [true, false], 1, rfl, by decide, by decide, by decide, [true, false], [], 3, rfl, by decide, by decide, by decide, rfl⟩

/-- The symbols 0x41, 0x42 read from ROOT of tree EX; and, from node 2, 0x42 then 0x41. -/
theorem ex_decodes {s : State} (h : s.nodeMem = cells exWords) (hn : s.ncnt = 5) (hr : s.root = 0) :
    s.Decodes 0 [0x41, 0x42] [false, true, false] 0 ∧ s.Decodes 2 [0x42, 0x41] [false, false] 0 :=
  ⟨State.decodes_congr (s := ex [] 0) h.symm hn.symm hr.symm (State.decodes_of_spells (by decide) (ex_spells rfl rfl rfl)),
    State.decodes_congr (s := ex [] 0) h.symm hn.symm hr.symm
      ⟨[false], [false], 3, rfl, by decide, by decide, by decide, by decide,
        [false], [], 1, rfl, by decide, by decide, by decide, by decide, rfl, rfl⟩⟩

/-- DecodeWritesTheStreamUpToEof: the input 0 10 11 and padding from ROOT; the input 0 0 11 from node 2; a single EOF code. -/
theorem witness_DecodeWritesTheStreamUpToEof :
    (let s := ex [0x58] 2
     s.DecodeArmed ∧ s.Decodes s.tcur.toNat [0x41, 0x42] [false, true, false] 0 ∧ 0 < s.ncnt.toNat ∧ s.Leads 0 [true, true] 4 ∧
     s.kind 4 = .eof ∧ s.readPos + 5 ≤ 8 * s.rlim.toNat ∧ s.inCode s.readPos 5 = [false, true, false, true, true] ∧
     s.FitsPadded (symbolStream s.symw.toNat [0x41, 0x42]).length) ∧
    (let s := { ex [0x30] 2 with tcur := 2 }
     s.DecodeArmed ∧ s.Decodes s.tcur.toNat [0x42, 0x41] [false, false] 0 ∧ s.readPos + 4 ≤ 8 * s.rlim.toNat ∧
     s.inCode s.readPos 4 = [false, false, true, true] ∧ s.FitsPadded (symbolStream s.symw.toNat [0x42, 0x41]).length) ∧
    (let s := { ex [0x80] 0 with tcur := 2 }
     s.DecodeArmed ∧ s.Decodes s.tcur.toNat [] [] 2 ∧ 2 < s.ncnt.toNat ∧ s.Leads 2 [true] 4 ∧ s.kind 4 = .eof ∧
     s.readPos + 1 ≤ 8 * s.rlim.toNat ∧ s.inCode s.readPos 1 = [true] ∧ s.FitsPadded 0) :=
  ⟨⟨by decide, (ex_decodes rfl rfl rfl).1, by decide, by decide, by decide, by decide, by decide, by decide⟩,
    ⟨by decide, (ex_decodes rfl rfl rfl).2, by decide, by decide, by decide⟩,
    by decide, ⟨rfl, rfl⟩, by decide, by decide, by decide, by decide, by decide, by decide⟩

/-- DecodeEndsWithoutEof: the window 5 bits into a byte that ends 0 10; two bits 0 0 left with the cursor on node 2; no bit left; a loop
back to ROOT; and EOFSEEN set. -/
theorem witness_DecodeEndsWithoutEof :
    (let s := { ex [0x02] 16 with rbit := 5 }
     s.DecodeArmed ∧ s.Decodes s.tcur.toNat [0x41, 0x42] [false, true, false] 0 ∧ s.walk 0 [] = some s.root.toNat ∧
     3 = s.bitsLeft ∧ s.inCode s.readPos 3 = [false, true, false] ∧ s.FitsPadded (symbolStream s.symw.toNat [0x41, 0x42]).length) ∧
    (let s := { ex [0x00] 16 with rbit := 6, tcur := 2 }
     s.DecodeArmed ∧ s.Decodes s.tcur.toNat [0x42, 0x41] [false, false] 0 ∧ 2 = s.bitsLeft ∧
     s.inCode s.readPos 2 = [false, false] ∧ s.FitsPadded (symbolStream s.symw.toNat [0x42, 0x41]).length) ∧
    (let s := ex [] 0
     s.DecodeArmed ∧ s.Decodes s.tcur.toNat [] [] 0 ∧ s.walk 0 [] = some s.root.toNat ∧ 0 = s.bitsLeft ∧ s.FitsPadded 0) ∧
    (let s := { ex [0x01] 0 with rbit := 7, nodeMem := cells [1, 0x0000000000000001, 2, 0x41] }
     s.DecodeArmed ∧ s.walk 0 [true] = some s.root.toNat ∧ 0 < s.ncnt.toNat ∧ s.kind s.root.toNat = .internal ∧ 1 = s.bitsLeft ∧
     s.inCode s.readPos 1 = [true]) ∧
    (let s := { ex [0x16] 16 with flags := 1, wbit := 3, wacc := 0xA0 }
     s.err = 0 ∧ 1 ≤ s.symw.toNat ∧ s.symw.toNat ≤ 64 ∧ s.flags = 1 ∧ s.LimitsLegal ∧ s.AccClear ∧ s.FitsPadded 0) :=
  ⟨⟨by decide, (ex_decodes rfl rfl rfl).1, by decide, by decide, by decide, by decide⟩,
    ⟨by decide, (ex_decodes rfl rfl rfl).2, by decide, by decide, by decide⟩,
    ⟨by decide, ⟨rfl, rfl⟩, by decide, by decide, by decide⟩, by decide, by decide⟩

/-- UnsetWidthIsUnsupported: both sides of the legal range. -/
theorem witness_UnsetWidthIsUnsupported : State.reset.err = 0 ∧ State.reset.symw.toNat < 1 ∧
    64 < ({ State.reset with symw := 65 }).symw.toNat := by decide

/-- DecodeInputFaultsKeepTheSymbols: after 0 10 the input ends on node 2; no bit left with the cursor on node 2; in the broken tree,
after 0, movement from node 2 on 0 is impossible; and at once from a cursor that is no node. -/
theorem witness_DecodeInputFaultsKeepTheSymbols :
    (let s := { ex [0x05] 16 with rbit := 4 }
     s.DecodeArmed ∧ s.Decodes s.tcur.toNat [0x41, 0x42] [false, true, false] 0 ∧
     s.Fits (symbolStream s.symw.toNat [0x41, 0x42]).length ∧ s.walk 0 [true] = some 2 ∧ 0 < s.ncnt.toNat ∧ s.kind 2 = .internal ∧
     2 ≠ s.root.toNat ∧ 4 = s.bitsLeft ∧ s.inCode s.readPos 4 = [false, true, false, true]) ∧
    (let s := { ex [] 0 with tcur := 2 }
     s.DecodeArmed ∧ s.Decodes s.tcur.toNat [] [] 2 ∧ s.Fits 0 ∧ s.walk 2 [] = some 2 ∧ 2 ≠ s.root.toNat ∧ 0 = s.bitsLeft) ∧
    (let s := exBroken [0x40]
     s.DecodeArmed ∧ s.Decodes s.tcur.toNat [0x41] [false] 0 ∧ s.Fits (symbolStream s.symw.toNat [0x41]).length ∧
     s.walk 0 [true] = some 2 ∧ 0 < s.ncnt.toNat ∧ s.kind 2 = .internal ∧ s.NoWay 2 false ∧ s.readPos + 3 ≤ 8 * s.rlim.toNat ∧
     s.inCode s.readPos 3 = [false, true, false]) ∧
    (let s := { ex [0x40] 0 with tcur := 7 }
     s.DecodeArmed ∧ s.Decodes s.tcur.toNat [] [] 7 ∧ s.walk 7 [] = some 7 ∧ s.NoWay 7 false ∧ s.readPos + 1 ≤ 8 * s.rlim.toNat ∧
     s.inCode s.readPos 1 = [false]) :=
  ⟨⟨by decide, (ex_decodes rfl rfl rfl).1, by decide, by decide, by decide, by decide, by decide, by decide, by decide⟩,
    ⟨by decide, ⟨rfl, rfl⟩, by decide, by decide, by decide, by decide⟩,
    ⟨by decide, ⟨[false], [], 1, rfl, by decide, by decide, by decide, by decide, rfl, rfl⟩, by decide, by decide, by decide, by decide,
      by decide, by decide, by decide⟩,
    by decide, ⟨rfl, rfl⟩, by decide, by decide, by decide, by decide⟩

/-- DecodeOverrunKeepsTheSymbols: a third symbol that does not fit below WLIM = 2; the first, from node 2, that does not fit below 0; a
final flush with WBYTE at WLIM after the EOF code, after an end between symbols, and with EOFSEEN set. -/
theorem witness_DecodeOverrunKeepsTheSymbols :
    (let s := ex [0x40] 2
     s.DecodeArmed ∧ s.Decodes s.tcur.toNat [0x41, 0x42] [false, true, false] 0 ∧
     s.Fits (symbolStream s.symw.toNat [0x41, 0x42]).length ∧ 0 < s.ncnt.toNat ∧ s.Leads 0 [false] 1 ∧ s.kind 1 = .leaf ∧
     s.readPos + 4 ≤ 8 * s.rlim.toNat ∧ s.inCode s.readPos 4 = [false, true, false, false] ∧
     ¬ s.Fits (symbolStream s.symw.toNat ([0x41, 0x42] ++ [s.payload 1])).length) ∧
    (let s := { ex [0x40] 0 with tcur := 2 }
     s.DecodeArmed ∧ s.Decodes s.tcur.toNat [] [] 2 ∧ s.Fits 0 ∧ 2 < s.ncnt.toNat ∧ s.Leads 2 [false] 3 ∧ s.kind 3 = .leaf ∧
     s.readPos + 1 ≤ 8 * s.rlim.toNat ∧ s.inCode s.readPos 1 = [false] ∧ ¬ s.Fits (symbolStream s.symw.toNat [s.payload 3]).length) ∧
    (let s := { ex [0x58] 1 with symw := 6 }
     s.DecodeArmed ∧ s.Decodes s.tcur.toNat [0x41, 0x42] [false, true, false] 0 ∧
     s.Fits (symbolStream s.symw.toNat [0x41, 0x42]).length ∧ ¬ s.FitsPadded (symbolStream s.symw.toNat [0x41, 0x42]).length ∧
     s.Leads 0 [true, true] 4 ∧ s.kind 4 = .eof ∧ s.readPos + 5 ≤ 8 * s.rlim.toNat ∧
     s.inCode s.readPos 5 = [false, true, false, true, true]) ∧
    (let s := { ex [0x02] 1 with symw := 6, rbit := 5 }
     s.DecodeArmed ∧ s.Decodes s.tcur.toNat [0x41, 0x42] [false, true, false] 0 ∧
     ¬ s.FitsPadded (symbolStream s.symw.toNat [0x41, 0x42]).length ∧ s.walk 0 [] = some s.root.toNat ∧ 3 = s.bitsLeft ∧
     s.inCode s.readPos 3 = [false, true, false]) ∧
    (let s := { ex [0x16] 0 with flags := 1, wbit := 3, wacc := 0xA0 }
     s.err = 0 ∧ 1 ≤ s.symw.toNat ∧ s.symw.toNat ≤ 64 ∧ s.flags = 1 ∧ ¬ s.FitsPadded 0) :=
  ⟨⟨by decide, (ex_decodes rfl rfl rfl).1, by decide, by decide, by decide, by decide, by decide, by decide, by decide⟩,
    ⟨by decide, ⟨rfl, rfl⟩, by decide, by decide, by decide, by decide, by decide, by decide, by decide⟩,
    ⟨by decide, (ex_decodes rfl rfl rfl).1, by decide, by decide, by decide, by decide, by decide, by decide⟩,
    ⟨by decide, (ex_decodes rfl rfl rfl).1, by decide, by decide, by decide, by decide⟩, by decide⟩

/-- TreeCheckDecidesWellFormedness, CodesAreRootPaths: tree EX passes, the reset state does not. -/
theorem witness_CodesAreRootPaths : wfTree (ex [] 16) = true ∧ wfTree State.reset = false := by decide

/-- CodesArePrefixFree: two leaves of tree EX, and their codes. -/
theorem witness_CodesArePrefixFree : (ex [] 16).Leads 0 [true, false] 3 ∧ (ex [] 16).kind 3 ≠ .internal ∧
    (ex [] 16).Leads 0 [true, false] 3 ∧ wfTree (ex [] 16) = true ∧ IsCode (ex [] 16) [true, false] ∧ IsCode (ex [] 16) [true, true] :=
  ⟨by decide, by decide, by decide, by decide, .inl ⟨0x42, by decide⟩, .inr (by decide)⟩

/-- EveryBitSequenceBeginsWithOneCode: tree EX, five bits, a code, the nodes reached: two data leaves. -/
theorem witness_EveryBitSequenceBeginsWithOneCode : wfTree (ex [] 16) = true ∧
    (ex [] 16).ncnt.toNat ≤ [true, false, false, true, true].length ∧ IsCode (ex [] 16) [true, false] ∧
    (reachedNodes (ex [] 16)).map (fun l => (dataLeaves l).length) = some 2 :=
  ⟨by decide, by decide, .inl ⟨0x42, by decide⟩, by decide⟩

/-- EncsymCompletes and EnceofCompletes: a code that completes the last byte below WLIM. -/
theorem witness_EncsymCompletes :
    let s := { ex [] 1 with wbit := 6, wacc := 0xA8 }
    s.err = 0 ∧ wfTree s = true ∧ s.wlim.toNat ≤ s.size.outSize.val ∧ s.AccClear ∧ s.Leads s.root.toNat [true, false] 3 ∧
    s.kind 3 = .leaf ∧ s.payload 3 = 0x42 ∧ s.Fits 2 := by decide

theorem witness_EnceofCompletes :
    let s := { ex [] 1 with wbit := 6, wacc := 0xA8 }
    s.err = 0 ∧ wfTree s = true ∧ s.wlim.toNat ≤ s.size.outSize.val ∧ s.AccClear ∧ s.Leads s.root.toNat [true, true] 4 ∧
    s.kind 4 = .eof ∧ s.Fits 2 := by decide

/-- The data leaves of tree EX hold 0x41 and 0x42 and no other symbol. -/
theorem ex_symbols (input : List Byte) (wlim : BitVec 61) (v : Word) (h1 : v ≠ 0x41) (h2 : v ≠ 0x42) (c : Code) (d : Nat)
    (h : (ex input wlim).Leads (ex input wlim).root.toNat c d) (hk : (ex input wlim).kind d = .leaf) :
    (ex input wlim).payload d ≠ v := by
  have hd : d < 5 := State.walk_below (s := ex input wlim) (by decide : 0 < 5) h.2
  have key : ∀ d, d < 5 → (ex [] 0).kind d = .leaf → (ex [] 0).payload d = 0x41 ∨ (ex [] 0).payload d = 0x42 := by decide
  rcases key d hd ((State.kind_congr rfl d).trans hk) with hp | hp
  · exact fun he => h1 (he.symm.trans ((State.payload_congr rfl d).trans hp))
  · exact fun he => h2 (he.symm.trans ((State.payload_congr rfl d).trans hp))

/-- CodeCommandFaultsChangeNothing: the value EOFVAL has no code; codes that do not fit with WBYTE at WLIM. -/
theorem witness_CodeCommandFaultsChangeNothing : (ex [] 16).err = 0 ∧ wfTree (ex [] 16) = true ∧
    (∀ c d, (ex [] 16).Leads (ex [] 16).root.toNat c d → (ex [] 16).kind d = .leaf → (ex [] 16).payload d ≠ 0x7FFFFFFFFFFFFFFF) ∧
    (let s := { ex [] 0 with wbit := 6, wacc := 0xA8 }
     s.Leads s.root.toNat [true, false] 3 ∧ ¬ s.Fits 2 ∧ s.kind 3 = .leaf ∧ s.payload 3 = 0x42 ∧
     s.Leads s.root.toNat [true, true] 4 ∧ s.kind 4 = .eof) :=
  ⟨by decide, by decide, fun c d h hk => ex_symbols [] 16 _ (by decide) (by decide) c d h hk, by decide⟩

/-- Symbols of eight bits. -/
theorem ex_fits {s : State} (h : s.symw = 8) : ∀ v ∈ [0x41, 0x42] ++ [(0x43 : Word)], v.toNat < 2 ^ s.symw.toNat := by
  simp [h]

/-- EncodeWritesThePayload: the symbols 0x41 and 0x42. -/
theorem witness_EncodeWritesThePayload : (ex [0x41, 0x42] 1).EncodeReady ∧ (ex [0x41, 0x42] 1).WindowHolds [0x41, 0x42] ∧
    (ex [0x41, 0x42] 1).Spells [0x41, 0x42] [false, true, false] ∧
    (ex [0x41, 0x42] 1).Leads (ex [0x41, 0x42] 1).root.toNat [true, true] 4 ∧ (ex [0x41, 0x42] 1).kind 4 = .eof ∧
    (ex [0x41, 0x42] 1).FitsPadded ([false, true, false] ++ [true, true]).length :=
  ⟨by decide +kernel,
    ⟨by decide, by decide, by decide +kernel, fun v hv => ex_fits rfl v (List.mem_append_left _ hv)⟩,
    ex_spells rfl rfl rfl, by decide +kernel, by decide +kernel, by decide +kernel⟩

/-- EncodeFaultsAreSymbolPrecise: a third symbol without a code; a third symbol whose code does not fit; an EOF code that does not fit;
a final flush that does not. -/
theorem witness_EncodeFaultsAreSymbolPrecise :
    (let s := ex [0x41, 0x42, 0x43] 16
     s.EncodeReady ∧ s.Spells [0x41, 0x42] [false, true, false] ∧ s.Fits 3 ∧ s.readPos + 3 * s.symw.toNat ≤ 8 * s.rlim.toNat ∧
     s.inCode s.readPos (3 * s.symw.toNat) = symbolStream s.symw.toNat ([0x41, 0x42] ++ [0x43]) ∧
     (∀ u ∈ [0x41, 0x42] ++ [(0x43 : Word)], u.toNat < 2 ^ s.symw.toNat) ∧
     ∀ c d, s.Leads s.root.toNat c d → s.kind d = .leaf → s.payload d ≠ 0x43) ∧
    (let s := { ex [0x41, 0x42, 0x42] 0 with wbit := 3, wacc := 0xA0 }
     s.EncodeReady ∧ s.Spells [0x41, 0x42] [false, true, false] ∧ s.Fits 3 ∧ s.Leads s.root.toNat [true, false] 3 ∧
     s.payload 3 = 0x42 ∧ ¬ s.Fits ([false, true, false] ++ [true, false]).length) ∧
    (let s := { ex [0x41, 0x42] 0 with wbit := 3, wacc := 0xA0 }
     s.WindowHolds [0x41, 0x42] ∧ s.Leads s.root.toNat [true, true] 4 ∧ ¬ s.Fits ([false, true, false] ++ [true, true]).length) ∧
    (let s := ex [0x41, 0x42] 0
     s.WindowHolds [0x41, 0x42] ∧ s.Fits ([false, true, false] ++ [true, true]).length ∧
     ¬ s.FitsPadded ([false, true, false] ++ [true, true]).length) :=
  ⟨⟨by decide +kernel, ex_spells rfl rfl rfl, by decide +kernel, by decide +kernel, by decide +kernel,
      ex_fits rfl,
      fun c d h hk => ex_symbols [0x41, 0x42, 0x43] 16 _ (by decide +kernel) (by decide +kernel) c d h hk⟩,
    ⟨by decide +kernel, ex_spells rfl rfl rfl, by decide +kernel, by decide +kernel, by decide +kernel, by decide +kernel⟩,
    ⟨⟨by decide, by decide, by decide +kernel, fun v hv => ex_fits rfl v (List.mem_append_left _ hv)⟩,
      by decide +kernel, by decide +kernel⟩,
    ⟨by decide, by decide, by decide +kernel, fun v hv => ex_fits rfl v (List.mem_append_left _ hv)⟩,
      by decide +kernel, by decide +kernel⟩

/-- PackerNeedsAWellFormedTree: no tree at reset. -/
theorem witness_PackerNeedsAWellFormedTree : ({ State.reset with symw := 64 }).err = 0 ∧ ¬ ({ State.reset with symw := 64 }).TreeWF ∧
    1 ≤ ({ State.reset with symw := 64 }).symw.toNat ∧ ({ State.reset with symw := 64 }).symw.toNat ≤ 64 :=
  ⟨by decide, fun h => absurd h.1.1 (by decide), by decide, by decide⟩

/-- EncodeEqualsTheScript: the source's example. -/
theorem witness_EncodeEqualsTheScript :
    ∃ t, exec .encode (ex [0x41, 0x41, 0x41, 0x42] 16) = .next t ∧ t.rsp = some ⟨.done, 4⟩ :=
  ⟨_, rfl, by decide⟩

/-- What ENCODE leaves of the source's example, and a decoder of it. -/
def p1End : State := after (ex [0x41, 0x41, 0x41, 0x42] 16) 0x32000000000000000000

def p2Start : State := { ex [0x16] 16 with rlim := p1End.wbyte }

/-- DecodeInvertsEncode. -/
theorem witness_DecodeInvertsEncode : exec .encode (ex [0x41, 0x41, 0x41, 0x42] 16) = .next p1End ∧ p1End.rsp = some ⟨.done, 4⟩ ∧
    (ex [0x41, 0x41, 0x41, 0x42] 16).AccClear ∧ (ex [0x41, 0x41, 0x41, 0x42] 16).wbit = 0 ∧
    p2Start.nodeMem = (ex [0x41, 0x41, 0x41, 0x42] 16).nodeMem ∧ p2Start.root = (ex [0x41, 0x41, 0x41, 0x42] 16).root ∧
    p2Start.ncnt = (ex [0x41, 0x41, 0x41, 0x42] 16).ncnt ∧ p2Start.symw = (ex [0x41, 0x41, 0x41, 0x42] 16).symw ∧
    p2Start.DecodeReady ∧ p2Start.readPos = 8 * (ex [0x41, 0x41, 0x41, 0x42] 16).wbyte.toNat ∧ p2Start.rlim = p1End.wbyte ∧
    (∀ a, 0 ≤ a → a < p1End.wbyte.toNat → p2Start.inByte a = p1End.outByte a) ∧
    p2Start.FitsPadded (p1End.readPos - (ex [0x41, 0x41, 0x41, 0x42] 16).readPos) := by
  refine ⟨rfl, by decide, by decide, by decide, by decide, by decide, by decide, by decide, by decide, by decide, by decide, ?_,
    by decide⟩
  have h : ∀ a, a < 1 → p2Start.inByte a = p1End.outByte a := by decide
  intro a _ ha
  exact h a (Nat.lt_of_lt_of_eq ha (by decide))

/-- InsertionOrderDoesNotMatter: two orders of two symbols. -/
theorem witness_InsertionOrderDoesNotMatter : FreqTable.new 8 = .ok ⟨⟨8, by decide⟩, none, []⟩ ∧
    [((0x41 : Word), (3 : Word)), (0x42, 1)].Perm [(0x42, 1), (0x41, 3)] ∧
    ([((0x41 : Word), (3 : Word)), (0x42, 1)].map Prod.fst).Nodup := by decide

end Sys2Proof.Tests
end

section
/-! SUPPORT. The invariant of spec/10_state.md R29: the changes that keep it, said once for the commands that only move cursors, then
for a whole step; and where a step from it can stop (R47, U5). -/

namespace Sys2Proof.Machine

/-! ## The commands that move cursors -/

/-- RESET, SETREG, WRNODE and RDNODE: the commands that write more than cursors, the partial byte, OUT and FLAGS (R140 to R144). -/
def systemWrite (i : Instr) : Bool :=
  match i with
  | .reset | .setreg _ _ | .wrnode _ | .rdnode => true
  | _ => false

/-- The changes that every other command is made of: those of the decoder and of the packer, a read cursor moved back, EOFSEEN
cleared. The property is kept by each. -/
structure KeptByCursors (P : State → Prop) : Prop extends KeptByDescent P, KeptByWrites P where
  back : ∀ s q, P s → q ≤ s.readPos → P (s.setReadPos q)
  clear : ∀ s, P s → P s.clearEofSeen

/-- A symbol read and put back leaves the state as it was (R124). -/
theorem State.backTo_self (s : State) (q : Nat) : (s.setReadPos q).backTo s = s := rfl

/-- What the order of checks ends in: the gate's refusal, a fault on the state found, or the body's end. -/
theorem issue_endsIn {P : State → Prop} {i : Instr} {s t : State} {body : Outcome} (h : P s)
    (hb : body = .next t → EndsIn P t) (ht : issue i s body = .next t) : t = s.refuseSticky ∨ EndsIn P t := by
  rcases issue_cases i s body with ⟨h1, -⟩ | ⟨h1, -⟩ | ⟨h1, -⟩
  · exact .inl (Host.Outcome.next.inj (ht.symm.trans h1))
  · cases ht.symm.trans h1
    exact .inr (endsIn_raise _ _ h)
  · exact .inr (hb (h1.symm.trans ht))

/-- The precondition of the packer passes a next state on from its body. -/
theorem whenTree_next {s t : State} {body : Outcome} (h : whenTree s body = .next t) : wfTree s = true ∧ body = .next t := by
  unfold whenTree at h
  split at h
  · exact ⟨‹_›, h⟩
  · cases h

/-- A property kept by every change of a cursor is kept by every command that only moves cursors. -/
theorem exec_keeps {P : State → Prop} (hP : KeptByCursors P) {i : Instr} (hi : systemWrite i = false) {s t : State} (h : P s)
    (ht : exec i s = .next t) : t = s.refuseSticky ∨ EndsIn P t := by
  have hD := hP.toKeptByDescent
  have hW := hP.toKeptByWrites
  cases i
  case reset | setreg | wrnode | rdnode => cases hi
  case getreg r => exact issue_endsIn h (fun he => by cases he; exact endsIn_done _ h (by simp)) ht
  case rdbits n => exact issue_endsIn h (endsIn_answer (by simp) (getBits_all h fun hq => hD.read s _ h hq)) ht
  case wrbits n v => exact issue_endsIn h (endsIn_answer (by simp) (put_all h (hW.put s _ h))) ht
  case rewind n =>
    refine issue_endsIn h (fun he => ?_) ht
    split at he
    · cases he
      exact endsIn_raise _ _ h
    · cases he
      exact endsIn_done _ (hP.back s _ h (Nat.sub_le _ _)) (by simp)
  case hasmore n => exact issue_endsIn h (fun he => by cases he; exact endsIn_done _ h (by simp)) ht
  case flush => exact issue_endsIn h (endsIn_answer (by simp) (flushPad_all h (hW.flush s h))) ht
  case treset => exact issue_endsIn h (fun he => by cases he; exact endsIn_done _ (hP.clear _ (hD.root s h)) (by simp)) ht
  case tstep b =>
    exact issue_endsIn h (endsIn_answer (by intro a; cases a <;> simp [Arrival.stat])
      (descend_all h (fun d => hD.move s d h) (hD.root s h) (hD.eof _ (hD.root s h)))) ht
  case dsym =>
    exact issue_endsIn h (endsIn_answer (by intro a; cases a <;> simp [Answer.stat]) (decodeOne_all hD h)) ht
  case decode =>
    refine issue_endsIn h (fun he => ?_) ht
    split at he
    · cases he
      exact endsIn_raise _ _ h
    · have hall := decodeLoop_all hD hW (s.bitsLeft + 1) 0 h
      rcases Res.answer_next he with ⟨a, u, hu, rfl⟩ | ⟨c, info, u, hu, rfl⟩
      · refine endsIn_done _ (Res.all_ok hall hu) ?_
        rcases decodeLoop_stat _ _ hu with hs | hs <;> simp [hs]
      · exact endsIn_raise _ _ (Res.all_raise hall hu)
  case encsym v =>
    refine issue_endsIn h (fun he => ?_) ht
    replace he := (whenTree_next he).2
    split at he
    · cases he
      exact endsIn_raise _ _ h
    · exact endsIn_answer (by simp) (putCode_all hW _ h) he
  case enceof => exact issue_endsIn h (fun he => endsIn_answer (by simp) (putCode_all hW _ h) (whenTree_next he).2) ht
  case encode =>
    refine issue_endsIn h (fun he => ?_) ht
    split at he
    · cases he
      exact endsIn_raise _ _ h
    · exact endsIn_answer (by simp) (Res.all_andThen
        (encodeLoop_all hW (fun u q hu hq => hD.read u q hu hq) (fun _ hu => hu) _ _ h)
        fun _ _ hu => encodeEnds_all hW _ hu) (whenTree_next he).2

/-! ## What keeps the invariant -/

theorem State.LimitsLegal.of_inv {s : State} (h : s.Inv) : s.LimitsLegal := by
  obtain ⟨-, ⟨-, -, hrlim, -, hwlim, -, -, -, hncnt⟩, -⟩ := h
  exact ⟨hrlim, hwlim, hncnt⟩

/-- The read cursor may stand at any bit position up to the end of IN. -/
theorem State.inv_setReadPos {s : State} {q : Nat} (h : s.Inv) (hq : q / 8 ≤ s.size.inSize.val) : (s.setReadPos q).Inv := by
  obtain ⟨hz, ⟨h1, -, hregs⟩, hrest⟩ := h
  refine ⟨hz, ⟨h1, ?_, hregs⟩, hrest⟩
  rw [State.setReadPos_rbyte, BitVec.toNat_ofNat]
  exact Nat.le_trans (Nat.mod_le _ _) hq

theorem State.inv_setTcur {s : State} {i : BitVec 32} (h : s.Inv) (hi : i.toNat < s.size.nNodes.val) : (s.setTcur i).Inv := by
  obtain ⟨hz, ⟨h1, h2, h3, h4, h5, h6, -, hregs⟩, hrest⟩ := h
  exact ⟨hz, ⟨h1, h2, h3, h4, h5, h6, hi, hregs⟩, hrest⟩

/-- `put`'s loop keeps the invariant where its bytes fit. -/
theorem State.inv_putBits {s : State} {c : Code} (h : s.Inv) (hf : s.Fits c.length)
    (ho : s.bytesFor c.length = 0 ∨ s.wbyte.toNat + s.bytesFor c.length ≤ s.size.outSize.val) : (s.putBits c).Inv := by
  obtain ⟨hz, ⟨h1, h2, h3, hwb, h5, h6, h7, h8, h9⟩, hacc, herr, m1, m2, m3, m4, m5, m6⟩ := h
  have hlt := State.fits_lt hf
  obtain ⟨hbyte, -, hacc', -⟩ := appended_putBits c hacc hlt
  refine ⟨by simpa using hz, ?_, hacc', by simpa [State.ErrLegal] using herr, ?_⟩
  · have : (s.putBits c).wbyte.toNat ≤ s.size.outSize.val := by omega
    simpa [State.RegsLegal] using ⟨h1, h2, h3, this, h5, h6, h7, h8, h9⟩
  · have hwf := putBits_wf c m3
    have hin := putBits_within c hacc hlt ho m4
    simpa [State.MemoriesLegal] using ⟨m1, m2, hwf, hin, m5, m6⟩

/-- The partial byte stored and cleared keeps the invariant. -/
theorem State.inv_flush {s : State} (h : s.Inv) (ho : s.wbyte.toNat < s.size.outSize.val) :
    ((s.storeOut s.wbyte.toNat s.wacc).setWrite (s.wbyte + 1) 0 0).Inv := by
  obtain ⟨hz, ⟨h1, h2, h3, -, h5, h6, h7, h8, h9⟩, -, herr, hmem⟩ := h
  refine ⟨hz, ⟨h1, h2, h3, ?_, h5, h6, h7, h8, h9⟩, fun j _ => ?_, herr, State.memories_storeOut hmem ho⟩
  · show (s.wbyte + 1).toNat ≤ s.size.outSize.val
    rw [BitVec.toNat_add]
    exact Nat.le_trans (Nat.mod_le _ _) ho
  · simp

theorem State.inv_keptByCursors : KeptByCursors State.Inv where
  read s q h hq := by
    have := State.LimitsLegal.of_inv h
    exact State.inv_setReadPos h (by omega)
  move s d h hd hlt := by
    have := State.LimitsLegal.of_inv h
    refine State.inv_setTcur h ?_
    rw [BitVec.toNat_ofNat, Nat.mod_eq_of_lt hlt]
    omega
  root s h := by
    have ⟨_, ⟨_, _, _, _, _, hroot, _⟩, _⟩ := h
    exact State.inv_setTcur h hroot
  eof s h := h
  put s c h hf ho := State.inv_putBits h hf ho
  flush s h _ _ ho := State.inv_flush h ho
  back s q h hq := by
    have ⟨_, ⟨_, hrbyte, _⟩, _⟩ := h
    have := s.rbit.isLt
    refine State.inv_setReadPos h ?_
    unfold State.readPos at hq
    omega
  clear s h := h

theorem State.inv_raise {s : State} (c : FaultCode) (v : Word) (h : s.Inv) : (s.raise c v).Inv := by
  have hc := FaultCode.code_range c
  obtain ⟨hz, hregs, hacc, herr, hmem⟩ := h
  rw [State.raise_eq]
  refine ⟨hz, hregs, hacc, ?_, hmem⟩
  show State.ErrLegal { s with err := _, .. }
  unfold State.ErrLegal
  split
  · exact .inr hc
  · exact herr

/-- An answer or a fault on a state of the invariant leaves one. -/
theorem State.inv_of_endsIn {t : State} (h : EndsIn State.Inv t) : t.Inv := by
  obtain ⟨u, hu, ⟨st, v, -, rfl⟩ | ⟨c, v, rfl⟩⟩ := h
  · exact hu
  · exact State.inv_raise c v hu

theorem State.inv_resetRegs {s : State} (h : s.Inv) : s.resetRegs.Inv := by
  obtain ⟨hz, -, -, -, hmem⟩ := h
  have hn : 1 ≤ s.size.nNodes.val := of_decide_eq_true hz
  exact ⟨hz, ⟨by simp, by simp, by simp, by simp, by simp, hn, hn, by simp, by simp⟩, fun j _ => by simp, .inl rfl, hmem⟩

/-- A value cut to a register's width is no larger. -/
theorem toNat_setWidth_le (v : Word) (n : Nat) : (v.setWidth n).toNat ≤ v.toNat := by
  rw [BitVec.toNat_setWidth]
  exact Nat.mod_le _ _

/-- SETREG keeps the invariant: it writes only values in the register's legal range (R141). -/
theorem State.inv_writeReg {s : State} {r : Reg} {v : Word} (h : s.Inv) (hv : s.setregFault r v = none) :
    (s.writeReg r v).Inv := by
  obtain ⟨hz, ⟨h1, h2, h3, h4, h5, h6, h7, h8, h9⟩, hacc, hrest⟩ := h
  have hle := toNat_setWidth_le v
  cases r <;> simp only [State.setregFault, ite_eq_right_iff, reduceCtorEq, imp_false, not_or, not_lt, not_le] at hv
  case symw => exact ⟨hz, ⟨(hle 7).trans hv.2, h2, h3, h4, h5, h6, h7, h8, h9⟩, hacc, hrest⟩
  case rbyte => exact ⟨hz, ⟨h1, (hle 61).trans hv, h3, h4, h5, h6, h7, h8, h9⟩, hacc, hrest⟩
  case rbit => exact ⟨hz, ⟨h1, h2, h3, h4, h5, h6, h7, h8, h9⟩, hacc, hrest⟩
  case rlim => exact ⟨hz, ⟨h1, h2, (hle 61).trans hv, h4, h5, h6, h7, h8, h9⟩, hacc, hrest⟩
  case wbyte => exact ⟨hz, ⟨h1, h2, h3, (hle 61).trans hv, h5, h6, h7, h8, h9⟩, fun j _ => by simp [State.writeReg], hrest⟩
  case wlim => exact ⟨hz, ⟨h1, h2, h3, h4, (hle 61).trans hv, h6, h7, h8, h9⟩, hacc, hrest⟩
  case root =>
    exact ⟨hz, ⟨h1, h2, h3, h4, h5, (hle 32).trans_lt hv, (hle 32).trans_lt hv, h8, h9⟩, hacc, hrest⟩
  case naddr => exact ⟨hz, ⟨h1, h2, h3, h4, h5, h6, h7, (hle 33).trans hv, h9⟩, hacc, hrest⟩
  case ncnt => exact ⟨hz, ⟨h1, h2, h3, h4, h5, h6, h7, h8, (hle 32).trans hv⟩, hacc, hrest⟩

/-- NADDR below the end of NODE may be advanced. -/
theorem State.inv_nextNode {s : State} (h : s.Inv) (hn : s.naddr.toNat < 2 * s.size.nNodes.val) :
    (s.setNaddr (s.naddr + 1)).Inv := by
  obtain ⟨hz, ⟨h1, h2, h3, h4, h5, h6, h7, -, h9⟩, hrest⟩ := h
  refine ⟨hz, ⟨h1, h2, h3, h4, h5, h6, h7, ?_, h9⟩, hrest⟩
  rw [State.setNaddr_naddr, BitVec.toNat_add]
  exact Nat.le_trans (Nat.mod_le _ _) hn

theorem State.inv_storeNode {s : State} {a : Nat} {v : Word} (h : s.Inv) (ha : a < 2 * s.size.nNodes.val) :
    (s.storeNode a v).Inv := by
  obtain ⟨hz, hregs, hacc, herr, hmem⟩ := h
  exact ⟨hz, hregs, hacc, herr, State.memories_storeNode hmem ha⟩

/-- The own effect of RESET, SETREG, WRNODE and RDNODE keeps the invariant. -/
theorem Effect.inv {i : Instr} (hi : systemWrite i = true) {s t : State} (h : s.Inv) (ht : Effect i s t) : t.Inv := by
  cases i
  case getreg | rdbits | wrbits | rewind | hasmore | flush | treset | tstep | dsym | decode | encsym | enceof | encode => cases hi
  case reset =>
    cases ht
    exact State.inv_resetRegs h
  case setreg r v =>
    obtain ⟨hv, rfl⟩ := ht
    exact State.inv_writeReg h hv
  case wrnode w =>
    obtain ⟨rfl, hn⟩ := ht
    exact State.inv_nextNode (State.inv_storeNode h hn) hn
  case rdnode =>
    obtain ⟨rfl, hn⟩ := ht
    exact State.inv_nextNode h hn

/-- Every command keeps the invariant. -/
theorem exec_inv {i : Instr} {s t : State} (h : s.Inv) (ht : exec i s = .next t) : t.Inv := by
  cases hi : systemWrite i with
  | false =>
    rcases exec_keeps State.inv_keptByCursors hi h ht with rfl | he
    · exact h
    · exact State.inv_of_endsIn he
  | true =>
    rcases exec_effect ht with ⟨rfl, -⟩ | ⟨u, hu, he⟩
    · exact h
    · have hinv : u.Inv := by
        rcases hu with hu | ⟨rfl, -⟩
        · exact Effect.inv hi h hu
        · exact h
      exact State.inv_of_endsIn ⟨u, hinv, he⟩

theorem illegalPacket_inv {s : State} (p : Packet) (h : s.Inv) : (illegalPacket p s).Inv := by
  unfold illegalPacket
  split
  · exact h
  · exact State.inv_raise _ _ h

theorem runPacket_inv {p : Packet} {s t : State} (h : s.Inv) (ht : runPacket p s = .next t) : t.Inv := by
  cases hd : decode p with
  | legal i => exact exec_inv h ((runPacket_legal hd s).symm.trans ht)
  | illegal why =>
    cases (runPacket_illegal hd s).symm.trans ht
    exact illegalPacket_inv p h

theorem hostWriteIn_inv {a : Nat} {b : Byte} {s t : State} (h : s.Inv) (ht : hostWriteIn a b s = .next t) : t.Inv := by
  obtain ⟨hz, hregs, hacc, herr, hmem⟩ := h
  unfold hostWriteIn at ht
  split at ht <;> cases ht
  exact ⟨hz, hregs, hacc, herr, State.memories_storeIn hmem ‹_›⟩

theorem hostWriteOut_inv {a : Nat} {b : Byte} {s t : State} (h : s.Inv) (ht : hostWriteOut a b s = .next t) : t.Inv := by
  obtain ⟨hz, hregs, hacc, herr, hmem⟩ := h
  unfold hostWriteOut at ht
  split at ht <;> cases ht
  exact ⟨hz, hregs, hacc, herr, State.memories_storeOut hmem ‹_›⟩

/-- Every move of the host keeps the invariant. -/
theorem runMove_inv {m : HostMove} {s t : State} (h : s.Inv) (ht : runMove m s = .next t) : t.Inv := by
  cases m with
  | command p => exact runPacket_inv h ht
  | writeIn a b => exact hostWriteIn_inv h ht
  | writeOut a b => exact hostWriteOut_inv h ht
  | copyOutToIn src dst =>
    rw [runMove, hostCopy] at ht
    split at ht
    · cases ht
    · exact hostWriteIn_inv h ht

/-- Settles O8: the block waits, or the host's next move keeps the invariant. -/
theorem stepKeepsTheInvariant : Obligations.StepKeepsTheInvariant := by
  intro s t h ht
  cases hs : s.script with
  | nil =>
    cases (step_idle hs).symm.trans ht
    exact h
  | cons m rest =>
    have hrest : (s.setScript rest).Inv := h
    exact runMove_inv hrest ((step_move hs).symm.trans ht)

end Sys2Proof.Machine
end

section
/-! SUPPORT. Where a step can stop (spec/20_memory.md R47, spec/93_implementation_defined.md U5). -/

namespace Sys2Proof.Machine

/-- How a command may end: with a next state, or, if it is one of the packer's, refused because WF(tree) is false. -/
def AnswersOrLacksTree (i : Instr) (s : State) (o : Outcome) : Prop :=
  (∃ t, o = .next t) ∨ (o = .refused .treeNotWellFormed ∧ wfTree s = false ∧ i.op ∈ [Op.encsym, Op.enceof, Op.encode])

theorem issue_answers {i : Instr} {s : State} {body : Outcome} (hb : i.wellFormed = true → AnswersOrLacksTree i s body) :
    AnswersOrLacksTree i s (issue i s body) := by
  rcases issue_cases i s body with ⟨h, -⟩ | ⟨h, -⟩ | ⟨h, hw, -⟩
  · exact .inl ⟨_, h⟩
  · exact .inl ⟨_, h⟩
  · rw [h]
    exact hb hw

theorem answer_answers {i : Instr} {s : State} {α : Type} {r : Res α} {stat : α → Stat} {val : α → Word} (h : r.GoesOn) :
    AnswersOrLacksTree i s (r.answer stat val) :=
  .inl (Res.goesOn_answer h)

theorem whenTree_answers {i : Instr} {s : State} {body : Outcome} (hi : i.op ∈ [Op.encsym, Op.enceof, Op.encode])
    (hb : AnswersOrLacksTree i s body) : AnswersOrLacksTree i s (whenTree s body) := by
  unfold whenTree
  split
  · exact hb
  · exact .inr ⟨rfl, by simpa using ‹¬ wfTree s = true›, hi⟩

theorem putCode_goesOn (c : Code) {s : State} (h : s.LimitsLegal) : (putCode c s).GoesOn :=
  Res.goesOn_andThen (put_goesOn c h) fun _ _ _ f => by simp

theorem State.symw_pos_of_widthUnset {s : State} (h : ¬ s.widthUnset = true) : 1 ≤ s.symw.toNat := by
  simp only [State.widthUnset, decide_eq_true_eq, not_or, not_lt] at h
  exact h.1

/-- ENCODE's loop and its end go on where SYMW is configured and the limits are legal. -/
theorem encode_goesOn (k : Nat) {s : State} (hw : 1 ≤ s.symw.toNat) (h : s.LimitsLegal) :
    ((encodeLoop k 0 s).andThen encodeEnds).GoesOn := by
  refine Res.goesOn_andThen (encodeLoop_goesOn k 0 hw h) fun n s1 h1 => encodeEnds_goesOn n ?_
  exact Res.all_ok (encodeLoop_all limitsLegal_writes (fun _ _ h _ => h) (fun _ h => h) k 0 h) h1

/-- Where the limits are legal no command stops at an absent address, and only a packer command is refused, for want of a tree. -/
theorem exec_answers (i : Instr) {s : State} (h : s.LimitsLegal) : AnswersOrLacksTree i s (exec i s) := by
  cases i
  case reset => exact issue_answers fun _ => .inl ⟨_, rfl⟩
  case setreg r v =>
    refine issue_answers fun _ => ?_
    split <;> exact .inl ⟨_, rfl⟩
  case getreg r => exact issue_answers fun _ => .inl ⟨_, rfl⟩
  case wrnode w =>
    refine issue_answers fun _ => ?_
    split <;> exact .inl ⟨_, rfl⟩
  case rdnode =>
    refine issue_answers fun _ => ?_
    split <;> exact .inl ⟨_, rfl⟩
  case rdbits n =>
    refine issue_answers fun hw => answer_answers (getBits_goesOn ?_ h)
    exact (of_decide_eq_true hw : 1 ≤ n.toNat ∧ n.toNat ≤ 64).1
  case wrbits n v => exact issue_answers fun _ => answer_answers (put_goesOn _ h)
  case rewind n =>
    refine issue_answers fun _ => ?_
    split <;> exact .inl ⟨_, rfl⟩
  case hasmore n => exact issue_answers fun _ => .inl ⟨_, rfl⟩
  case flush => exact issue_answers fun _ => answer_answers (flushPad_goesOn h)
  case treset => exact issue_answers fun _ => .inl ⟨_, rfl⟩
  case tstep b => exact issue_answers fun _ => answer_answers (descend_goesOn b h)
  case dsym => exact issue_answers fun _ => answer_answers (decodeOne_goesOn h)
  case decode =>
    refine issue_answers fun _ => ?_
    split
    · exact .inl ⟨_, rfl⟩
    · exact answer_answers (decodeLoop_goesOn _ _ h)
  case encsym v =>
    refine issue_answers fun _ => whenTree_answers (by simp [Instr.op]) ?_
    split
    · exact .inl ⟨_, rfl⟩
    · exact answer_answers (putCode_goesOn _ h)
  case enceof => exact issue_answers fun _ => whenTree_answers (by simp [Instr.op]) (answer_answers (putCode_goesOn _ h))
  case encode =>
    refine issue_answers fun _ => ?_
    split
    · exact .inl ⟨_, rfl⟩
    · rename_i hw
      exact whenTree_answers (by simp [Instr.op]) (answer_answers (encode_goesOn _ (State.symw_pos_of_widthUnset hw) h))

/-- A packet ends in a next state, or it holds a packer command and there is no tree. -/
theorem runPacket_answers (p : Packet) {s : State} (h : s.LimitsLegal) :
    (∃ t, runPacket p s = .next t) ∨ (runPacket p s = .refused .treeNotWellFormed ∧ wfTree s = false ∧
      ∃ i, decode p = .legal i ∧ i.op ∈ [Op.encsym, Op.enceof, Op.encode]) := by
  cases hd : decode p with
  | illegal why => exact .inl ⟨_, runPacket_illegal hd s⟩
  | legal i =>
    rw [runPacket_legal hd]
    rcases exec_answers i h with ht | ⟨hr, hw, hi⟩
    · exact .inl ht
    · exact .inr ⟨hr, hw, i, rfl, hi⟩

/-- A write of IN at an address that exists is done. -/
theorem hostWriteIn_next {a : Nat} {s : State} (b : Byte) (h : a < s.size.inSize.val) :
    hostWriteIn a b s = .next (s.storeIn a b) := if_pos h

theorem hostWriteIn_fault {a : Nat} {s : State} (b : Byte) (h : s.size.inSize.val ≤ a) :
    hostWriteIn a b s = .fault (.noInByte a) := if_neg (by omega)

/-- A write of OUT at an address that exists is done. -/
theorem hostWriteOut_next {a : Nat} {s : State} (b : Byte) (h : a < s.size.outSize.val) :
    hostWriteOut a b s = .next (s.storeOut a b) := if_pos h

theorem hostWriteOut_fault {a : Nat} {s : State} (b : Byte) (h : s.size.outSize.val ≤ a) :
    hostWriteOut a b s = .fault (.noOutByte a) := if_neg (by omega)

/-- A copy from an address of OUT that exists is a write of IN. -/
theorem hostCopy_write {src : Nat} {s : State} (dst : Nat) (h : src < s.size.outSize.val) :
    hostCopy src dst s = hostWriteIn dst (s.outByte src) s := if_neg (by omega)

theorem hostCopy_fault {src : Nat} {s : State} (dst : Nat) (h : s.size.outSize.val ≤ src) :
    hostCopy src dst s = .fault (.noOutByte src) := if_pos h

/-- A host move that is no packet and names addresses that exist is done. -/
theorem runMove_next {m : HostMove} {s : State} (hc : ∀ p, m ≠ .command p) (h : m.inSpaces s.size) :
    ∃ t, runMove m s = .next t := by
  cases m with
  | command p => exact absurd rfl (hc p)
  | writeIn a b => exact ⟨_, hostWriteIn_next b h⟩
  | writeOut a b => exact ⟨_, hostWriteOut_next b h⟩
  | copyOutToIn src dst => exact ⟨_, (hostCopy_write dst h.1).trans (hostWriteIn_next _ h.2)⟩

/-- A host move is never refused but for a packet. -/
theorem runMove_not_refused {m : HostMove} {s : State} {r : Refusal} (hc : ∀ p, m ≠ .command p) : runMove m s ≠ .refused r := by
  have hin : ∀ a b, hostWriteIn a b s ≠ .refused r := fun a b => by unfold hostWriteIn; split <;> simp
  cases m with
  | command p => exact absurd rfl (hc p)
  | writeIn a b => exact hin a b
  | writeOut a b =>
    show hostWriteOut a b s ≠ _
    unfold hostWriteOut
    split <;> simp
  | copyOutToIn src dst =>
    show hostCopy src dst s ≠ _
    unfold hostCopy
    split
    · simp
    · exact hin _ _

/-- The host's script is no part of the tree. -/
theorem wfTree_setScript (s : State) (l : List HostMove) : wfTree (s.setScript l) = wfTree s :=
  wfTree_congr (s := s.setScript l) (t := s) rfl rfl rfl rfl

/-- Settles O9: the block waits; a packet ends as `runPacket_answers` says; any other move is done where its addresses exist. -/
theorem stepStopsOnlyWhereTheSpecDoes : Obligations.StepStopsOnlyWhereTheSpecDoes := by
  intro s h
  cases hs : s.script with
  | nil => simp [step_idle hs]
  | cons m rest =>
    have hl : (s.setScript rest).LimitsLegal := State.LimitsLegal.of_inv h
    rw [step_move hs]
    cases m
    case command p =>
      rcases runPacket_answers p hl with ⟨t, ht⟩ | ⟨hr, hw, i, hd, hi⟩
      · simp [runMove, ht]
      · have hw' : wfTree s = false := (wfTree_setScript s rest).symm.trans hw
        simp only [runMove, hr, Host.Outcome.refused.injEq]
        exact ⟨fun f _ => by simp, fun r hr => ⟨hr.symm, hw', p, rest, i, rfl, hd, hi⟩⟩
    all_goals
      refine ⟨fun f hm hf => ?_, fun r hr => absurd hr (runMove_not_refused (by simp))⟩
      obtain ⟨t, ht⟩ := runMove_next (s := s.setScript rest) (by simp) (hm _ _ rfl)
      cases ht.symm.trans hf

end Sys2Proof.Machine
end

section
/-! SUPPORT. Power-on, RESET, and the host's moves (spec/10_state.md R30, spec/43_system.md R140, spec/70_reset_and_hazards.md
R239). -/

namespace Sys2Proof.Machine

/-- Settles O6: every register of the power-on state is written as 0 and every memory as empty. -/
theorem powerOnRegistersAreZero : Obligations.PowerOnRegistersAreZero := by
  intro z r
  exact ⟨by cases r <;> rfl, fun a => ⟨rfl, rfl, rfl⟩⟩

/-- With at least one node, power-on meets the invariant. -/
theorem State.inv_powerOn {z : Sizes} (hz : z.ok = true) : (State.powerOn z).Inv := by
  have hn : 1 ≤ z.nNodes.val := of_decide_eq_true hz
  refine ⟨hz, ⟨?_, ?_, ?_, ?_, ?_, hn, hn, ?_, ?_⟩, fun j _ => ?_, .inl rfl, rfl, rfl, rfl, rfl, rfl, rfl⟩ <;>
    simp [State.powerOn]

/-- Settles O7: `State.reset` is the power-on of sizes with at least one node. -/
theorem powerOnMeetsTheInvariant : Obligations.PowerOnMeetsTheInvariant :=
  ⟨fun _ hz => State.inv_powerOn hz, State.inv_powerOn (by decide)⟩

/-- Settles O20: RESET is legal and passes the gate. -/
theorem resetCompletes : Obligations.ResetCompletes :=
  fun _ => issue_exempt _ rfl rfl

/-- Settles O13: each move is one store, or the stop at the address that does not exist. -/
theorem hostMovesWriteOneByte : Obligations.HostMovesWriteOneByte := by
  intro s rest
  have hin : ∀ a b, a < s.size.inSize.val → ∃ t, hostWriteIn a b (s.setScript rest) = .next t ∧
      t = { s with script := rest, inMem := t.inMem } ∧ ∀ x, t.inByte x = if x = a then b else s.inByte x := by
    intro a b ha
    refine ⟨_, hostWriteIn_next b ha, rfl, fun x => ?_⟩
    rw [State.inByte_storeIn]
    exact if_congr eq_comm rfl rfl
  refine ⟨fun a b hs => ?_, fun a b hs => ?_, fun src dst hs => ?_⟩ <;> rw [step_move hs, runMove]
  · exact ⟨hin a b, hostWriteIn_fault (s := s.setScript rest) b⟩
  · refine ⟨fun ha => ⟨_, hostWriteOut_next (s := s.setScript rest) b ha, rfl, fun x => ?_⟩,
      hostWriteOut_fault (s := s.setScript rest) b⟩
    rw [State.outByte_storeOut]
    exact if_congr eq_comm rfl rfl
  · refine ⟨hostCopy_fault (s := s.setScript rest) dst, fun hsrc hdst => ?_, fun hsrc hdst => ?_⟩ <;>
      rw [hostCopy_write (s := s.setScript rest) dst hsrc]
    · exact hin dst (s.outByte src) hdst
    · exact hostWriteIn_fault (s := s.setScript rest) _ hdst

end Sys2Proof.Machine
end

section
/-! SUPPORT. Who writes what (spec/10_state.md R12, R22), the latch of the first fault (R25), and the write window (R29). -/

namespace Sys2Proof.Machine

/-! ## Faults -/

/-- No command but RESET writes ERR or EINFO by its own effect (R203). -/
theorem Effect.err_einfo {i : Instr} {s u : State} (hi : i ≠ .reset) (h : Effect i s u) : u.err = s.err ∧ u.einfo = s.einfo := by
  cases i
  case reset => exact absurd rfl hi
  case setreg r v =>
    obtain ⟨-, rfl⟩ := h
    exact ⟨State.writeReg_err s r v, State.writeReg_einfo s r v⟩
  case wrnode | rdnode =>
    obtain ⟨rfl, -⟩ := h
    exact ⟨rfl, rfl⟩
  case getreg | hasmore | treset =>
    cases h
    exact ⟨rfl, rfl⟩
  case rdbits | wrbits | rewind | flush | tstep | dsym | decode | encsym | enceof | encode =>
    rw [h]
    exact ⟨rfl, rfl⟩

/-- How ERR and EINFO of a command's end come about: nothing was recorded by an answer that is no fault; a fault was latched on what
stood there. -/
theorem exec_err {i : Instr} {s t : State} (ht : exec i s = .next t) :
    ∃ e v, (i ≠ .reset → e = s.err ∧ v = s.einfo) ∧ (i = .reset → e = 0) ∧
      ((t.err = e ∧ t.einfo = v ∧ ∀ c w, t.rsp ≠ some ⟨.fault c, w⟩) ∨
        ∃ c w, t.rsp = some ⟨.fault c, w⟩ ∧ t.err = (if e = 0 then c.code else e) ∧ t.einfo = if e = 0 then w else v) := by
  rcases exec_effect ht with ⟨rfl, -, hi⟩ | ⟨u, hu, hend⟩
  · exact ⟨s.err, s.einfo, fun _ => ⟨rfl, rfl⟩, fun h => absurd h hi, .inl ⟨rfl, rfl, by simp⟩⟩
  · refine ⟨u.err, u.einfo, fun hi => ?_, fun hi => ?_, ?_⟩
    · rcases hu with hu | ⟨rfl, -⟩
      · exact hu.err_einfo hi
      · exact ⟨rfl, rfl⟩
    · subst hi
      rcases hu with rfl | ⟨-, hn⟩
      · rfl
      · exact absurd rfl hn
    · rcases hend with ⟨st, v, hst, rfl⟩ | ⟨c, w, rfl⟩
      · exact .inl ⟨rfl, rfl, fun c w h => hst c (by simpa using congrArg (Option.map Response.stat) h)⟩
      · exact .inr ⟨c, w, rfl, State.raise_err u c w, State.raise_einfo u c w⟩

/-- Settles O14: by `exec_err`, case by case. -/
theorem firstFaultIsLatched : Obligations.FirstFaultIsLatched := by
  intro i s t ht
  obtain ⟨e, v, hkeep, hreset, hend⟩ := exec_err ht
  have he : s.err = 0 → e = 0 := fun h0 => by
    by_cases hi : i = .reset
    · exact hreset hi
    · exact (hkeep hi).1.trans h0
  refine ⟨fun h0 c w hr => ?_, fun h0 hr => ?_, fun h0 hi => ?_⟩
  · rcases hend with ⟨-, -, hno⟩ | ⟨c', w', hr', herr, hinfo⟩
    · exact absurd hr (hno c w)
    · cases hr'.symm.trans hr
      rw [if_pos (he h0)] at herr hinfo
      exact ⟨herr, hinfo⟩
  · rcases hend with ⟨herr, -, -⟩ | ⟨c, w, hr', -⟩
    · exact herr.trans (he h0)
    · exact absurd hr' (hr c w)
  · obtain ⟨rfl, rfl⟩ := hkeep hi
    rcases hend with ⟨herr, hinfo, -⟩ | ⟨c, w, -, herr, hinfo⟩
    · exact ⟨herr, hinfo⟩
    · rw [if_neg h0] at herr hinfo
      exact ⟨herr, hinfo⟩

/-! ## Who writes what -/

/-- A command that goes on ends, but for ERR, EINFO and the response, in its own effect or in the state it found. -/
theorem exec_fields {i : Instr} {s t : State} (ht : exec i s = .next t) :
    ∃ u e v r, (Effect i s u ∨ u = s) ∧ t = { u with err := e, einfo := v, rsp := r } := by
  rcases exec_effect ht with ⟨rfl, -⟩ | ⟨u, hu, hend⟩
  · exact ⟨s, _, _, _, .inr rfl, State.refuseSticky_eq s⟩
  · refine ⟨u, ?_⟩
    rcases hend with ⟨st, v, -, rfl⟩ | ⟨c, v, rfl⟩
    · exact ⟨_, _, _, hu.imp_right And.left, State.respond_eq u st v⟩
    · exact ⟨_, _, _, hu.imp_right And.left, State.raise_eq u c v⟩

/-- ERR and EINFO change only under RESET and a command that answers a fault (R203). -/
theorem exec_err_change {i : Instr} {s t : State} (ht : exec i s = .next t) (hne : t.err ≠ s.err ∨ t.einfo ≠ s.einfo) :
    i = .reset ∨ ∃ c v, t.rsp = some ⟨.fault c, v⟩ := by
  obtain ⟨e, v, hkeep, -, ⟨herr, hinfo, -⟩ | ⟨c, w, hr, -⟩⟩ := exec_err ht
  · refine .inl (by_contra fun hi => ?_)
    obtain ⟨rfl, rfl⟩ := hkeep hi
    exact hne.elim (absurd herr) (absurd hinfo)
  · exact .inr ⟨c, w, hr⟩

/-- Settles O15: each command's own effect names the fields it may write. -/
theorem stateIsWrittenOnlyBy : Obligations.StateIsWrittenOnlyBy := by
  intro i s t ht
  have herr := exec_err_change ht
  obtain ⟨u, e, v, r, hu, hfields⟩ := exec_fields ht
  subst hfields
  rcases hu with hu | rfl
  · refine ⟨?_, ?_, ?_, ?_, ?_, ?_, ?_, ?_, ?_, ?_, ?_, herr, ?_⟩ <;> clear herr
    all_goals
      cases i
      case reset =>
        cases hu
        simp [Instr.op]
      case setreg r v =>
        obtain ⟨-, rfl⟩ := hu
        cases r <;> simp [State.writeReg]
      case wrnode | rdnode =>
        obtain ⟨rfl, -⟩ := hu
        simp [Instr.op]
      case getreg | hasmore | treset =>
        cases hu
        simp [Instr.op]
      case rdbits | wrbits | rewind | flush | tstep | dsym | decode | encsym | enceof | encode =>
        rw [hu]
        simp [Instr.op]
  · refine ⟨?_, ?_, ?_, ?_, ?_, ?_, ?_, ?_, ?_, ?_, ?_, herr, ?_⟩ <;> simp

end Sys2Proof.Machine
end

section
/-! SUPPORT. The write window of spec/10_state.md R29, the legal writes of SETREG (spec/43_system.md R141), and FLUSH
(spec/40_bitcursor.md R88). -/

namespace Sys2Proof.Machine

/-- WBYTE below WLIM can be advanced. -/
theorem State.toNat_wbyte_succ {s : State} (h : s.wbyte.toNat < s.wlim.toNat) : (s.wbyte + 1).toNat = s.wbyte.toNat + 1 := by
  have hmax := s.wlim.isLt
  exact BitVec.toNat_add_of_lt (show s.wbyte.toNat + 1 < 2 ^ 61 by omega)

/-- A value that the register is wide enough for is not truncated. -/
theorem toNat_setWidth_of_lt {v : Word} {n : Nat} (h : v.toNat < 2 ^ n) : (v.setWidth n).toNat = v.toNat := by
  rw [BitVec.toNat_setWidth, Nat.mod_eq_of_lt h]

/-! ## The write window -/

/-- `u` comes from `s` by stores from WBYTE up and below WLIM, with the write cursor moved forward only, and to WLIM at most. -/
def WrittenInWindow (s u : State) : Prop :=
  (∀ a, u.outByte a ≠ s.outByte a → s.wbyte.toNat ≤ a ∧ a < s.wlim.toNat) ∧
  s.wbyte.toNat ≤ u.wbyte.toNat ∧ (u.wbyte ≠ s.wbyte → u.wbyte.toNat ≤ s.wlim.toNat) ∧ u.wlim = s.wlim

theorem writtenInWindow_refl (s : State) : WrittenInWindow s s :=
  ⟨fun _ h => absurd rfl h, Nat.le_refl _, fun h => absurd rfl h, rfl⟩

/-- A further write that moves the cursor by `n` bytes below WLIM, and stores to no other byte, stays in the window. -/
theorem WrittenInWindow.advance {s u w : State} {n : Nat} (h : WrittenInWindow s u) (hlim : w.wlim = u.wlim)
    (hfit : n = 0 ∨ u.wbyte.toNat + n ≤ u.wlim.toNat) (hbyte : w.wbyte.toNat = u.wbyte.toNat + n)
    (hout : ∀ a, a < u.wbyte.toNat ∨ u.wbyte.toNat + n ≤ a → w.outByte a = u.outByte a) : WrittenInWindow s w := by
  obtain ⟨hstore, hge, hmove, hl⟩ := h
  rw [hl] at hfit
  refine ⟨fun a ha => ?_, by omega, fun hne => ?_, hlim.trans hl⟩
  · by_cases hin : u.wbyte.toNat ≤ a ∧ a < u.wbyte.toNat + n
    · omega
    · rw [hout a (by omega)] at ha
      exact hstore a ha
  · rcases hfit with rfl | hfit
    · have hu : w.wbyte = u.wbyte := BitVec.eq_of_toNat_eq hbyte
      rw [hu] at hne ⊢
      exact hmove hne
    · omega

theorem writtenInWindow_kept (s : State) : KeptByCursors (WrittenInWindow s) where
  read _ _ h _ := h
  move _ _ h _ _ := h
  root _ h := h
  eof _ h := h
  put u c h hf _ := by
    obtain ⟨hbyte, -, hout⟩ := putBits_moves c (State.fits_lt hf)
    exact h.advance (putBits_wlim u c) hf hbyte hout
  flush u h _ hlt _ := by
    refine h.advance (n := 1) rfl (.inr hlt) (State.toNat_wbyte_succ hlt) fun a ha => ?_
    rw [State.outByte_congr (State.setWrite_outMem _ _ _ _), State.outByte_storeOut, if_neg (by omega)]
  back _ _ h _ := h
  clear _ h := h

theorem writtenInWindow_of_endsIn {s t : State} (h : EndsIn (WrittenInWindow s) t) : WrittenInWindow s t := by
  obtain ⟨u, hu, ⟨st, v, -, rfl⟩ | ⟨c, v, rfl⟩⟩ := h
  · exact hu
  · rw [State.raise_eq]
    exact hu

/-- RESET, SETREG, WRNODE and RDNODE do not write OUT, and of them only RESET and SETREG write WBYTE (R12, R22). -/
theorem exec_system_writeSide {i : Instr} {s t : State} (hi : systemWrite i = true) (ht : exec i s = .next t) :
    t.outMem = s.outMem ∧ (i.op ≠ .setreg → i ≠ .reset → t.wbyte = s.wbyte) := by
  obtain ⟨u, e, v, r, hu | rfl, rfl⟩ := exec_fields ht
  · cases i
    case getreg | rdbits | wrbits | rewind | hasmore | flush | treset | tstep | dsym | decode | encsym | enceof | encode => cases hi
    case reset =>
      cases hu
      exact ⟨rfl, fun _ h => absurd rfl h⟩
    case setreg r v =>
      obtain ⟨-, rfl⟩ := hu
      exact ⟨State.writeReg_outMem s r v, fun h => absurd rfl h⟩
    case wrnode | rdnode =>
      obtain ⟨rfl, -⟩ := hu
      exact ⟨rfl, fun _ _ => rfl⟩
  · exact ⟨rfl, fun _ _ => rfl⟩

/-- A legal width is not 0. -/
theorem setWidth_symw_ne_zero {v : Word} (h1 : 1 ≤ v.toNat) (h2 : v.toNat ≤ 64) : v.setWidth 7 ≠ 0 := by
  intro h
  have h0 : v.toNat = 0 := (toNat_setWidth_of_lt (n := 7) (by omega)).symm.trans (congrArg BitVec.toNat h)
  omega

/-- A configured SYMW stays configured until RESET: SETREG SYMW writes no 0 (R13). -/
theorem exec_symw_ne_zero {i : Instr} {s t : State} (hs : s.symw ≠ 0) (hi : i ≠ .reset) (ht : exec i s = .next t) :
    t.symw ≠ 0 := by
  by_cases hsame : t.symw = s.symw
  · rwa [hsame]
  obtain ⟨hsymw, -⟩ := stateIsWrittenOnlyBy i s t ht
  obtain ⟨v, rfl⟩ := (hsymw hsame).resolve_left hi
  obtain ⟨u, e, w, r, hu | rfl, rfl⟩ := exec_fields ht
  · obtain ⟨hv, rfl⟩ := hu
    simp only [State.setregFault, ite_eq_right_iff, reduceCtorEq, imp_false, not_or, not_lt] at hv
    exact setWidth_symw_ne_zero hv.1 hv.2
  · exact hs

/-- Settles O16: the cursor commands stay in the window, the others write neither OUT nor WBYTE. -/
theorem storesStayInTheWriteWindow : Obligations.StoresStayInTheWriteWindow := by
  intro i s t ht
  cases hi : systemWrite i with
  | false =>
    have hw : WrittenInWindow s t := by
      rcases exec_keeps (writtenInWindow_kept s) hi (writtenInWindow_refl s) ht with rfl | he
      · exact writtenInWindow_refl s
      · exact writtenInWindow_of_endsIn he
    obtain ⟨hstore, hge, hmove, -⟩ := hw
    exact ⟨hstore, fun _ _ => ⟨hge, hmove⟩, fun hs hr => exec_symw_ne_zero hs hr ht⟩
  | true =>
    obtain ⟨hout, hbyte⟩ := exec_system_writeSide hi ht
    refine ⟨fun a ha => absurd (State.outByte_congr hout a) ha, fun hs hr => ?_, fun hs hr => exec_symw_ne_zero hs hr ht⟩
    have hb := hbyte hs hr
    exact ⟨by rw [hb], fun hne => absurd hb hne⟩

/-! ## SETREG -/

/-- SETREG of a value in the legal range of a register it may write (R141). -/
theorem exec_setreg_legal {s : State} {r : Reg} {v : Word} (he : s.err = 0) (hr : r.writable = true)
    (hv : s.setregFault r v = none) : exec (.setreg r v) s = .next ((s.writeReg r v).respond .done 0) := by
  show issue (.setreg r v) s _ = _
  rw [issue_run (i := .setreg r v) _ he hr, hv]

/-- Settles O21: each range is the one `setregFault` checks, and the register's width holds it. -/
theorem setregWritesLegalValues : Obligations.SetregWritesLegalValues := by
  intro s v he
  have hin := s.size.inSize.isLt
  have hout := s.size.outSize.isLt
  have hnode := s.size.nNodes.isLt
  exact ⟨fun hv => ⟨exec_setreg_legal he rfl (if_neg (by omega)), toNat_setWidth_of_lt (by omega)⟩,
    fun hv => ⟨exec_setreg_legal he rfl (if_neg (by omega)), exec_setreg_legal he rfl (if_neg (by omega)),
      toNat_setWidth_of_lt (by omega)⟩,
    fun hv => ⟨exec_setreg_legal he rfl (if_neg (by omega)), toNat_setWidth_of_lt (by omega)⟩,
    fun hv => ⟨exec_setreg_legal he rfl (if_neg (by omega)), exec_setreg_legal he rfl (if_neg (by omega)),
      toNat_setWidth_of_lt (by omega)⟩,
    fun hv => ⟨exec_setreg_legal he rfl (if_neg (by omega)), toNat_setWidth_of_lt (by omega)⟩,
    fun hv => ⟨exec_setreg_legal he rfl (if_neg (by omega)), toNat_setWidth_of_lt (by omega)⟩,
    fun hv => ⟨exec_setreg_legal he rfl (if_neg (by omega)), toNat_setWidth_of_lt (by omega)⟩⟩

/-! ## FLUSH -/

/-- The partial byte's bits below the ones held are zero: read from the top, it is `pending` and then zeros (R17). -/
theorem State.wacc_bit {s : State} (hc : s.AccClear) {k : Nat} (hk : k < 8) :
    s.wacc.getLsbD (7 - k) = s.pending.getD k false := by
  by_cases hw : k < s.wbit.toNat
  · simp [State.pending, List.getD, hw]
  · rw [hc _ (by omega)]
    simp [State.pending, List.getD, hw]

/-- Settles O30: the branches of `flushPad`. -/
theorem flushCompletes : Obligations.FlushCompletes := by
  intro s he
  have hrun : exec .flush s = (flushPad s).answer (fun _ => .done) (fun k => BitVec.ofNat 64 k) := issue_run _ he rfl
  refine ⟨fun h0 => ?_, fun h0 hc hlt hlim => ?_⟩
  · rw [hrun, flushPad, if_pos h0]
    rfl
  · have hflush : flushPad s = .ok 1 ((s.storeOut s.wbyte.toNat s.wacc).setWrite (s.wbyte + 1) 0 0) := by
      rw [flushPad, if_neg h0, if_neg (by omega), if_neg (by omega)]
    have hout : ∀ a, ((s.storeOut s.wbyte.toNat s.wacc).setWrite (s.wbyte + 1) 0 0).outByte a =
        if a = s.wbyte.toNat then s.wacc else s.outByte a := fun a => by
      rw [State.outByte_congr (State.setWrite_outMem _ _ _ _), State.outByte_storeOut]
      exact if_congr eq_comm rfl rfl
    rw [hrun, hflush]
    refine ⟨_, rfl, rfl, rfl, State.toNat_wbyte_succ hlt, rfl, rfl, hout, fun k hk => ?_⟩
    rw [← State.wacc_bit hc hk]
    exact congrArg (fun b : Byte => b.getLsbD (7 - k)) ((hout _).trans (if_pos rfl))

/-! ## SYMW -/

/-- Settles O42: `widthUnset` is the first check of both commands. -/
theorem unsetWidthIsUnsupported : Obligations.UnsetWidthIsUnsupported := by
  intro s i he hw hi
  have hunset : s.widthUnset = true := decide_eq_true hw
  have hraise : exec i s = .next (s.raise .unsupportedConfig (s.symw.setWidth 64)) := by
    rcases hi with rfl | rfl
    · exact (issue_run _ he rfl).trans (if_pos hunset)
    · exact (issue_run _ he rfl).trans (if_pos hunset)
  rw [hraise, State.raise_eq, if_pos he, if_pos he]
  rfl

end Sys2Proof.Machine
end

section
/-! SUPPORT. Two runs side by side (spec/10_state.md R13, R15, R29): what a command does where the bytes of IN at or above RLIM, or
SYMW, hold something else. -/

namespace Sys2Proof.Machine

/-! ## Two runs of a helper -/

/-- The state with SYMW and IN replaced. -/
def State.veiled (w : BitVec 7) (m : List Host.Cell) (s : State) : State := { s with symw := w, inMem := m }

/-- The bytes below RLIM are the same in both memories. -/
def State.SeesSame (m : List Host.Cell) (s : State) : Prop :=
  ∀ a, a < s.rlim.toNat → State.inByte { s with inMem := m } a = s.inByte a

/-- The same result in the other run: the state a helper ends in, changed by `f`. -/
def Res.map {α : Type} (f : State → State) : Res α → Res α
  | .ok a s => .ok a (f s)
  | .raise c info s => .raise c info (f s)
  | .stop r => .stop r

/-- The same outcome in the other run. -/
def mapNext (f : State → State) : Outcome → Outcome
  | .next s => .next (f s)
  | .fault r => .fault r
  | .refused r => .refused r

/-- Nothing asked of the state a helper ends in. -/
theorem Res.all_true {α : Type} (r : Res α) : r.All fun _ => True := by cases r <;> trivial

/-- One helper after another is the same in both runs if both are; what the first one's end keeps may be used for the second. -/
theorem Res.map_andThen {α β : Type} {f : State → State} {P : State → Prop} {r r' : Res α} {k k' : α → State → Res β}
    (hr : r' = r.map f) (hall : r.All P) (hk : ∀ a s, P s → k' a (f s) = (k a s).map f) :
    r'.andThen k' = (r.andThen k).map f := by
  subst hr
  cases r with
  | ok a s => exact hk a s hall
  | raise c info s => rfl
  | stop e => rfl

/-- The order of checks is the same in both runs where ERR is the same and a fault is taken the same way. -/
theorem issue_map {f : State → State} {i : Instr} {s : State} {body body' : Outcome} (herr : (f s).err = s.err)
    (hgate : f s.refuseSticky = (f s).refuseSticky) (hraise : ∀ c v, f (s.raise c v) = (f s).raise c v)
    (h : body' = mapNext f body) : issue i (f s) body' = mapNext f (issue i s body) := by
  subst h
  have hg : mapNext f (.next s.refuseSticky) = .next (f s).refuseSticky := congrArg Host.Outcome.next hgate
  have hr : mapNext f (.next (s.raise .illegalCommand i.headInfo)) = .next ((f s).raise .illegalCommand i.headInfo) :=
    congrArg Host.Outcome.next (hraise _ _)
  simp only [issue, apply_ite (mapNext f), herr, hg, hr]

section
variable (w : BitVec 7) (m : List Host.Cell)

theorem State.veiled_raise (s : State) (c : FaultCode) (info : Word) :
    (s.raise c info).veiled w m = (s.veiled w m).raise c info := by
  rw [State.raise_eq, State.raise_eq]
  rfl

theorem Res.answer_veiled {α : Type} {r r' : Res α} (stat : α → Stat) (val : α → Word) (h : r' = r.map (State.veiled w m)) :
    r'.answer stat val = mapNext (State.veiled w m) (r.answer stat val) := by
  subst h
  cases r with
  | ok a s => rfl
  | raise c info s => exact congrArg Host.Outcome.next (State.veiled_raise w m s c info).symm
  | stop e => rfl

/-- The order of checks looks at neither SYMW nor IN. -/
theorem issue_veiled {i : Instr} {s : State} {body body' : Outcome} (h : body' = mapNext (State.veiled w m) body) :
    issue i (s.veiled w m) body' = mapNext (State.veiled w m) (issue i s body) :=
  issue_map rfl rfl (State.veiled_raise w m s) h

theorem putBits_veiled (s : State) (c : Code) : (s.veiled w m).putBits c = (s.putBits c).veiled w m := by
  induction c generalizing s with
  | nil => rfl
  | cons b c ih =>
    have hb : (s.veiled w m).putBit b = (s.putBit b).veiled w m := by
      unfold State.putBit
      rw [apply_ite (State.veiled w m)]
      rfl
    rw [putBits_cons, putBits_cons, hb, ih]

theorem put_veiled (s : State) (c : Code) : put c (s.veiled w m) = (put c s).map (State.veiled w m) := by
  simp only [put, apply_ite (Res.map (State.veiled w m)), putBits_veiled]
  rfl

theorem flushPad_veiled (s : State) : flushPad (s.veiled w m) = (flushPad s).map (State.veiled w m) := by
  simp only [flushPad, apply_ite (Res.map (State.veiled w m))]
  rfl

theorem descend_veiled (b : Bool) (s : State) : descend b (s.veiled w m) = (descend b s).map (State.veiled w m) := by
  have harr : ∀ d, arrive d (s.veiled w m) = (arrive d s).map (State.veiled w m) := fun d => by
    unfold arrive
    rw [State.kind_congr (s := s.veiled w m) (t := s) rfl]
    cases s.kind d <;> rfl
  simp only [descend, apply_ite (Res.map (State.veiled w m)), ← harr]
  rfl

/-! ### The read side -/

variable {w m}

/-- The bits below RLIM are the same in both runs. -/
theorem State.SeesSame.inCode {s : State} (h : s.SeesSame m) {q n : Nat} (hq : q + n ≤ 8 * s.rlim.toNat) :
    (s.veiled w m).inCode q n = s.inCode q n := by
  refine List.map_congr_left fun k hk => ?_
  have hk' := List.mem_range.1 hk
  have hbyte : (s.veiled w m).inByte ((q + k) / 8) = s.inByte ((q + k) / 8) := h _ (by omega)
  rw [State.inBit, State.inBit, hbyte]

theorem seesSame_descent : KeptByDescent (State.SeesSame m) :=
  ⟨fun _ _ h _ => h, fun _ _ h _ _ => h, fun _ h => h, fun _ h => h⟩

theorem seesSame_writes : KeptByWrites (State.SeesSame m) :=
  ⟨fun s c h _ _ a ha => by
    rw [putBits_rlim] at ha
    exact (h a ha).trans (State.inByte_congr (putBits_inMem s c).symm a), fun _ h _ _ _ => h⟩

theorem getBits_veiled (n : Nat) {s : State} (h : s.SeesSame m) :
    getBits n (s.veiled w m) = (getBits n s).map (State.veiled w m) := by
  rcases getBits_cases n s with ⟨hr, hm, hi⟩ | ⟨hr, hm⟩ | ⟨hr, hm, hi⟩
  · have hcode := h.inCode (w := w) ((State.hasMore_iff s n).1 hm)
    rw [hr, getBits, if_pos (show (s.veiled w m).hasMore n = true from hm),
      if_pos (show ((s.veiled w m).readPos + n - 1) / 8 < (s.veiled w m).size.inSize.val from hi), State.inValue_eq]
    exact congrArg (fun c => Res.ok (BitVec.ofNat 64 (bitsNat c)) _) hcode
  · rw [hr, getBits, if_neg (show ¬ (s.veiled w m).hasMore n = true from Bool.not_eq_true _ ▸ hm)]
    rfl
  · rw [hr, getBits, if_pos (show (s.veiled w m).hasMore n = true from hm),
      if_neg (show ¬ ((s.veiled w m).readPos + n - 1) / 8 < (s.veiled w m).size.inSize.val from Nat.not_lt.2 hi)]
    rfl

theorem inputEnds_veiled (s : State) : inputEnds (s.veiled w m) = (inputEnds s).map (State.veiled w m) := by
  simp only [inputEnds, apply_ite (Res.map (State.veiled w m))]
  rfl

theorem descendInput_veiled (k : Nat) {s : State} (h : s.SeesSame m) :
    descendInput k (s.veiled w m) = (descendInput k s).map (State.veiled w m) := by
  induction k generalizing s with
  | zero => exact inputEnds_veiled s
  | succ k ih =>
    rw [descendInput, descendInput, apply_ite (Res.map (State.veiled w m)), ← inputEnds_veiled]
    refine if_congr Iff.rfl ?_ rfl
    refine Res.map_andThen (getBits_veiled 1 h) (getBits_all h fun _ => h) fun v s1 h1 => ?_
    have hd := descend_all (P := State.SeesSame m) (b := v.getLsbD 0) h1 (fun _ _ _ => h1) h1 h1
    refine Res.map_andThen (descend_veiled w m _ s1) hd fun r s2 h2 => ?_
    cases r with
    | moved => exact ih h2
    | symbol v => rfl
    | eof => rfl

theorem decodeOne_veiled {s : State} (h : s.SeesSame m) :
    decodeOne (s.veiled w m) = (decodeOne s).map (State.veiled w m) := by
  rw [decodeOne, decodeOne, apply_ite (Res.map (State.veiled w m)), ← descendInput_veiled _ h]
  rfl

theorem decodeEnds_veiled (stat : Stat) (count : Nat) (s : State) :
    decodeEnds stat count (s.veiled w m) = (decodeEnds stat count s).map (State.veiled w m) :=
  Res.map_andThen (flushPad_veiled w m s) (Res.all_true _) fun _ _ _ => rfl

theorem putCode_veiled (c : Code) (s : State) : putCode c (s.veiled w m) = (putCode c s).map (State.veiled w m) :=
  Res.map_andThen (put_veiled w m s c) (Res.all_true _) fun _ _ _ => rfl

/-! ### The loops of DECODE and ENCODE: SYMW is the same -/

/-- Both runs read the same SYMW, and the same bytes below RLIM. -/
def State.Alike (w : BitVec 7) (m : List Host.Cell) (s : State) : Prop := s.SeesSame m ∧ s.symw = w

theorem alike_descent : KeptByDescent (State.Alike w m) :=
  ⟨fun _ _ h _ => h, fun _ _ h _ _ => h, fun _ h => h, fun _ h => h⟩

theorem alike_writes : KeptByWrites (State.Alike w m) :=
  ⟨fun s c h hf ho => ⟨seesSame_writes.put s c h.1 hf ho, (putBits_symw s c).trans h.2⟩, fun _ h _ _ _ => h⟩

theorem decodeLoop_veiled (k count : Nat) {s : State} (h : s.Alike w m) :
    decodeLoop k count (s.veiled w m) = (decodeLoop k count s).map (State.veiled w m) := by
  induction k generalizing count s with
  | zero => exact decodeEnds_veiled _ _ s
  | succ k ih =>
    rw [decodeLoop, decodeLoop]
    refine Res.map_andThen (decodeOne_veiled h.1) (decodeOne_all alike_descent h) fun r s1 h1 => ?_
    cases r with
    | symbol v =>
      have hw : (s1.veiled w m).symw = s1.symw := h1.2.symm
      refine Res.map_andThen (P := State.Alike w m) ?_ (put_all h1 (alike_writes.put s1 _ h1)) fun _ s2 h2 => ih _ h2
      rw [hw]
      exact put_veiled w m s1 _
    | eof => exact decodeEnds_veiled _ _ s1
    | exhausted => exact decodeEnds_veiled _ _ s1

theorem codeOf_veiled (s : State) (v : Word) : codeOf (s.veiled w m) v = codeOf s v :=
  codeOf_congr (s := s.veiled w m) (t := s) rfl rfl rfl v

theorem codeOfEof_veiled (s : State) : codeOfEof (s.veiled w m) = codeOfEof s :=
  codeOfEof_congr (s := s.veiled w m) (t := s) rfl rfl rfl

theorem whenTree_veiled {s : State} {body body' : Outcome} (h : body' = mapNext (State.veiled w m) body) :
    whenTree (s.veiled w m) body' = mapNext (State.veiled w m) (whenTree s body) := by
  subst h
  have htree : wfTree (s.veiled w m) = wfTree s := wfTree_congr (s := s.veiled w m) (t := s) rfl rfl rfl rfl
  rw [whenTree, whenTree, htree, apply_ite (mapNext (State.veiled w m))]
  rfl

theorem encodeOne_veiled {s : State} (h : s.Alike w m) :
    encodeOne (s.veiled w m) = (encodeOne s).map (State.veiled w m) := by
  have hw : (s.veiled w m).symw = s.symw := h.2.symm
  unfold encodeOne
  rw [hw]
  refine Res.map_andThen (getBits_veiled _ h.1) (Res.all_true _) fun v s1 _ => ?_
  rw [codeOf_veiled]
  cases codeOf s1 v with
  | none => rfl
  | some c =>
    simp only [put_veiled w m s1 c]
    cases put c s1 <;> rfl

theorem encodeLoop_veiled (k count : Nat) {s : State} (h : s.Alike w m) :
    encodeLoop k count (s.veiled w m) = (encodeLoop k count s).map (State.veiled w m) := by
  induction k generalizing count s with
  | zero => rfl
  | succ k ih =>
    have hw : (s.veiled w m).symw = s.symw := h.2.symm
    rw [encodeLoop, encodeLoop, hw, apply_ite (Res.map (State.veiled w m))]
    refine if_congr Iff.rfl ?_ rfl
    exact Res.map_andThen (encodeOne_veiled h)
      (encodeOne_all alike_writes (fun _ _ h _ => h) (fun _ h => h) h) fun _ s1 h1 => ih _ h1

theorem encodeEnds_veiled (count : Nat) (s : State) :
    encodeEnds count (s.veiled w m) = (encodeEnds count s).map (State.veiled w m) := by
  unfold encodeEnds
  rw [codeOfEof_veiled]
  refine Res.map_andThen (put_veiled w m s _) (Res.all_true _) fun _ s1 _ => ?_
  exact Res.map_andThen (flushPad_veiled w m s1) (Res.all_true _)
    fun _ _ _ => rfl

/-! ### Every command -/

theorem execSetreg_veiled {r : Reg} (v : Word) (s : State) (hr : r ≠ .symw) :
    execSetreg r v (s.veiled w m) = mapNext (State.veiled w m) (execSetreg r v s) := by
  have hfault : (s.veiled w m).setregFault r v = s.setregFault r v := by cases r <;> rfl
  have hwrite : (s.veiled w m).writeReg r v = (s.writeReg r v).veiled w m := by
    cases r
    case symw => exact absurd rfl hr
    all_goals rfl
  refine issue_veiled w m ?_
  rw [hfault, hwrite]
  cases s.setregFault r v with
  | none => rfl
  | some c => exact congrArg Host.Outcome.next (State.veiled_raise w m s c v).symm

theorem execDecode_veiled {s : State} (h : s.Alike w m) :
    execDecode (s.veiled w m) = mapNext (State.veiled w m) (execDecode s) := by
  have hw : (s.veiled w m).symw = s.symw := h.2.symm
  have hu : (s.veiled w m).widthUnset = s.widthUnset := by rw [State.widthUnset, hw, State.widthUnset]
  refine issue_veiled w m ?_
  rw [hu, hw, apply_ite (mapNext (State.veiled w m))]
  refine if_congr Iff.rfl ?_ (Res.answer_veiled w m _ _ (decodeLoop_veiled _ _ h))
  exact congrArg Host.Outcome.next (State.veiled_raise w m s _ _).symm

theorem execEncode_veiled {s : State} (h : s.Alike w m) :
    execEncode (s.veiled w m) = mapNext (State.veiled w m) (execEncode s) := by
  have hw : (s.veiled w m).symw = s.symw := h.2.symm
  have hu : (s.veiled w m).widthUnset = s.widthUnset := by rw [State.widthUnset, hw, State.widthUnset]
  refine issue_veiled w m ?_
  rw [hu, hw, apply_ite (mapNext (State.veiled w m))]
  refine if_congr Iff.rfl ?_ (whenTree_veiled (Res.answer_veiled w m _ _ ?_))
  · exact congrArg Host.Outcome.next (State.veiled_raise w m s _ _).symm
  · exact Res.map_andThen (encodeLoop_veiled _ _ h)
      (Res.all_true _) fun n s1 _ => encodeEnds_veiled n s1

/-- Every command but RESET and SETREG SYMW, which write SYMW, does the same in both runs, if those that read SYMW find the same. -/
theorem exec_veiled {i : Instr} {s : State} (hsee : s.SeesSame m) (hreset : i ≠ .reset) (hset : ∀ v, i ≠ .setreg .symw v)
    (hread : i = .decode ∨ i = .encode ∨ i = .getreg .symw → s.symw = w) :
    exec i (s.veiled w m) = mapNext (State.veiled w m) (exec i s) := by
  cases i
  case reset => exact absurd rfl hreset
  case setreg r v => exact execSetreg_veiled v s fun h => hset v (by rw [h])
  case getreg r =>
    refine issue_veiled w m (congrArg (fun x => Host.Outcome.next ((s.veiled w m).respond .done x)) ?_)
    cases r
    case symw => exact congrArg (BitVec.setWidth 64) (hread (.inr (.inr rfl))).symm
    all_goals rfl
  case wrnode | rdnode =>
    refine issue_veiled w m ?_
    rw [apply_ite (mapNext (State.veiled w m)), mapNext, State.veiled_raise]
    rfl
  case rdbits n => exact issue_veiled w m (Res.answer_veiled w m _ _ (getBits_veiled _ hsee))
  case wrbits n v => exact issue_veiled w m (Res.answer_veiled w m _ _ (put_veiled w m s _))
  case rewind n =>
    refine issue_veiled w m ?_
    rw [apply_ite (mapNext (State.veiled w m)), mapNext, State.veiled_raise]
    rfl
  case hasmore n => exact issue_veiled w m rfl
  case flush => exact issue_veiled w m (Res.answer_veiled w m _ _ (flushPad_veiled w m s))
  case treset => exact issue_veiled w m rfl
  case tstep b => exact issue_veiled w m (Res.answer_veiled w m _ _ (descend_veiled w m b s))
  case dsym => exact issue_veiled w m (Res.answer_veiled w m _ _ (decodeOne_veiled hsee))
  case decode => exact execDecode_veiled ⟨hsee, hread (.inl rfl)⟩
  case encsym v =>
    refine issue_veiled w m (whenTree_veiled ?_)
    rw [codeOf_veiled]
    cases codeOf s v with
    | none => exact congrArg Host.Outcome.next (State.veiled_raise w m s _ _).symm
    | some c => exact Res.answer_veiled w m _ _ (putCode_veiled c s)
  case enceof =>
    refine issue_veiled w m (whenTree_veiled (Res.answer_veiled w m _ _ ?_))
    rw [codeOfEof_veiled]
    exact putCode_veiled _ s
  case encode => exact execEncode_veiled ⟨hsee, hread (.inr (.inl rfl))⟩

end

/-! ## The two statements -/

/-- The state with IN replaced. -/
def State.withIn (m : List Host.Cell) (s : State) : State := { s with inMem := m }

/-- A command that does not write SYMW leaves it (R12). -/
theorem exec_symw {i : Instr} {s t : State} (hreset : i ≠ .reset) (hset : ∀ v, i ≠ .setreg .symw v)
    (ht : exec i s = .next t) : t.symw = s.symw := by
  obtain ⟨hsymw, -⟩ := stateIsWrittenOnlyBy i s t ht
  by_contra hne
  rcases hsymw hne with hi | ⟨v, hi⟩
  · exact hreset hi
  · exact hset v hi

/-- No command reads a byte of IN at or above RLIM. -/
theorem exec_withIn (i : Instr) {s : State} {m : List Host.Cell} (h : s.SeesSame m) :
    exec i (s.withIn m) = mapNext (State.withIn m) (exec i s) := by
  by_cases hreset : i = .reset
  · subst hreset
    exact (resetCompletes (s.withIn m)).trans (congrArg (mapNext (State.withIn m)) (resetCompletes s)).symm
  by_cases hset : ∃ v, i = .setreg .symw v
  · obtain ⟨v, rfl⟩ := hset
    have hraise : ∀ c x, (s.raise c x).withIn m = (s.withIn m).raise c x := fun c x => by
      rw [State.raise_eq, State.raise_eq]
      rfl
    refine issue_map (f := State.withIn m) rfl rfl hraise ?_
    rw [show (s.withIn m).setregFault .symw v = s.setregFault .symw v from rfl]
    cases s.setregFault .symw v with
    | none => rfl
    | some c => exact congrArg Host.Outcome.next (hraise c v).symm
  · have hset' : ∀ v, i ≠ .setreg .symw v := fun v hv => hset ⟨v, hv⟩
    have hrun := exec_veiled (w := s.symw) h hreset hset' fun _ => rfl
    cases ht : exec i s with
    | next t =>
      have hw := exec_symw hreset hset' ht
      rw [ht] at hrun
      refine hrun.trans (congrArg Host.Outcome.next ?_)
      rw [State.veiled, ← hw]
      rfl
    | fault f => exact hrun.trans (by rw [ht]; rfl)
    | refused r => exact hrun.trans (by rw [ht]; rfl)

/-- Settles O17: the outcome in the other run is the outcome here, with the other IN. -/
theorem readsStayBelowTheReadLimit : Obligations.ReadsStayBelowTheReadLimit := by
  intro i s m h
  have hrun : exec i (s.withIn m) = mapNext (State.withIn m) (exec i s) := exec_withIn i h
  refine ⟨fun t ht => ?_, fun f ht => ?_, fun r ht => ?_⟩ <;> rw [ht] at hrun <;> exact hrun

/-- Settles O19: the run with the other SYMW and the same IN. -/
theorem widthIsReadOnlyByDecodeAndEncode : Obligations.WidthIsReadOnlyByDecodeAndEncode := by
  intro i s t w hdecode hencode hgetreg hreset hset ht
  have hrun := exec_veiled (w := w) (m := s.inMem) (i := i) (s := s) (fun _ _ => rfl) hreset hset
    (by rintro (h | h | h) <;> contradiction)
  obtain ⟨-, -, -, -, -, -, -, -, -, -, -, -, hin, -⟩ := stateIsWrittenOnlyBy i s t ht
  rw [ht, mapNext, State.veiled, State.veiled, ← hin] at hrun
  refine ⟨?_, exec_symw hreset hset ht⟩
  simpa [hin] using hrun

end Sys2Proof.Machine
end

section
/-! SUPPORT. The depth-first check of the tree decides WF(tree) (spec/10_state.md R28), and the codes of a well-formed tree are
complete (spec/30_encoding.md R65, spec/42_bit_packer.md R120, R121). -/

namespace Sys2Proof.Machine

/-! ## Paths from ROOT -/

/-- No node is reached by two paths from ROOT. -/
def State.PathsUnique (s : State) : Prop :=
  ∀ c c1 d, s.walk s.root.toNat c = some d → s.walk s.root.toNat c1 = some d → c = c1

/-- A walk passes through a node after each of its steps. -/
theorem State.walk_take {s : State} {i d : Nat} {c : Code} (h : s.walk i c = some d) (k : Nat) :
    ∃ j, s.walk i (c.take k) = some j ∧ s.walk j (c.drop k) = some d := by
  rw [← List.take_append_drop k c, State.walk_append] at h
  exact Option.bind_eq_some_iff.1 h

/-- A node from which a walk goes on is internal. -/
theorem State.internal_of_walk {s : State} {j d : Nat} {c : Code} (h : s.walk j c = some d) (hc : c ≠ []) :
    s.kind j = .internal := by
  cases c with
  | nil => exact absurd rfl hc
  | cons b c =>
    rw [State.walk] at h
    split at h
    · exact (And.left ‹_›)
    · cases h

/-- Where paths are unique, a path meets distinct nodes below NCNT, so it has fewer than NCNT bits. -/
theorem State.PathsUnique.length_lt {s : State} (hu : s.PathsUnique) (hroot : s.root.toNat < s.ncnt.toNat) {c : Code} {d : Nat}
    (h : s.walk s.root.toNat c = some d) : c.length < s.ncnt.toNat := by
  have hnodup : ((List.range (c.length + 1)).map fun k => s.walk s.root.toNat (c.take k)).Nodup := by
    refine List.nodup_range.map_on fun k hk k' hk' he => ?_
    obtain ⟨j, hj, -⟩ := State.walk_take h k
    have hlen := List.take_eq_take_iff.1 (hu _ _ j hj (he.symm.trans hj))
    rw [List.mem_range] at hk hk'
    omega
  have hsub : ((List.range (c.length + 1)).map fun k => s.walk s.root.toNat (c.take k)) ⊆
      (List.range s.ncnt.toNat).map some := by
    intro o ho
    obtain ⟨k, -, rfl⟩ := List.mem_map.1 ho
    obtain ⟨j, hj, -⟩ := State.walk_take h k
    exact List.mem_map.2 ⟨j, List.mem_range.2 (State.walk_below hroot hj), hj.symm⟩
  simpa using (hnodup.subperm hsub).length_le

/-- Of two paths to nodes that are not internal, one begins the other only if they are the same (R65). -/
theorem State.walk_append_stops {s : State} {i d d1 : Nat} {c e : Code} (h : s.walk i c = some d) (hd : s.kind d ≠ .internal)
    (h1 : s.walk i (c ++ e) = some d1) : e = [] := by
  rw [State.walk_append, h] at h1
  by_contra he
  exact hd (State.internal_of_walk h1 he)

/-! ## The nodes the search has met -/

/-- The visits of a search from ROOT that succeeded: one for each path, and no node twice. -/
structure TreeVisits (s : State) (l : List Visit) : Prop where
  kind : ∀ v ∈ l, v.kind = s.kind v.index
  payload : ∀ v ∈ l, v.payload = s.payload v.index
  valid : ∀ v ∈ l, v.kind ≠ .invalid
  walk : ∀ v ∈ l, s.walk s.root.toNat v.path = some v.index
  visit : ∀ c d, s.walk s.root.toNat c = some d → ∃ v ∈ l, v.index = d ∧ v.path = c
  child : ∀ c d, s.walk s.root.toNat c = some d → s.kind d = .internal → ∀ b, s.child d b < s.ncnt.toNat
  index : ∀ v ∈ l, ∀ v' ∈ l, v.index = v'.index → v = v'
  nodup : l.Nodup

theorem treeVisits_of_reachedNodes {s : State} {l : List Visit} (h : reachedNodes s = some l) : TreeVisits s l := by
  obtain ⟨new, hl, hvisit, hpath, hchild, hnodup⟩ := search_some h
  rw [List.append_nil] at hl
  subst hl
  have hidx : (l.map Visit.index).Nodup := hnodup List.nodup_nil
  refine ⟨fun v hv => ?_, fun v hv => ?_, fun v hv => ?_, fun v hv => ?_, hpath, hchild,
    fun v hv v' hv' he => List.inj_on_of_nodup_map hidx hv hv' he, hidx.of_map⟩ <;>
    obtain ⟨-, hkind, hpay, hvalid, c, hc, hwalk⟩ := hvisit v hv
  · exact hkind
  · exact hpay
  · exact hvalid
  · rwa [hc]

section
variable {s : State} {l : List Visit}

theorem TreeVisits.pathsUnique (h : TreeVisits s l) : s.PathsUnique := by
  intro c c1 d hc hc1
  obtain ⟨v, hv, hi, rfl⟩ := h.visit c d hc
  obtain ⟨v', hv', hi', rfl⟩ := h.visit c1 d hc1
  rw [h.index v hv v' hv' (hi.trans hi'.symm)]

theorem mem_dataLeaves {v : Visit} : v ∈ dataLeaves l ↔ v ∈ l ∧ v.kind = .leaf := by simp [dataLeaves]

theorem mem_eofLeaves {v : Visit} : v ∈ eofLeaves l ↔ v ∈ l ∧ v.kind = .eof := by simp [eofLeaves]

theorem TreeVisits.dataLeaves_nodup (h : TreeVisits s l) : (dataLeaves l).Nodup := h.nodup.filter _

theorem TreeVisits.eofLeaves_nodup (h : TreeVisits s l) : (eofLeaves l).Nodup := h.nodup.filter _

/-- A node reached has its visit, with the kind and the payload of its record. -/
theorem TreeVisits.of_reaches (h : TreeVisits s l) {i : Nat} (hi : s.Reaches i) :
    ∃ v ∈ l, v.index = i ∧ v.kind = s.kind i ∧ v.payload = s.payload i := by
  obtain ⟨c, hc⟩ := hi
  obtain ⟨v, hv, rfl, -⟩ := h.visit c i hc
  exact ⟨v, hv, rfl, h.kind v hv, h.payload v hv⟩

theorem TreeVisits.reaches (h : TreeVisits s l) {v : Visit} (hv : v ∈ l) : s.Reaches v.index := ⟨_, h.walk v hv⟩

/-- One EOF leaf met is one EOF leaf reached (R28 item 4). -/
theorem TreeVisits.oneEof (h : TreeVisits s l) :
    (eofLeaves l).length = 1 ↔ ∃ e, s.Reaches e ∧ s.kind e = .eof ∧ ∀ e', s.Reaches e' → s.kind e' = .eof → e' = e := by
  constructor
  · intro h1
    obtain ⟨v, hv⟩ := List.length_eq_one_iff.1 h1
    obtain ⟨hmem, hk⟩ := mem_eofLeaves.1 (hv ▸ List.mem_singleton_self v)
    refine ⟨v.index, h.reaches hmem, (h.kind v hmem).symm.trans hk, fun e' he' hk' => ?_⟩
    obtain ⟨v', hmem', rfl, hkind, -⟩ := h.of_reaches he'
    have hin : v' ∈ eofLeaves l := mem_eofLeaves.2 ⟨hmem', hkind.trans hk'⟩
    rw [hv, List.mem_singleton] at hin
    rw [hin]
  · rintro ⟨e, he, hk, honly⟩
    obtain ⟨v, hv, rfl, hkind, -⟩ := h.of_reaches he
    have hperm : (eofLeaves l).Perm [v] := by
      refine (List.perm_ext_iff_of_nodup h.eofLeaves_nodup (List.nodup_singleton v)).2 fun v' => ?_
      rw [List.mem_singleton, mem_eofLeaves]
      constructor
      · rintro ⟨hv', hk'⟩
        exact h.index v' hv' v hv (honly _ (h.reaches hv') ((h.kind v' hv').symm.trans hk'))
      · rintro rfl
        exact ⟨hv, hkind.trans hk⟩
    exact hperm.length_eq

/-- The data leaves met hold distinct symbols where those reached do (R28 item 5). -/
theorem TreeVisits.distinctSymbols (h : TreeVisits s l) :
    ((dataLeaves l).map Visit.payload).Nodup ↔
      ∀ i j, s.Reaches i → s.Reaches j → s.kind i = .leaf → s.kind j = .leaf → s.payload i = s.payload j → i = j := by
  rw [List.nodup_map_iff_inj_on h.dataLeaves_nodup]
  constructor
  · intro hinj i j hi hj hki hkj hp
    obtain ⟨v, hv, rfl, hk, hpay⟩ := h.of_reaches hi
    obtain ⟨v', hv', rfl, hk', hpay'⟩ := h.of_reaches hj
    rw [hinj v (mem_dataLeaves.2 ⟨hv, hk.trans hki⟩) v' (mem_dataLeaves.2 ⟨hv', hk'.trans hkj⟩)
      (hpay.trans (hp.trans hpay'.symm))]
  · intro hinj v hv v' hv' hp
    obtain ⟨hv, hk⟩ := mem_dataLeaves.1 hv
    obtain ⟨hv', hk'⟩ := mem_dataLeaves.1 hv'
    rw [h.payload v hv, h.payload v' hv'] at hp
    exact h.index v hv v' hv' (hinj _ _ (h.reaches hv) (h.reaches hv') ((h.kind v hv).symm.trans hk)
      ((h.kind v' hv').symm.trans hk') hp)

/-- A data leaf is met where one is reached (R28 item 6). -/
theorem TreeVisits.someData (h : TreeVisits s l) : (dataLeaves l).length ≠ 0 ↔ ∃ i, s.Reaches i ∧ s.kind i = .leaf := by
  rw [← Nat.pos_iff_ne_zero, List.length_pos_iff_exists_mem]
  constructor
  · rintro ⟨v, hv⟩
    obtain ⟨hv, hk⟩ := mem_dataLeaves.1 hv
    exact ⟨v.index, h.reaches hv, (h.kind v hv).symm.trans hk⟩
  · rintro ⟨i, hi, hk⟩
    obtain ⟨v, hv, rfl, hkind, -⟩ := h.of_reaches hi
    exact ⟨v, mem_dataLeaves.2 ⟨hv, hkind.trans hk⟩⟩

end

/-! ## The check and WF(tree) -/

/-- What the check holds: ROOT as item 1 has it, a search that succeeds, and the last three items over the visits. -/
theorem wfTree_iff (s : State) : wfTree s = true ↔
    (s.root.toNat < s.ncnt.toNat ∧ s.ncnt.toNat ≤ s.size.nNodes.val ∧ s.kind s.root.toNat = .internal) ∧
    ∃ l, reachedNodes s = some l ∧ (eofLeaves l).length = 1 ∧ ((dataLeaves l).map Visit.payload).Nodup ∧
      (dataLeaves l).length ≠ 0 := by
  unfold wfTree
  cases reachedNodes s <;> simp [and_assoc]

/-- A path to an internal node, and one edge more. -/
theorem State.walk_child {s : State} {i : Nat} {b : Bool} {c : Code} (h : s.walk s.root.toNat c = some i)
    (hk : s.kind i = .internal) (hb : s.child i b < s.ncnt.toNat) : s.walk s.root.toNat (c ++ [b]) = some (s.child i b) :=
  (State.walk_snoc ..).2 ⟨i, h, hk, hb, rfl⟩

/-- Unique paths are no sharing and no cycle (R28 item 3), where the children of the nodes reached exist. -/
theorem State.PathsUnique.noSharing {s : State} (hu : s.PathsUnique)
    (hchild : ∀ i, s.Reaches i → s.kind i = .internal → ∀ b, s.child i b < s.ncnt.toNat) :
    (∀ i b, s.Reaches i → s.kind i = .internal → s.child i b ≠ s.root.toNat) ∧
    ∀ i j b b', s.Reaches i → s.Reaches j → s.kind i = .internal → s.kind j = .internal →
      s.child i b = s.child j b' → i = j ∧ b = b' := by
  have hstep : ∀ {i c}, s.walk s.root.toNat c = some i → s.kind i = .internal → ∀ b,
      s.walk s.root.toNat (c ++ [b]) = some (s.child i b) := fun hc hk b => State.walk_child hc hk (hchild _ ⟨_, hc⟩ hk b)
  constructor
  · rintro i b ⟨c, hc⟩ hk he
    have := hu (c ++ [b]) [] _ (hstep hc hk b) (congrArg some he.symm)
    simp at this
  · rintro i j b b' ⟨c, hc⟩ ⟨c', hc'⟩ hk hk' he
    obtain ⟨rfl, hb⟩ := List.append_inj' (hu _ _ _ (hstep hc hk b) ((hstep hc' hk' b').trans (congrArg some he.symm))) rfl
    exact ⟨Option.some.inj (hc.symm.trans hc'), List.head_eq_of_cons_eq hb⟩

/-- No sharing and no cycle make paths unique: by induction on the last edge. -/
theorem State.TreeWF.pathsUnique {s : State} (h : s.TreeWF) : s.PathsUnique := by
  obtain ⟨-, -, ⟨hroot, hshare⟩, -⟩ := h
  intro c
  induction c using List.reverseRecOn with
  | nil =>
    intro c1 d hc hc1
    rcases List.eq_nil_or_concat' c1 with rfl | ⟨c1, b, rfl⟩
    · rfl
    · obtain ⟨j, hj, hk, -, rfl⟩ := (State.walk_snoc ..).1 hc1
      exact absurd (Option.some.inj hc).symm (hroot j b ⟨c1, hj⟩ hk)
  | append_singleton c b ih =>
    intro c1 d hc hc1
    obtain ⟨i, hi, hk, -, rfl⟩ := (State.walk_snoc ..).1 hc
    rcases List.eq_nil_or_concat' c1 with rfl | ⟨c1, b1, rfl⟩
    · exact absurd (Option.some.inj hc1).symm (hroot i b ⟨c, hi⟩ hk)
    · obtain ⟨j, hj, hk1, -, he⟩ := (State.walk_snoc ..).1 hc1
      obtain ⟨rfl, rfl⟩ := hshare i j b b1 ⟨c, hi⟩ ⟨c1, hj⟩ hk hk1 he
      rw [ih c1 i hi hj]

/-- In a well-formed tree the search succeeds. -/
theorem State.TreeWF.reachedNodes {s : State} (h : s.TreeWF) : ∃ l, reachedNodes s = some l := by
  have hu := h.pathsUnique
  obtain ⟨⟨hroot, -, -⟩, hok, -⟩ := h
  exact search_complete [] hroot (fun _ _ hc => hu.length_lt hroot hc) (fun c d hc => hok d ⟨c, hc⟩) (fun c c1 d => hu c c1 d)
    (fun _ _ _ => by simp)

/-- Settles O45: the search meets each node reached once, with its record. -/
theorem treeCheckDecidesWellFormedness : Obligations.TreeCheckDecidesWellFormedness := by
  intro s
  rw [wfTree_iff]
  constructor
  · rintro ⟨hroot, l, hl, heof, hsym, hdata⟩
    have hv := treeVisits_of_reachedNodes hl
    have hchild : ∀ i, s.Reaches i → s.kind i = .internal → ∀ b, s.child i b < s.ncnt.toNat :=
      fun i ⟨c, hc⟩ => hv.child c i hc
    refine ⟨hroot, fun i hi => ⟨?_, hchild i hi⟩, hv.pathsUnique.noSharing hchild, hv.oneEof.1 heof,
      hv.distinctSymbols.1 hsym, hv.someData.1 hdata⟩
    obtain ⟨v, hmem, rfl, hkind, -⟩ := hv.of_reaches hi
    exact hkind ▸ hv.valid v hmem
  · intro h
    obtain ⟨l, hl⟩ := h.reachedNodes
    have hv := treeVisits_of_reachedNodes hl
    obtain ⟨hroot, -, -, heof, hsym, hdata⟩ := h
    exact ⟨hroot, l, hl, hv.oneEof.2 heof, hv.distinctSymbols.2 hsym, hv.someData.2 hdata⟩

end Sys2Proof.Machine
end

section
/-! SUPPORT. The codes of a well-formed tree: what the lookup gives, and that the codes are complete (spec/30_encoding.md R65,
spec/42_bit_packer.md R120, R121). -/

namespace Sys2Proof.Machine

/-! ## What the lookup gives -/

/-- The check's own facts about the visits of a well-formed tree. -/
theorem treeVisits_of_wfTree {s : State} (h : wfTree s = true) :
    ∃ l, reachedNodes s = some l ∧ TreeVisits s l ∧ (eofLeaves l).length = 1 ∧ ((dataLeaves l).map Visit.payload).Nodup := by
  obtain ⟨-, l, hl, heof, hsym, -⟩ := (wfTree_iff s).1 h
  exact ⟨l, hl, treeVisits_of_reachedNodes hl, heof, hsym⟩

/-- Under WF(tree) `codeOf` gives the path of the data leaf that holds the symbol (R120). -/
theorem codeOf_eq_some_iff {s : State} (h : wfTree s = true) (v : Word) (c : Code) :
    codeOf s v = some c ↔ ∃ d, s.walk s.root.toNat c = some d ∧ s.kind d = .leaf ∧ s.payload d = v := by
  obtain ⟨l, hl, hv, -, hsym⟩ := treeVisits_of_wfTree h
  simp only [codeOf, hl, Option.map_eq_some_iff]
  constructor
  · rintro ⟨n, hn, rfl⟩
    have hpay : n.payload = v := by simpa using List.find?_some hn
    obtain ⟨hmem, hk⟩ := mem_dataLeaves.1 (List.mem_of_find?_eq_some hn)
    exact ⟨n.index, hv.walk n hmem, (hv.kind n hmem).symm.trans hk, (hv.payload n hmem).symm.trans hpay⟩
  · rintro ⟨d, hd, hk, rfl⟩
    obtain ⟨n, hmem, rfl, rfl⟩ := hv.visit c d hd
    have hn : n ∈ dataLeaves l := mem_dataLeaves.2 ⟨hmem, (hv.kind n hmem).trans hk⟩
    obtain ⟨n', hn'⟩ := Option.isSome_iff_exists.1
      (List.find?_isSome (p := fun m : Visit => m.payload == s.payload n.index).2 ⟨n, hn, by simp [hv.payload n hmem]⟩)
    have hpay : n'.payload = s.payload n.index := by simpa using List.find?_some hn'
    have hsame : n' = n := List.inj_on_of_nodup_map hsym (List.mem_of_find?_eq_some hn') hn (hpay.trans (hv.payload n hmem).symm)
    exact ⟨n', hn', by rw [hsame]⟩

/-- Under WF(tree) `codeOfEof` is the path of the EOF leaf, the only one (R121). -/
theorem eq_codeOfEof_iff {s : State} (h : wfTree s = true) (c : Code) :
    c = codeOfEof s ↔ ∃ d, s.walk s.root.toNat c = some d ∧ s.kind d = .eof := by
  obtain ⟨l, hl, hv, heof, -⟩ := treeVisits_of_wfTree h
  obtain ⟨n, hn⟩ := List.length_eq_one_iff.1 heof
  obtain ⟨hmem, hk⟩ := mem_eofLeaves.1 (hn ▸ List.mem_singleton_self n)
  have hcode : codeOfEof s = n.path := by simp only [codeOfEof, hl, hn]
  rw [hcode]
  constructor
  · rintro rfl
    exact ⟨n.index, hv.walk n hmem, (hv.kind n hmem).symm.trans hk⟩
  · rintro ⟨d, hd, hkd⟩
    obtain ⟨m, hm, rfl, rfl⟩ := hv.visit c d hd
    have hin : m ∈ eofLeaves l := mem_eofLeaves.2 ⟨hm, (hv.kind m hm).trans hkd⟩
    rw [hn, List.mem_singleton] at hin
    rw [hin]

/-- Under WF(tree) the codes are the paths from ROOT to the leaves (R65). -/
theorem isCode_iff {s : State} (h : wfTree s = true) (c : Code) :
    IsCode s c ↔ ∃ d, s.walk s.root.toNat c = some d ∧ (s.kind d = .leaf ∨ s.kind d = .eof) := by
  rw [IsCode, eq_codeOfEof_iff h]
  simp only [codeOf_eq_some_iff h]
  constructor
  · rintro (⟨v, d, hd, hk, -⟩ | ⟨d, hd, hk⟩)
    · exact ⟨d, hd, .inl hk⟩
    · exact ⟨d, hd, .inr hk⟩
  · rintro ⟨d, hd, hk | hk⟩
    · exact .inl ⟨_, d, hd, hk, rfl⟩
    · exact .inr ⟨d, hd, hk⟩

/-- A code leads to a node that is not internal. -/
theorem IsCode.walk {s : State} (h : wfTree s = true) {c : Code} (hc : IsCode s c) :
    ∃ d, s.walk s.root.toNat c = some d ∧ s.kind d ≠ .internal := by
  obtain ⟨d, hd, hk⟩ := (isCode_iff h c).1 hc
  exact ⟨d, hd, by rcases hk with hk | hk <;> simp [hk]⟩

/-- Of two codes one begins the other only if they are the same (R65). -/
theorem IsCode.append_eq_nil {s : State} (h : wfTree s = true) {c e : Code} (hc : IsCode s c) (hce : IsCode s (c ++ e)) :
    e = [] := by
  obtain ⟨d, hd, hk⟩ := hc.walk h
  obtain ⟨d1, hd1, -⟩ := hce.walk h
  exact State.walk_append_stops hd hk hd1

/-- A bit string begins with one code at most. -/
theorem IsCode.unique {s : State} (h : wfTree s = true) {c c1 e e1 : Code} (hc : IsCode s c) (hc1 : IsCode s c1)
    (he : c ++ e = c1 ++ e1) : c = c1 := by
  rcases List.append_eq_append_iff.1 he with ⟨a, rfl, -⟩ | ⟨a, rfl, -⟩
  · rw [hc.append_eq_nil h hc1, List.append_nil]
  · rw [hc1.append_eq_nil h hc, List.append_nil]

/-! ## Completeness -/

/-- A bit string that leads on from a node reached passes a leaf, or leads to a node. -/
theorem code_or_walk {s : State} (h : wfTree s = true) (w path : Code) {i : Nat} (hi : s.walk s.root.toNat path = some i) :
    (∃ c e, w = c ++ e ∧ IsCode s (path ++ c)) ∨ ∃ d, s.walk s.root.toNat (path ++ w) = some d := by
  obtain ⟨-, hok, -⟩ := (treeCheckDecidesWellFormedness s).1 h
  induction w generalizing path i with
  | nil => exact .inr ⟨i, by simpa using hi⟩
  | cons b w ih =>
    have hleaf : s.kind i = .leaf ∨ s.kind i = .eof → IsCode s (path ++ []) := fun hk =>
      (isCode_iff h _).2 ⟨i, by simpa using hi, hk⟩
    obtain ⟨hvalid, hchild⟩ := hok i ⟨path, hi⟩
    cases hk : s.kind i with
    | invalid => exact absurd hk hvalid
    | leaf => exact .inl ⟨[], b :: w, rfl, hleaf (.inl hk)⟩
    | eof => exact .inl ⟨[], b :: w, rfl, hleaf (.inr hk)⟩
    | internal =>
      rcases ih (path ++ [b]) (State.walk_child hi hk (hchild hk b)) with ⟨c, e, rfl, hc⟩ | ⟨d, hd⟩
      · exact .inl ⟨b :: c, e, rfl, by simpa using hc⟩
      · exact .inr ⟨d, by simpa using hd⟩

/-- A bit string of NCNT bits or more begins with a code: no path is that long. -/
theorem exists_code {s : State} (h : wfTree s = true) {w : Code} (hw : s.ncnt.toNat ≤ w.length) :
    ∃ c, IsCode s c ∧ ∃ e, w = c ++ e := by
  rcases code_or_walk h w [] rfl with ⟨c, e, rfl, hc⟩ | ⟨d, hd⟩
  · exact ⟨c, hc, e, rfl⟩
  · have htree := (treeCheckDecidesWellFormedness s).1 h
    have hu := htree.pathsUnique
    obtain ⟨⟨hroot, -⟩, -⟩ := htree
    have := hu.length_lt hroot hd
    rw [List.nil_append] at this
    omega

/-- The first `n` bits of a sequence are the first `m` of them and others. -/
theorem range_map_append (f : Nat → Bool) {m n : Nat} (h : m ≤ n) : ∃ e, (List.range n).map f = (List.range m).map f ++ e := by
  obtain ⟨k, rfl⟩ := Nat.exists_eq_add_of_le h
  exact ⟨_, by rw [List.range_add, List.map_append]⟩

/-- A bit string that begins a sequence is its first bits. -/
theorem eq_range_map {f : Nat → Bool} {n : Nat} {c e : Code} (h : (List.range n).map f = c ++ e) :
    (List.range c.length).map f = c := by
  have hlen := congrArg List.length h
  simp only [List.length_map, List.length_range, List.length_append] at hlen
  have htake := congrArg (List.take c.length) h
  rwa [List.take_left, ← List.map_take, List.take_range, Nat.min_eq_left (by omega)] at htake

/-! ## How long a code is -/

/-- The leaves met are the data leaves and the EOF leaves. -/
theorem countP_leaves {l : List Visit} (h : ∀ v ∈ l, v.kind ≠ .invalid) :
    l.countP (fun v => v.kind != .internal) = (dataLeaves l).length + (eofLeaves l).length := by
  induction l with
  | nil => rfl
  | cons v l ih =>
    have hl := ih fun u hu => h u (List.mem_cons_of_mem v hu)
    have hv := h v List.mem_cons_self
    simp only [dataLeaves, eofLeaves, List.countP_cons, List.filter_cons] at hl ⊢
    cases hk : v.kind with
    | invalid => exact absurd hk hv
    | internal => simpa using hl
    | leaf =>
      simp
      omega
    | eof =>
      simp
      omega

/-- A well-formed tree has as many internal nodes as data leaves: one fewer than leaves (R28). -/
theorem countP_internal {s : State} {l : List Visit} (hl : reachedNodes s = some l) (heof : (eofLeaves l).length = 1) :
    l.countP (fun v => v.kind == .internal) = (dataLeaves l).length := by
  have hcount := search_counts hl
  have hleaves := countP_leaves (treeVisits_of_reachedNodes hl).valid
  simp only [List.countP_nil] at hcount
  omega

/-- A path passes as many internal nodes as it has bits. -/
theorem TreeVisits.length_le_internal {s : State} {l : List Visit} (h : TreeVisits s l) {c : Code} {d : Nat}
    (hc : s.walk s.root.toNat c = some d) : c.length ≤ l.countP (fun v => v.kind == .internal) := by
  have hnodup : ((List.range c.length).map c.take).Nodup := by
    refine List.nodup_range.map_on fun k hk k' hk' he => ?_
    have hlen := List.take_eq_take_iff.1 he
    rw [List.mem_range] at hk hk'
    omega
  have hsub : (List.range c.length).map c.take ⊆ (l.filter fun v => v.kind == .internal).map Visit.path := by
    intro p hp
    obtain ⟨k, hk, rfl⟩ := List.mem_map.1 hp
    obtain ⟨j, hj, hrest⟩ := State.walk_take hc k
    obtain ⟨v, hv, rfl, hpath⟩ := h.visit _ j hj
    have hint := State.internal_of_walk hrest (List.drop_eq_nil_iff.not.2 (Nat.not_le.2 (List.mem_range.1 hk)))
    exact List.mem_map.2 ⟨v, List.mem_filter.2 ⟨hv, by simpa [h.kind v hv] using hint⟩, hpath⟩
  rw [List.countP_eq_length_filter]
  simpa using (hnodup.subperm hsub).length_le

/-- A code is at least one bit long, as ROOT is internal, and at most as long as there are data leaves. -/
theorem IsCode.length_bounds {s : State} (h : wfTree s = true) {c : Code} {l : List Visit} (hc : IsCode s c)
    (hl : reachedNodes s = some l) : 1 ≤ c.length ∧ c.length ≤ (dataLeaves l).length := by
  obtain ⟨⟨-, -, hroot⟩, l', hl', heof, -⟩ := (wfTree_iff s).1 h
  obtain rfl : l' = l := Option.some.inj (hl'.symm.trans hl)
  obtain ⟨d, hd, hk⟩ := hc.walk h
  constructor
  · refine List.length_pos_iff.2 fun hnil => hk ?_
    subst hnil
    rwa [← Option.some.inj hd]
  · rw [← countP_internal hl heof]
    exact (treeVisits_of_reachedNodes hl).length_le_internal hd

/-- Settles O57: a code is there as no path has NCNT bits, only one as no code begins another; its length by counting nodes. -/
theorem everyBitSequenceBeginsWithOneCode : Obligations.EveryBitSequenceBeginsWithOneCode := by
  intro s h
  refine ⟨fun f => ?_, fun w hw => ?_, fun c l hc hl => hc.length_bounds h hl⟩
  · obtain ⟨c, hc, e, he⟩ := exists_code h (w := (List.range s.ncnt.toNat).map f) (by simp)
    refine ⟨c.length, show IsCode s _ from (eq_range_map he).symm ▸ hc, fun n hn => ?_⟩
    obtain ⟨e1, he1⟩ := range_map_append f (Nat.le_max_left n s.ncnt.toNat)
    obtain ⟨e2, he2⟩ := range_map_append f (Nat.le_max_right n s.ncnt.toNat)
    rw [he, List.append_assoc] at he2
    simpa using congrArg List.length (IsCode.unique h hn hc (he1.symm.trans he2))
  · obtain ⟨c, hc, e, he⟩ := exists_code h hw
    exact ⟨c, ⟨hc, e, he⟩, fun c1 ⟨hc1, e1, he1⟩ => IsCode.unique h hc1 hc (he1.symm.trans he)⟩

end Sys2Proof.Machine
end

section
/-! SUPPORT. A step, and the bits that RDBITS reads and WRBITS and FLUSH write (spec/20_memory.md R40, R41, R46, spec/40_bitcursor.md
R81 to R85): one command, then scripts of them, and that the bits written are the bits read back (R89). -/

namespace Sys2Proof.Machine

/-- Settles O10: the head of the script is the move a step takes, and a legal packet is run by `exec`. -/
theorem stepRunsTheDecodedCommand : Obligations.StepRunsTheDecodedCommand :=
  ⟨fun _ _ _ _ hscript hdec => (step_move hscript).trans (runPacket_legal hdec _), fun _ => step_idle⟩

/-! ## RDBITS -/

/-- Where bits are left and RLIM is legal, RDBITS answers the number they write and moves the read cursor past them (R81, R84). -/
theorem exec_rdbits_done {s : State} {n : BitVec 8} (he : s.err = 0) (h1 : 1 ≤ n.toNat) (h64 : n.toNat ≤ 64)
    (hm : s.readPos + n.toNat ≤ 8 * s.rlim.toNat) (hl : s.rlim.toNat ≤ s.size.inSize.val) :
    exec (.rdbits n) s = .next ((s.setReadPos (s.readPos + n.toNat)).respond .done
      (BitVec.ofNat 64 (bitsNat (s.inCode s.readPos n.toNat)))) := by
  have hrun : exec (.rdbits n) s = (getBits n.toNat s).answer (fun _ => .done) (fun v => v) :=
    issue_run _ he (decide_eq_true ⟨h1, h64⟩)
  rw [hrun, getBits_ok h1 hm hl, Res.answer_ok]

/-- Settles O26: at most 64 bits are read, so the answer holds the whole number. -/
theorem rdbitsCompletes : Obligations.RdbitsCompletes := by
  intro s n he h1 h64 hm hl
  refine ⟨_, _, exec_rdbits_done he h1 h64 hm hl, rfl, State.readPos_advance hm, ?_⟩
  have hlt : bitsNat (s.inCode s.readPos n.toNat) < 2 ^ n.toNat := by simpa using bitsNat_lt (s.inCode s.readPos n.toNat)
  rw [BitVec.toNat_ofNat, Nat.mod_eq_of_lt (hlt.trans_le (Nat.pow_le_pow_right (by decide) h64))]

/-! ## WRBITS -/

/-- WRBITS of a legal count, with no fault recorded, is `put` of the value's low bits (R85). -/
theorem exec_wrbits_run {s : State} {n : BitVec 8} (v : Word) (he : s.err = 0) (h1 : 1 ≤ n.toNat) (h64 : n.toNat ≤ 64) :
    exec (.wrbits n v) s = (put (valueBits v n.toNat) s).answer (fun _ => .done) (fun _ => 0) := by
  rw [← msbFirst_eq_valueBits]
  exact issue_run _ he (decide_eq_true ⟨h1, h64⟩)

/-- Settles O27: what fits is appended by `put`'s loop. -/
theorem wrbitsCompletes : Obligations.WrbitsCompletes := by
  intro s n v he h1 h64 hc hf hl
  have hfit : s.Fits (valueBits v n.toNat).length := by rwa [valueBits_length]
  refine ⟨(s.putBits (valueBits v n.toNat)).respond .done 0, ?_, ?_, rfl, appended_putBits _ hc (State.fits_lt hfit)⟩
  · rw [exec_wrbits_run v he h1 h64, put_ok hfit hl, Res.answer_ok]
  · rw [OnlyWriteSide, putBits_eq]
    rfl

/-! ## Commands that end with no fault recorded -/

/-- A command that ends through a helper with no fault recorded answered the helper's value. -/
theorem Res.answer_next_ok {α : Type} {r : Res α} {stat : α → Stat} {val : α → Word} {t : State}
    (h : r.answer stat val = .next t) (ht : t.err = 0) : ∃ a s, r = .ok a s ∧ t = s.respond (stat a) (val a) := by
  rcases Res.answer_next h with hok | ⟨c, info, s, -, rfl⟩
  · exact hok
  · rw [State.raise_err] at ht
    split at ht
    · exact absurd ht c.code_ne_zero
    · contradiction

/-- Only RESET clears ERR: where another command leaves no fault recorded, it found none (R203). -/
theorem exec_err_zero {i : Instr} {s t : State} (hi : i ≠ .reset) (ht : exec i s = .next t) (he : t.err = 0) : s.err = 0 := by
  by_contra hs
  obtain ⟨herr, -⟩ := (firstFaultIsLatched i s t ht).2.2 hs hi
  exact hs (herr.symm.trans he)

/-- A WRBITS that leaves no fault recorded has appended its bits. -/
theorem exec_wrbits_appended {s t : State} {n : BitVec 8} {v : Word} (h1 : 1 ≤ n.toNat) (h64 : n.toNat ≤ 64) (hc : s.AccClear)
    (ht : exec (.wrbits n v) s = .next t) (he : t.err = 0) : Appended s t (valueBits v n.toNat) := by
  rw [exec_wrbits_run v (exec_err_zero (by simp) ht he) h1 h64] at ht
  obtain ⟨_, u, hput, rfl⟩ := Res.answer_next_ok ht he
  rcases put_cases (valueBits v n.toNat) s with ⟨h, hf, -⟩ | ⟨h, -⟩ | ⟨a, h, -⟩
  · cases h.symm.trans hput
    exact appended_putBits _ hc (State.fits_lt hf)
  · cases h.symm.trans hput
  · cases h.symm.trans hput

/-- A FLUSH that leaves no fault recorded has appended zero bits up to the byte boundary it ends at (R83). -/
theorem exec_flush_appended {s t : State} (hc : s.AccClear) (ht : exec .flush s = .next t) (he : t.err = 0) :
    Appended s t (padding s.wbit.toNat) ∧ t.wbit = 0 := by
  have hrun : exec .flush s = (flushPad s).answer (fun _ => .done) (fun k => BitVec.ofNat 64 k) :=
    issue_run _ (exec_err_zero (by simp) ht he) rfl
  rw [hrun] at ht
  obtain ⟨_, u, hflush, rfl⟩ := Res.answer_next_ok ht he
  rcases flushPad_cases s with ⟨h, h0⟩ | ⟨h, h0, hlt, -⟩ | ⟨h, -⟩ | ⟨h, -⟩
  · cases h.symm.trans hflush
    rw [h0]
    exact ⟨appended_nil hc, h0⟩
  · cases h.symm.trans hflush
    have hfit : s.Fits (padding s.wbit.toNat).length := by
      have := s.wbit.isLt
      simp only [State.Fits, State.bytesFor, padding, List.length_replicate]
      omega
    refine ⟨?_, rfl⟩
    rw [flushPad_eq_putBits hc h0]
    exact appended_putBits _ hc (State.fits_lt hfit)
  · cases h.symm.trans hflush
  · cases h.symm.trans hflush

/-! ## Scripts -/

/-- A script runs if its first command answers and the rest runs after it. -/
theorem execAll_cons_eq_some {i : Instr} {l : List Instr} {s u : State} {rs : List Response} :
    execAll (i :: l) s = some (u, rs) ↔
      ∃ t r rs', exec i s = .next t ∧ t.rsp = some r ∧ execAll l t = some (u, rs') ∧ rs = r :: rs' := by
  rw [execAll]
  cases exec i s with
  | next t =>
    cases hr : t.rsp with
    | none => simp [hr]
    | some r =>
      cases hl : execAll l t with
      | none => simp [hl]
      | some x =>
        obtain ⟨u', rs'⟩ := x
        simp [hr, hl, eq_comm]
  | fault f => simp
  | refused r => simp

/-- Where a script without RESET leaves no fault recorded, it found none. -/
theorem execAll_err_zero {l : List Instr} {s u : State} {rs : List Response} (hl : .reset ∉ l)
    (h : execAll l s = some (u, rs)) (he : u.err = 0) : s.err = 0 := by
  induction l generalizing s rs with
  | nil =>
    cases h
    exact he
  | cons i l ih =>
    obtain ⟨t, r, rs', hi, -, hrest, -⟩ := execAll_cons_eq_some.1 h
    rw [List.mem_cons, not_or] at hl
    exact exec_err_zero (Ne.symm hl.1) hi (ih hl.2 hrest)

/-- The bits that WRBITS commands with these counts and values append, end to end (R85). -/
def writtenBits (ws : List (BitVec 8 × Word)) : Code := ws.flatMap fun e => valueBits e.2 e.1.toNat

theorem writtenBits_cons (n : BitVec 8) (v : Word) (ws : List (BitVec 8 × Word)) :
    writtenBits ((n, v) :: ws) = valueBits v n.toNat ++ writtenBits ws := rfl

/-- WRBITS commands and a FLUSH that leave no fault recorded have appended the bits of the values and some padding, up to a byte
boundary. -/
theorem execAll_wrbits_flush_appended {ws : List (BitVec 8 × Word)} {s t : State} {rs : List Response}
    (hws : ∀ e ∈ ws, 1 ≤ e.1.toNat ∧ e.1.toNat ≤ 64) (hc : s.AccClear)
    (h : execAll (ws.map (fun e => Instr.wrbits e.1 e.2) ++ [.flush]) s = some (t, rs)) (he : t.err = 0) :
    t.wbit = 0 ∧ ∃ p, Appended s t (writtenBits ws ++ p) := by
  induction ws generalizing s rs with
  | nil =>
    obtain ⟨t', r, rs', hflush, -, hnil, -⟩ := execAll_cons_eq_some.1 h
    cases hnil
    obtain ⟨happ, h0⟩ := exec_flush_appended hc hflush he
    exact ⟨h0, _, happ⟩
  | cons e ws ih =>
    obtain ⟨s1, r, rs', hwr, -, hrest, -⟩ := execAll_cons_eq_some.1 h
    obtain ⟨⟨h1, h64⟩, hws'⟩ := List.forall_mem_cons.1 hws
    have he1 : s1.err = 0 := execAll_err_zero (by simp) hrest he
    have happ := exec_wrbits_appended h1 h64 hc hwr he1
    obtain ⟨h0, p, happ'⟩ := ih hws' happ.2.2.1 hrest
    refine ⟨h0, p, ?_⟩
    rw [writtenBits_cons, List.append_assoc]
    exact appended_trans happ happ'

/-- Bits appended between two byte boundaries are whole bytes of OUT; a state whose IN holds those bytes reads the same bits. -/
theorem Appended.inCode_eq {s t u : State} {c : Code} (h : Appended s t c) (hs : s.wbit = 0) (ht : t.wbit = 0)
    (hu : ∀ a, s.wbyte.toNat ≤ a → a < t.wbyte.toNat → u.inByte a = t.outByte a) :
    8 * s.wbyte.toNat + c.length = 8 * t.wbyte.toNat ∧ u.inCode (8 * s.wbyte.toNat) c.length = c := by
  obtain ⟨hbyte, hpend, -, hbits, -⟩ := h
  have hsp : s.pending = [] := by simp [State.pending, hs]
  have htp : t.pending = [] := by simp [State.pending, ht]
  rw [hsp, List.nil_append] at hpend hbits
  have hw : s.wbit.toNat = 0 := by
    rw [hs]
    rfl
  have hwhole : c.length ≤ 8 * s.bytesFor c.length := by
    rw [htp] at hpend
    exact List.drop_eq_nil_iff.1 hpend.symm
  have hlen : c.length = 8 * s.bytesFor c.length := by
    simp only [State.bytesFor, hw] at hwhole ⊢
    omega
  refine ⟨by omega, List.ext_getElem (by simp) fun k hk hkc => ?_⟩
  have hdiv : (8 * s.wbyte.toNat + k) / 8 = s.wbyte.toNat + k / 8 := by omega
  calc (u.inCode (8 * s.wbyte.toNat) c.length)[k]
      = (u.inByte (s.wbyte.toNat + k / 8)).getLsbD (7 - k % 8) := by simp [State.inCode, State.inBit, hdiv]
    _ = (t.outByte (s.wbyte.toNat + k / 8)).getLsbD (7 - k % 8) := by rw [hu _ (by omega) (by omega)]
    _ = c.getD k false := hbits k (by omega)
    _ = c.get ⟨k, hkc⟩ := by simp [hkc]

/-- RDBITS commands over bits that WRBITS commands of the same counts write answer the low bits of the values, in order. -/
theorem execAll_rdbits {ws : List (BitVec 8 × Word)} {u : State} (hws : ∀ e ∈ ws, 1 ≤ e.1.toNat ∧ e.1.toNat ≤ 64)
    (he : u.err = 0) (hl : u.rlim.toNat ≤ u.size.inSize.val) (hm : u.readPos + (writtenBits ws).length ≤ 8 * u.rlim.toNat)
    (hi : u.inCode u.readPos (writtenBits ws).length = writtenBits ws) :
    ∃ x, execAll (ws.map fun e => Instr.rdbits e.1) u =
      some (x, ws.map fun e => ⟨.done, BitVec.ofNat 64 (e.2.toNat % 2 ^ e.1.toNat)⟩) := by
  induction ws generalizing u with
  | nil => exact ⟨u, rfl⟩
  | cons e ws ih =>
    obtain ⟨n, v⟩ := e
    obtain ⟨hn, hws'⟩ := List.forall_mem_cons.1 hws
    obtain ⟨h1, h64⟩ : 1 ≤ n.toNat ∧ n.toNat ≤ 64 := hn
    rw [writtenBits_cons, List.length_append, valueBits_length] at hm hi
    rw [State.inCode_add] at hi
    obtain ⟨hi1, hi2⟩ := List.append_inj hi (by simp)
    have hread := exec_rdbits_done he h1 h64 (by omega) hl
    rw [hi1, bitsNat_valueBits] at hread
    generalize hw : (u.setReadPos (u.readPos + n.toNat)).respond .done (BitVec.ofNat 64 (v.toNat % 2 ^ n.toNat)) = w at hread
    have hpos : w.readPos = u.readPos + n.toNat := by
      rw [← hw]
      exact State.readPos_advance (by omega)
    have hin (k : Nat) : w.inCode w.readPos k = u.inCode (u.readPos + n.toNat) k := by
      rw [hpos]
      exact State.inCode_congr (by rw [← hw]; rfl) _ _
    have hlim : w.rlim = u.rlim := by
      rw [← hw]
      rfl
    obtain ⟨x, hx⟩ := ih hws' (u := w) (by rw [← hw]; exact he) (by rw [← hw]; exact hl) (by rw [hpos, hlim]; omega)
      ((hin _).trans hi2)
    exact ⟨x, execAll_cons_eq_some.2 ⟨_, _, _, hread, by rw [← hw]; rfl, hx, rfl⟩⟩

/-- Settles O33: the writer's bits are appended whole, the reader's IN holds them, and the reads take them in the same pieces. -/
theorem writtenBitsAreReadBack : Obligations.WrittenBitsAreReadBack := by
  intro ws s t u rs hws hc hs hrun ht he hpos hlim hl hin
  obtain ⟨h0, p, happ⟩ := execAll_wrbits_flush_appended hws hc hrun ht
  obtain ⟨hend, hcode⟩ := happ.inCode_eq hs h0 hin
  rw [List.length_append, State.inCode_add] at hcode
  rw [List.length_append] at hend
  refine execAll_rdbits hws he hl (by rw [hpos, hlim]; omega) ?_
  rw [hpos]
  exact (List.append_inj hcode (by simp)).1

end Sys2Proof.Machine
end

section
/-! SUPPORT. The encoding (spec/30_encoding.md R60, R61, R67, R68): what each check of the decoder lets through and what it refuses,
said once, then that decoder and encoder are inverse, the six items of R67, the opcode table, and what an illegal packet does. -/

namespace Sys2Proof

/-! ## What each check lets through -/

theorem whenZero_eq_legal {u : Bool} {d : Decoded} {i : Instr} : whenZero u d = .legal i ↔ u = true ∧ d = .legal i := by
  cases u <;> simp [whenZero]

theorem whenCount_eq_legal {n : BitVec 8} {i j : Instr} : whenCount n j = .legal i ↔ bitCountOk n = true ∧ j = i := by
  unfold whenCount
  split <;> simp [*]

theorem decodeSetreg_eq_legal {imm : BitVec 8} {arg : Word} {i : Instr} :
    decodeSetreg imm arg = .legal i ↔ ∃ r : Reg, r.number = imm ∧ r.writable = true ∧ i = .setreg r arg := by
  constructor
  · intro h
    unfold decodeSetreg at h
    split at h
    · cases h
    · rename_i r hr
      split at h
      · cases h
        exact ⟨r, Reg.number_of_ofNumber hr, ‹_›, rfl⟩
      · cases h
  · rintro ⟨r, rfl, hw, rfl⟩
    simp [decodeSetreg, hw]

theorem decodeGetreg_eq_legal {imm : BitVec 8} {i : Instr} :
    decodeGetreg imm = .legal i ↔ ∃ r : Reg, r.number = imm ∧ i = .getreg r := by
  constructor
  · intro h
    unfold decodeGetreg at h
    split at h
    · cases h
    · rename_i r hr
      cases h
      exact ⟨r, Reg.number_of_ofNumber hr, rfl⟩
  · rintro ⟨r, rfl, rfl⟩
    simp [decodeGetreg]

/-- An IMM of 0 or 1 is its bit 0 (R68). -/
theorem imm_eq_of_le_one : ∀ imm : BitVec 8, imm.toNat ≤ 1 → (if imm.getLsbD 0 then 1 else 0) = imm := by decide

theorem decodeTstep_eq_legal {imm : BitVec 8} {i : Instr} :
    decodeTstep imm = .legal i ↔ ∃ b, (if b then 1 else 0) = imm ∧ i = .tstep b := by
  constructor
  · intro h
    unfold decodeTstep at h
    split at h
    · cases h
      exact ⟨_, imm_eq_of_le_one imm ‹_›, rfl⟩
    · cases h
  · rintro ⟨b, rfl, rfl⟩
    cases b <;> rfl

/-! ## Decoder and encoder -/

/-- The decoder takes a legal command's own fields to the command. -/
theorem decodeFields_fields {i : Instr} (h : i.wellFormed = true) : decodeFields i.op i.imm i.arg = .legal i := by
  cases i with
  | setreg r v => exact decodeSetreg_eq_legal.2 ⟨r, rfl, h, rfl⟩
  | getreg r => exact decodeGetreg_eq_legal.2 ⟨r, rfl, rfl⟩
  | rdbits n | wrbits n _ | rewind n | hasmore n => exact whenCount_eq_legal.2 ⟨h, rfl⟩
  | tstep b => exact decodeTstep_eq_legal.2 ⟨b, rfl, rfl⟩
  | reset | wrnode _ | rdnode | flush | treset | dsym | decode | encsym _ | enceof | encode => rfl

/-- Fields that decode to a command are that command's own, and the command is legal. -/
theorem fields_of_decodeFields {o : Op} {imm : BitVec 8} {arg : Word} {i : Instr} (h : decodeFields o imm arg = .legal i) :
    i.wellFormed = true ∧ i.op = o ∧ i.imm = imm ∧ i.arg = arg := by
  cases o with
  | setreg =>
    obtain ⟨r, rfl, hw, rfl⟩ := decodeSetreg_eq_legal.1 h
    exact ⟨hw, rfl, rfl, rfl⟩
  | getreg =>
    obtain ⟨harg, hget⟩ := whenZero_eq_legal.1 h
    obtain ⟨r, rfl, rfl⟩ := decodeGetreg_eq_legal.1 hget
    exact ⟨rfl, rfl, rfl, (eq_of_beq harg).symm⟩
  | tstep =>
    obtain ⟨harg, hstep⟩ := whenZero_eq_legal.1 h
    obtain ⟨b, rfl, rfl⟩ := decodeTstep_eq_legal.1 hstep
    exact ⟨rfl, rfl, rfl, (eq_of_beq harg).symm⟩
  | wrbits =>
    obtain ⟨hn, rfl⟩ := whenCount_eq_legal.1 h
    exact ⟨hn, rfl, rfl, rfl⟩
  | rdbits | rewind | hasmore =>
    obtain ⟨harg, hcount⟩ := whenZero_eq_legal.1 h
    obtain ⟨hn, rfl⟩ := whenCount_eq_legal.1 hcount
    exact ⟨hn, rfl, rfl, (eq_of_beq harg).symm⟩
  | wrnode | encsym =>
    obtain ⟨himm, hi⟩ := whenZero_eq_legal.1 h
    cases hi
    exact ⟨rfl, rfl, (eq_of_beq himm).symm, rfl⟩
  | reset | rdnode | flush | treset | dsym | decode | enceof | encode =>
    obtain ⟨hzero, hi⟩ := whenZero_eq_legal.1 h
    obtain ⟨himm, harg⟩ := Bool.and_eq_true_iff.1 hzero
    cases hi
    exact ⟨rfl, rfl, (eq_of_beq himm).symm, (eq_of_beq harg).symm⟩

/-- Where OP names an opcode, the decoder reads the other two fields under it. -/
theorem decode_of_ofCode {p : Packet} {o : Op} (h : Op.ofCode (opOf p) = some o) : decode p = decodeFields o (immOf p) (argOf p) := by
  simp only [decode, h]

theorem decode_reserved {p : Packet} (h : Op.ofCode (opOf p) = none) : decode p = .illegal .undefinedOpcode := by
  simp only [decode, h]

/-- Settles O2: OP reads back the opcode, and under it IMM and ARG read back the operands. -/
theorem decodeOfEncode : Obligations.DecodeOfEncode := by
  intro i h
  have hop : Op.ofCode (opOf (encode i)) = some i.op := by rw [encode, opOf_packet, Op.ofCode_code]
  rw [decode_of_ofCode hop, encode, immOf_packet, argOf_packet, decodeFields_fields h]

/-- Settles O3: a packet is its three fields, and each is the command's own. -/
theorem encodeOfDecode : Obligations.EncodeOfDecode := by
  intro p i h
  cases ho : Op.ofCode (opOf p) with
  | none => cases (decode_reserved ho).symm.trans h
  | some o =>
    obtain ⟨hw, rfl, himm, harg⟩ := fields_of_decodeFields ((decode_of_ofCode ho).symm.trans h)
    exact ⟨hw, by rw [encode, Op.code_of_ofCode ho, himm, harg, packet_fields]⟩

/-! ## The six items of R67 -/

@[simp] theorem whenZero_illegal {u : Bool} {d : Decoded} :
    (∃ why, whenZero u d = .illegal why) ↔ u = false ∨ ∃ why, d = .illegal why := by
  cases u <;> simp [whenZero]

@[simp] theorem whenCount_illegal {n : BitVec 8} {i : Instr} :
    (∃ why, whenCount n i = .illegal why) ↔ n = 0 ∨ 64 < n.toNat := by
  have hzero : n = 0 ↔ n.toNat = 0 := BitVec.toNat_inj.symm
  have hok : bitCountOk n = true ↔ 1 ≤ n.toNat ∧ n.toNat ≤ 64 := decide_eq_true_iff
  rw [hzero, whenCount]
  split
  · rename_i h
    have := hok.1 h
    simp only [reduceCtorEq, exists_false, false_iff]
    omega
  · rename_i h
    rw [hok] at h
    simp only [Decoded.illegal.injEq, exists_eq', true_iff]
    omega

/-- The read-only registers by number (R12). -/
theorem Reg.writable_eq_false (r : Reg) :
    r.writable = false ↔ r.number ∈ ([5, 6, 9, 12, 13, 14] : List (BitVec 8)) := by
  cases r <;> decide

@[simp] theorem decodeSetreg_illegal {imm : BitVec 8} {arg : Word} :
    (∃ why, decodeSetreg imm arg = .illegal why) ↔
      14 < imm.toNat ∨ imm ∈ ([5, 6, 9, 12, 13, 14] : List (BitVec 8)) := by
  unfold decodeSetreg
  cases h : Reg.ofNumber imm with
  | none => simp [(Reg.ofNumber_none imm).1 h]
  | some r =>
    have hlow : ¬ 14 < imm.toNat := fun hn => by cases h.symm.trans ((Reg.ofNumber_none imm).2 hn)
    rw [← Reg.number_of_ofNumber h] at hlow ⊢
    rw [← Reg.writable_eq_false]
    cases hw : r.writable <;> simp [hlow, hw]

@[simp] theorem decodeGetreg_illegal {imm : BitVec 8} : (∃ why, decodeGetreg imm = .illegal why) ↔ 14 < imm.toNat := by
  rw [← Reg.ofNumber_none]
  unfold decodeGetreg
  cases Reg.ofNumber imm <;> simp

@[simp] theorem decodeTstep_illegal {imm : BitVec 8} : (∃ why, decodeTstep imm = .illegal why) ↔ 1 < imm.toNat := by
  unfold decodeTstep
  split <;> simp <;> omega

/-- Settles O4: a reserved OP is item 1; under each opcode the items left are the checks its row makes. -/
theorem illegalPacketsAreTheSixItems : Obligations.IllegalPacketsAreTheSixItems := by
  intro p
  cases ho : Op.ofCode (opOf p) with
  | none => exact iff_of_true ⟨_, decode_reserved ho⟩ (.inl ((Op.ofCode_none _).1 ho))
  | some o =>
    rw [decode_of_ofCode ho, ← Op.code_of_ofCode ho]
    cases o <;> simp [Op.code, decodeFields, or_comm, Bool.and_eq_false_iff, -Bool.and_eq_false_imp]

/-! ## The opcode table -/

/-- The rows that leave IMM free. -/
theorem Op.immOf_mask {o : Op} (h : o ∈ [Op.setreg, .getreg, .rdbits, .wrbits, .rewind, .hasmore]) : immOf o.mask = 0#8 := by
  revert o
  decide

/-- The rows that leave ARG free. -/
theorem Op.argOf_mask {o : Op} (h : o ∈ [Op.setreg, .wrnode, .wrbits, .encsym]) : argOf o.mask = 0#64 := by
  revert o
  decide

/-- A row fixes at zero what its commands leave zero: of a direction, all bits but bit 0 (R68). -/
theorem Instr.imm_and_mask (i : Instr) : i.imm &&& immOf i.op.mask = 0 := by
  cases i with
  | setreg | getreg | rdbits | wrbits | rewind | hasmore =>
    exact (congrArg _ (Op.immOf_mask (by simp [Instr.op]))).trans BitVec.and_zero
  | tstep b => cases b <;> rfl
  | reset | wrnode | rdnode | flush | treset | dsym | decode | encsym | enceof | encode => exact BitVec.zero_and

theorem Instr.arg_and_mask (i : Instr) : i.arg &&& argOf i.op.mask = 0 := by
  cases i with
  | setreg | wrnode | wrbits | encsym =>
    exact (congrArg _ (Op.argOf_mask (by simp [Instr.op]))).trans BitVec.and_zero
  | reset | getreg | rdnode | rdbits | rewind | hasmore | flush | treset | tstep | dsym | decode | enceof | encode =>
    exact BitVec.zero_and

/-- A packet that a row matches has the row's opcode. -/
theorem Op.code_of_match {p : Packet} {o : Op} (h : p &&& o.mask = o.pattern) : opOf p = o.code := by
  rw [← packet_fields p, ← packet_fields o.mask, packet_and, Op.opOf_mask] at h
  have hop := congrArg opOf h
  rw [opOf_packet, Op.pattern, opOf_packet] at hop
  rw [← hop]
  exact (BitVec.and_allOnes).symm

/-- Settles O5: a legal packet is its command's own, whose fixed fields are zero; a row that matches is the one OP names. -/
theorem legalPacketSelectsOneTableRow : Obligations.LegalPacketSelectsOneTableRow := by
  refine ⟨fun p i h => ?_, fun p o o' h h' => ?_⟩
  · obtain ⟨-, rfl⟩ := encodeOfDecode p i h
    have hop : i.op.code &&& 0xFF = i.op.code := BitVec.and_allOnes
    rw [← packet_fields i.op.mask, encode, packet_and, Op.opOf_mask, i.imm_and_mask, i.arg_and_mask, hop, Op.pattern]
  · have hcode : o.code = o'.code := (Op.code_of_match h).symm.trans (Op.code_of_match h')
    simpa using congrArg Op.ofCode hcode

/-- Settles O1: each packet is one closed evaluation of the decoder. -/
theorem specPacketsDecode : Obligations.SpecPacketsDecode := by
  unfold Obligations.SpecPacketsDecode
  decide

namespace Machine

/-- Settles O11: with no fault recorded the gate lets the packet through to ILLEGAL_COMMAND, whose info is the packet's head. -/
theorem illegalPacketRaises : Obligations.IllegalPacketRaises := by
  intro s p rest why hscript hdec he
  have hraise : illegalPacket p (s.setScript rest) =
      (s.setScript rest).raise .illegalCommand (headInfo (opOf p) (immOf p)) := if_neg fun h => h.1 he
  rw [step_move hscript, runMove, runPacket_illegal hdec, hraise, headInfo_fields, State.raise_eq]
  simp [he, State.setScript, FaultCode.code]

end Machine

end Sys2Proof
end

section
/-! SUPPORT. The faults of SETREG and of the BitCursor commands (spec/43_system.md R141, spec/40_bitcursor.md R81 to R86,
spec/60_exceptions.md R207), and DSYM along a code (spec/41_tree_decoder.md R101, R104). -/

namespace Sys2Proof.Machine

/-- A fault taken with none recorded sets ERR, EINFO and the response, and nothing else (R203). -/
theorem State.raise_first {s : State} (c : FaultCode) (info : Word) (he : s.err = 0) :
    s.raise c info = { s with err := c.code, einfo := info, rsp := some ⟨.fault c, info⟩ } := by
  rw [State.raise_eq, if_pos he, if_pos he]

/-- The info word of an illegal command is `256·OP + IMM` (R201). -/
theorem Instr.headInfo_eq (i : Instr) : i.headInfo = BitVec.ofNat 64 (256 * i.op.code.toNat + i.imm.toNat) := by
  apply BitVec.eq_of_toNat_eq
  have hcode := i.op.code.isLt
  have himm := i.imm.isLt
  rw [Instr.headInfo, Sys2Proof.headInfo, BitVec.toNat_setWidth, BitVec.toNat_append, BitVec.toNat_ofNat,
    ← Nat.shiftLeft_add_eq_or_of_lt himm, Nat.shiftLeft_eq, Nat.mul_comm]

/-- An illegal command with no fault recorded raises ILLEGAL_COMMAND with its OP and IMM and changes nothing else (R67, R201). -/
theorem exec_illegal_first {i : Instr} {s : State} (he : s.err = 0) (hw : i.wellFormed = false) :
    exec i s = .next { s with
      err := 0x81, einfo := BitVec.ofNat 64 (256 * i.op.code.toNat + i.imm.toNat),
      rsp := some ⟨.fault .illegalCommand, BitVec.ofNat 64 (256 * i.op.code.toNat + i.imm.toNat)⟩ } := by
  rw [exec_illegal he hw, State.raise_first _ _ he, Instr.headInfo_eq]
  rfl

/-! ## SETREG -/

/-- SETREG of a value outside the legal range of a register it may write (R141). -/
theorem exec_setreg_fault {s : State} {r : Reg} {v : Word} {c : FaultCode} (he : s.err = 0) (hr : r.writable = true)
    (hv : s.setregFault r v = some c) :
    exec (.setreg r v) s = .next { s with err := c.code, einfo := v, rsp := some ⟨.fault c, v⟩ } := by
  show issue (.setreg r v) s _ = _
  rw [issue_run (i := .setreg r v) _ he hr, hv, ← State.raise_first _ _ he]

/-- Settles O22: each range is the one `setregFault` checks; a read-only register is an illegal command. -/
theorem setregRejectsOtherValues : Obligations.SetregRejectsOtherValues := by
  intro s r v he
  refine ⟨?_, ?_, fun hr => ?_⟩
  · rintro rfl hv
    exact exec_setreg_fault (c := .unsupportedConfig) he rfl (if_pos hv)
  · rintro (⟨rfl, hv⟩ | ⟨rfl, hv⟩ | ⟨rfl, hv⟩ | ⟨rfl, hv⟩ | ⟨rfl, hv⟩ | ⟨rfl, hv⟩ | ⟨rfl, hv⟩ | ⟨rfl, hv⟩) <;>
      exact exec_setreg_fault (c := .badValue) he rfl (if_pos hv)
  · have hro : r.writable = false := by
      revert r
      decide
    exact exec_illegal_first (i := .setreg r v) he hro

/-! ## BitCursor commands -/

/-- Settles O31: each condition is the one its command checks first; a count out of range is an illegal command. -/
theorem bitCursorFaultsChangeNothing : Obligations.BitCursorFaultsChangeNothing := by
  intro s n v he
  refine ⟨fun hn => ?_, fun h0 hlim => ?_, fun hn i hi => ?_⟩
  · have hok : bitCountOk n = true := decide_eq_true hn
    refine ⟨fun hm => ?_, fun hm => ?_, fun hf => ?_⟩
    · have hget : getBits n.toNat s = .raise .readUnderrun 0 s :=
        if_neg (by rw [State.hasMore_iff]; omega)
      have hrun : exec (.rdbits n) s = _ := issue_run _ he hok
      rw [hrun, hget, Res.answer_raise, State.raise_first _ _ he]
      rfl
    · have hrun : exec (.rewind n) s = _ := issue_run _ he hok
      rw [hrun, if_pos hm, State.raise_first _ _ he]
      rfl
    · rw [exec_wrbits_run v he hn.1 hn.2, put_overrun (by rwa [valueBits_length]), Res.answer_raise, State.raise_first _ _ he]
      rfl
  · have hflush : flushPad s = .raise .writeOverrun 0 s := by rw [flushPad, if_neg h0, if_pos hlim]
    have hrun : exec .flush s = _ := issue_run _ he rfl
    rw [hrun, hflush, Res.answer_raise, State.raise_first _ _ he]
    rfl
  · have hbad : bitCountOk n = false := decide_eq_false (by omega)
    simp only [List.mem_cons, List.not_mem_nil, or_false] at hi
    rcases hi with rfl | rfl | rfl | rfl <;> exact exec_illegal_first he hbad

/-! ## DSYM -/

/-- DSYM with no fault recorded is `decodeOne` (R104). -/
theorem exec_dsym_run {s : State} (he : s.err = 0) : exec .dsym s = (decodeOne s).answer Answer.stat Answer.val :=
  issue_run _ he rfl

/-- Settles O37: `decodeOne` follows the bits to the leaf; with EOFSEEN set it answers before it reads. -/
theorem dsymFollowsTheCode : Obligations.DsymFollowsTheCode := by
  intro s he hr hn
  refine ⟨fun n d hf hm hc ⟨hne, hw⟩ => ?_, fun hf => ?_⟩
  · obtain ⟨m, rfl⟩ : ∃ m, n = m + 1 := Nat.exists_eq_succ_of_ne_zero fun h0 => hne (by rw [h0]; rfl)
    obtain ⟨k, hk⟩ : ∃ k, s.bitsLeft = m + 1 + k := Nat.exists_eq_add_of_le (by unfold State.bitsLeft; omega)
    have hone : decodeOne s = descendInput (m + 1 + k) s := by
      rw [decodeOne, hk, if_neg (by simp [State.eofSeen, hf])]
    obtain ⟨hleaf, heof⟩ := descendInput_arrive k m d hr hn hm hc hw
    refine ⟨fun hd => ⟨_, by rw [exec_dsym_run he, hone, hleaf hd, Res.answer_ok], ?_, rfl⟩,
      fun hd => ⟨_, by rw [exec_dsym_run he, hone, heof hd, Res.answer_ok], ?_, rfl⟩⟩ <;>
      exact State.readPos_advance hm
  · have hone : decodeOne s = .ok .eof s := if_pos (by simp [State.eofSeen, hf])
    rw [exec_dsym_run he, hone]
    rfl

end Sys2Proof.Machine
end

section
/-! SUPPORT. DECODE of a whole stream (spec/41_tree_decoder.md R105): the loop over the symbols, the turn that ends it, and the
flush; with an EOF code, at the end of the window, and with EOFSEEN set (R101, R106, R107). -/

namespace Sys2Proof.Machine

/-! ## The end of a DECODE -/

/-- SYMW is configured where it is 1 to 64 (R13). -/
theorem State.widthUnset_iff {s : State} : ¬ s.widthUnset = true ↔ 1 ≤ s.symw.toNat ∧ s.symw.toNat ≤ 64 := by
  rw [State.widthUnset, decide_eq_true_eq]
  omega

/-- DECODE with no fault recorded and SYMW configured runs its loop (R105). -/
theorem exec_decode_run {s : State} (he : s.err = 0) (hw : 1 ≤ s.symw.toNat ∧ s.symw.toNat ≤ 64) :
    exec .decode s = (decodeLoop (s.bitsLeft + 1) 0 s).answer (fun r => r.1) (fun r => BitVec.ofNat 64 r.2) :=
  (issue_run _ he rfl).trans (if_neg (State.widthUnset_iff.2 hw))

/-- Where the padding fits, a DECODE that ends appends it and answers. -/
theorem decodeEnds_ok {s : State} (stat : Stat) (count : Nat) (hc : s.AccClear) (hf : s.Fits (padding s.wbit.toNat).length)
    (hl : s.wlim.toNat ≤ s.size.outSize.val) :
    decodeEnds stat count s = .ok (stat, count) (s.putBits (padding s.wbit.toNat)) := by
  obtain ⟨k, hk⟩ := flushPad_ok hc hf hl
  rw [decodeEnds, hk, Res.andThen_ok]

/-- A DECODE whose loop, after a run of symbols and further moves of the read side, comes to its end in `u`: it answers with their
number, and has appended their fields and the padding. -/
theorem exec_decode_ends {s u : State} {c : Code} {vs : List Word} {j : Nat} {stat : Stat} (hs : s.DecodeArmed)
    (hfit : s.FitsPadded (symbolStream s.symw.toNat vs).length) (hu : OnlyDescent (s.decoded c vs j) u)
    (hloop : decodeLoop (s.bitsLeft + 1) 0 s = decodeEnds stat vs.length u) :
    ∃ t, exec .decode s = .next t ∧ t.rsp = some ⟨stat, BitVec.ofNat 64 vs.length⟩ ∧ t.readPos = u.readPos ∧
      Appended s t (symbolStream s.symw.toNat vs ++ padding (s.wbit.toNat + (symbolStream s.symw.toNat vs).length)) ∧
      OnlyCursors { s with tcur := u.tcur, flags := u.flags } t := by
  obtain ⟨he, hw, -, ⟨-, hlim, -⟩, ha⟩ := hs
  have hfit0 := State.fits_mono hfit (Nat.le_add_right _ _)
  have happ := State.appended_decoded c j ha hfit0
  have hpad := State.decoded_padding c j ha hfit0
  have hfit1 := (State.decoded_fits c j _ ha hfit0).1 hfit
  obtain ⟨-, -, -, -, hwlim, hsize, -⟩ := s.decoded_fields c vs j
  have hfix := s.decoded_eq c vs j
  rw [← hpad] at hfit1 ⊢
  rw [← hwlim, ← hsize] at hlim
  generalize s.decoded c vs j = w at *
  have hend : decodeEnds stat vs.length u = .ok (stat, vs.length) (u.putBits (padding w.wbit.toNat)) := by
    have hwbit : w.wbit = u.wbit := by rw [hu]
    rw [hwbit]
    refine decodeEnds_ok stat _ ?_ ?_ ?_ <;> rw [hu]
    · exact happ.2.2.1
    · exact hfit1
    · exact hlim
  have hput : Appended w (u.putBits (padding w.wbit.toNat)) (padding w.wbit.toNat) := by
    rw [hu]
    exact appended_putBits _ happ.2.2.1 (State.fits_lt hfit1)
  refine ⟨(u.putBits (padding w.wbit.toNat)).respond stat (BitVec.ofNat 64 vs.length), ?_, rfl, ?_, appended_trans happ hput, ?_⟩
  · rw [exec_decode_run he hw, hloop, hend, Res.answer_ok]
  · simp [State.readPos]
  · unfold OnlyCursors at hfix ⊢
    rw [putBits_eq, hu, hfix]
    rfl

/-! ## The turn that ends the loop -/

/-- A turn in which `decodeOne` answers EOF ends the loop. -/
theorem decodeLoop_eof {s u : State} (k count : Nat) (h : decodeOne s = .ok .eof u) :
    decodeLoop (k + 1) count s = decodeEnds .eof count u := by
  rw [decodeLoop, h, Res.andThen_ok]

/-- A turn in which `decodeOne` answers EXHAUSTED ends the loop. -/
theorem decodeLoop_exhausted {s u : State} (k count : Nat) (h : decodeOne s = .ok .exhausted u) :
    decodeLoop (k + 1) count s = decodeEnds .exhausted count u := by
  rw [decodeLoop, h, Res.andThen_ok]

/-- Where all bits left lead to ROOT, `decodeOne` consumes them and answers EXHAUSTED (R101, R106). -/
theorem decodeOne_exhausted {s : State} {r : Code} (hf : s.flags = 0) (hl : s.LimitsLegal)
    (hw : s.walk s.tcur.toNat r = some s.root.toNat) (hc : r ≠ [] → s.tcur.toNat < s.ncnt.toNat ∧ s.kind s.root.toNat = .internal)
    (hm : r.length = s.bitsLeft) (hi : s.inCode s.readPos r.length = r) :
    decodeOne s = .ok .exhausted (s.descended r.length s.root.toNat) ∧
      (s.descended r.length s.root.toNat).readPos = s.readPos + r.length := by
  have hone : decodeOne s = descendInput s.bitsLeft s := if_neg (by simp [State.eofSeen, hf])
  rw [hone, ← hm]
  by_cases hnil : r = []
  · subst hnil
    have hroot : s.tcur.toNat = s.root.toNat := Option.some.inj hw
    rw [← hroot, List.length_nil, State.descended_zero]
    exact ⟨if_pos (BitVec.eq_of_toNat_eq hroot), rfl⟩
  · have hpos := List.length_pos_of_ne_nil hnil
    unfold State.bitsLeft at hm
    have hend := descendInput_runsOut (s := s) 0 r.length s.root.toNat hl.1 hl.2.2 (by omega) (by omega)
      (fun _ => (hc hnil).1) (hi.symm ▸ hw) (fun _ => (hc hnil).2)
    exact ⟨hend.1 rfl, s.descended_readPos _ (by omega)⟩

/-! ## The two statements -/

/-- DECODE's loop over a run of symbols that the window holds, before bits `r`: a turn each, so one at least is left, in a state that
decodes on from node `j` and reads `r` next. -/
theorem decodeLoop_run {s : State} {vs : List Word} {c r : Code} {j : Nat} (hs : s.DecodeArmed)
    (hdec : s.Decodes s.tcur.toNat vs c j) (hlen : c.length ≤ s.bitsLeft)
    (hi : s.inCode s.readPos (c ++ r).length = c ++ r) (hfit : s.FitsPadded (symbolStream s.symw.toNat vs).length) :
    (∃ k, decodeLoop (s.bitsLeft + 1) 0 s = decodeLoop (k + 1) vs.length (s.decoded c vs j)) ∧
    (s.decoded c vs j).flags = 0 ∧ (s.decoded c vs j).LimitsLegal ∧ (s.decoded c vs j).tcur.toNat = j ∧
    (s.decoded c vs j).readPos = s.readPos + c.length ∧
    (s.decoded c vs j).inCode (s.decoded c vs j).readPos r.length = r := by
  obtain ⟨-, -, hf, hl, ha⟩ := hs
  obtain ⟨-, -, hncnt, hrlim, hwlim, hsize, -, hin, -, hflags, -⟩ := s.decoded_fields c vs j
  rw [List.length_append, State.inCode_add] at hi
  obtain ⟨hi1, hi2⟩ := List.append_inj hi (by simp)
  have hm : c = [] ∨ s.readPos + c.length ≤ 8 * s.rlim.toNat := by
    rw [← List.length_eq_zero_iff]
    unfold State.bitsLeft at hlen
    omega
  have hpos := State.decoded_readPos vs j hm
  have hturns : s.bitsLeft + 1 = vs.length + (s.bitsLeft - vs.length + 1) := by
    have := State.decodes_length hdec
    omega
  have hrun := decodeLoop_symbols (s.bitsLeft - vs.length + 1) 0 hf hl ha hdec hm hi1
    (State.fits_mono hfit (Nat.le_add_right _ _))
  rw [← hturns, Nat.zero_add] at hrun
  exact ⟨⟨_, hrun⟩, hflags.trans hf, by rw [State.LimitsLegal, hncnt, hrlim, hwlim, hsize]; exact hl, State.decoded_node hdec,
    hpos, by rw [hpos, State.inCode_congr hin]; exact hi2⟩

/-- Settles O40: the loop over the symbols, a turn along the EOF code, and the flush. -/
theorem decodeWritesTheStreamUpToEof : Obligations.DecodeWritesTheStreamUpToEof := by
  intro s vs c e j d hs hdec hj he hk hm hi hfit
  rw [List.length_append] at hm
  obtain ⟨⟨k, hrun⟩, hf, hl, hnode, hpos, hbits⟩ := decodeLoop_run hs hdec (by unfold State.bitsLeft; omega) hi hfit
  obtain ⟨-, hroot, hncnt, hrlim, -, -, hmem, -⟩ := s.decoded_fields c vs j
  have hm1 : (s.decoded c vs j).readPos + e.length ≤ 8 * (s.decoded c vs j).rlim.toNat := by
    rw [hpos, hrlim]
    omega
  have hone := (decodeOne_leads (c := e) (d := d) hf (by rw [hnode, hncnt]; exact hj) hl
    ⟨he.1, by rw [hnode, State.walk_congr hmem hncnt]; exact he.2⟩ hm1 hbits).2 ((State.kind_congr hmem d).trans hk)
  rw [decodeLoop_eof _ _ hone] at hrun
  obtain ⟨t, ht, hrsp, hread, happ, hfix⟩ := exec_decode_ends hs hfit (by rfl) hrun
  refine ⟨t, ht, hrsp, ?_, happ, by rw [hroot] at hfix; exact hfix⟩
  rw [hread, List.length_append, ← Nat.add_assoc, ← hpos]
  exact State.readPos_advance hm1

/-- Settles O41: without EOF, the loop over the symbols, a turn to ROOT, and the flush; with EOFSEEN set, one turn and the flush. -/
theorem decodeEndsWithoutEof : Obligations.DecodeEndsWithoutEof := by
  refine ⟨fun s vs c r j hs hdec hr hc hm hi hfit => ?_, fun s he h1 h64 hf hl ha hfit => ?_⟩
  · rw [List.length_append] at hm
    obtain ⟨⟨k, hrun⟩, hf, hl, hnode, hpos, hbits⟩ := decodeLoop_run hs hdec (by omega) hi hfit
    obtain ⟨-, hroot, hncnt, hrlim, -, -, hmem, -, -, hflags, -⟩ := s.decoded_fields c vs j
    obtain ⟨hone, hpos1⟩ := decodeOne_exhausted (r := r) hf hl (by rw [hnode, hroot, State.walk_congr hmem hncnt]; exact hr)
      (by rw [hnode, hroot, hncnt, State.kind_congr hmem]; exact hc)
      (by unfold State.bitsLeft at hm ⊢; rw [hpos, hrlim]; omega) hbits
    rw [decodeLoop_exhausted _ _ hone] at hrun
    obtain ⟨t, ht, hrsp, hread, happ, hfix⟩ := exec_decode_ends hs hfit (by rfl) hrun
    refine ⟨t, ht, hrsp, by rw [hread, hpos1, hpos, List.length_append, Nat.add_assoc], happ, ?_⟩
    simpa only [State.descended, State.setTcur_tcur, State.setTcur_flags, State.setReadPos_flags, hflags, hroot,
      BitVec.ofNat_toNat, BitVec.setWidth_eq] using hfix
  · have hone : decodeOne s = .ok .eof s := if_pos (by simp [State.eofSeen, hf])
    have hpad : s.Fits (padding s.wbit.toNat).length := by simpa [State.FitsPadded] using hfit
    refine ⟨(s.putBits (padding s.wbit.toNat)).respond .eof 0, ?_, rfl, appended_putBits _ ha (State.fits_lt hpad), ?_⟩
    · rw [exec_decode_run he ⟨h1, h64⟩, decodeLoop_eof _ _ hone, decodeEnds_ok _ _ ha hpad hl.2.1, Res.answer_ok]
      rfl
    · rw [OnlyWriteSide, putBits_eq]
      rfl

end Sys2Proof.Machine
end

section
/-! SUPPORT. The codes are the leaves' paths, and none begins another (spec/30_encoding.md R65); and ENCODE of a
whole window (spec/42_bit_packer.md R124). -/

namespace Sys2Proof.Machine

/-! ## Codes -/

/-- Under WF(tree) ROOT is internal, so a path to a node of another kind is not empty. -/
theorem leads_of_walk {s : State} (h : wfTree s = true) {c : Code} {d : Nat} (hw : s.walk s.root.toNat c = some d)
    (hk : s.kind d ≠ .internal) : s.Leads s.root.toNat c d := by
  obtain ⟨⟨-, -, hroot⟩, -⟩ := (wfTree_iff s).1 h
  refine ⟨?_, hw⟩
  rintro rfl
  exact hk (Option.some.inj hw ▸ hroot)

/-- Settles O47: a walk stops at a node that is not internal; the codes are the paths to the leaves. -/
theorem codesArePrefixFree : Obligations.CodesArePrefixFree := by
  refine ⟨fun s c c1 e d d1 hc hc1 hd _ he => State.walk_append_stops hc.2 hd (he ▸ hc1.2), fun s h =>
    ⟨fun c => (isCode_iff h c).trans (exists_congr fun d => ?_), fun c c1 e hc hc1 he => hc.append_eq_nil h (he ▸ hc1)⟩⟩
  exact ⟨fun ⟨hw, hk⟩ => ⟨leads_of_walk h hw (by rcases hk with hk | hk <;> simp [hk]), hk⟩, fun ⟨hl, hk⟩ => ⟨hl.2, hk⟩⟩

/-- Under WF(tree) the lookup gives the codes of the symbols where, and as, the tree spells them (R66, R120). -/
theorem codesOf_eq_some_iff {s : State} (h : wfTree s = true) {vs : List Word} {c : Code} :
    codesOf s vs = some c ↔ s.Spells vs c := by
  induction vs generalizing c with
  | nil => simp [codesOf, State.Spells, eq_comm]
  | cons v vs ih =>
    simp only [codesOf_cons, codeOf_eq_some_iff h, ih, State.Spells]
    constructor
    · rintro ⟨c1, c2, ⟨d, hw, hk, hv⟩, hvs, rfl⟩
      exact ⟨c1, c2, d, rfl, leads_of_walk h hw (by simp [hk]), hk, hv, hvs⟩
    · rintro ⟨c1, c2, d, rfl, hl, hk, hv, hvs⟩
      exact ⟨c1, c2, ⟨d, hl.2, hk, hv⟩, hvs, rfl⟩

/-! ## The state of a packer after a run of symbols -/

/-! A packer leaves alone what is neither cursor, partial byte nor OUT. -/

@[simp] theorem State.encoded_symw (s : State) (n : Nat) (c : Code) : (s.encoded n c).symw = s.symw := putBits_symw _ _
@[simp] theorem State.encoded_rlim (s : State) (n : Nat) (c : Code) : (s.encoded n c).rlim = s.rlim := putBits_rlim _ _
@[simp] theorem State.encoded_wlim (s : State) (n : Nat) (c : Code) : (s.encoded n c).wlim = s.wlim := putBits_wlim _ _
@[simp] theorem State.encoded_root (s : State) (n : Nat) (c : Code) : (s.encoded n c).root = s.root := putBits_root _ _
@[simp] theorem State.encoded_ncnt (s : State) (n : Nat) (c : Code) : (s.encoded n c).ncnt = s.ncnt := putBits_ncnt _ _
@[simp] theorem State.encoded_size (s : State) (n : Nat) (c : Code) : (s.encoded n c).size = s.size := putBits_size _ _
@[simp] theorem State.encoded_inMem (s : State) (n : Nat) (c : Code) : (s.encoded n c).inMem = s.inMem := putBits_inMem _ _
@[simp] theorem State.encoded_nodeMem (s : State) (n : Nat) (c : Code) : (s.encoded n c).nodeMem = s.nodeMem := putBits_nodeMem _ _

/-- The tree of the state is the one it found. -/
theorem State.codeOfEof_encoded (s : State) (n : Nat) (c : Code) : codeOfEof (s.encoded n c) = codeOfEof s :=
  codeOfEof_congr (s.encoded_nodeMem n c) (s.encoded_ncnt n c) (s.encoded_root n c)

theorem State.appended_encoded {s : State} (n : Nat) {c : Code} (ha : s.AccClear) (hf : s.Fits c.length) :
    Appended s (s.encoded n c) c :=
  appended_putBits (s := s.setReadPos (s.readPos + n)) c ha (State.fits_lt (s := s.setReadPos (s.readPos + n)) hf)

theorem State.encoded_fits {s : State} (n : Nat) {c : Code} (m : Nat) (ha : s.AccClear) (hf : s.Fits c.length) :
    s.Fits (c.length + m) ↔ (s.encoded n c).Fits m :=
  State.fits_add (s := s.setReadPos (s.readPos + n)) m ha hf

theorem State.encoded_padding {s : State} (n : Nat) {c : Code} (ha : s.AccClear) (hf : s.Fits c.length) :
    padding (s.encoded n c).wbit.toNat = padding (s.wbit.toNat + c.length) :=
  padding_putBits (s := s.setReadPos (s.readPos + n)) c ha hf

/-- More bits appended. -/
theorem State.encoded_putBits (s : State) (n : Nat) (c e : Code) : (s.encoded n c).putBits e = s.encoded n (c ++ e) :=
  (putBits_append _ c e).symm

/-- The read cursor after a run of symbols that the window holds. -/
theorem State.encoded_run_readPos {s : State} {vs : List Word} (c : Code)
    (hm : vs = [] ∨ s.readPos + vs.length * s.symw.toNat ≤ 8 * s.rlim.toNat) :
    (s.encoded (vs.length * s.symw.toNat) c).readPos = s.readPos + vs.length * s.symw.toNat := by
  rcases hm with rfl | hm
  · simp only [State.readPos, State.encoded, putBits_rbyte, putBits_rbit, List.length_nil, Nat.zero_mul, Nat.add_zero]
    exact congrArg State.readPos s.setReadPos_self
  · exact State.encoded_readPos c hm

/-! ## ENCODE forwards -/

/-- ENCODE with no fault recorded, SYMW configured and a well-formed tree runs its loop and its end (R124). -/
theorem exec_encode_run {s : State} (he : s.err = 0) (hw : 1 ≤ s.symw.toNat ∧ s.symw.toNat ≤ 64) (ht : wfTree s = true) :
    exec .encode s = ((encodeLoop (s.bitsLeft / s.symw.toNat) 0 s).andThen encodeEnds).answer (fun _ => .done)
      (fun n => BitVec.ofNat 64 n) :=
  (issue_run _ he rfl).trans ((if_neg (State.widthUnset_iff.2 hw)).trans (if_pos ht))

/-- The turns of the loop are the whole symbols that the window holds. -/
theorem State.WindowHolds.turns {s : State} {vs : List Word} (h : s.WindowHolds vs) (hw : 1 ≤ s.symw.toNat) :
    s.bitsLeft / s.symw.toNat = vs.length := by
  obtain ⟨hm, hres, -⟩ := h
  have hpos : 0 < (vs.length + 1) * s.symw.toNat := Nat.mul_pos (Nat.succ_pos _) hw
  unfold State.bitsLeft
  refine Nat.div_eq_of_lt_le ?_ (by omega)
  rcases hm with rfl | hm
  · simp
  · omega

/-- Where the EOF code and the padding fit after the bits appended so far, ENCODE's end appends both. -/
theorem encodeEnds_ok {s : State} {n : Nat} {c : Code} (count : Nat) (ha : s.AccClear) (hl : s.wlim.toNat ≤ s.size.outSize.val)
    (hfit : s.FitsPadded (c ++ codeOfEof s).length) :
    encodeEnds count (s.encoded n c) =
      .ok count (s.encoded n (c ++ codeOfEof s ++ padding (s.wbit.toNat + (c ++ codeOfEof s).length))) := by
  have hfite := State.fits_mono hfit (Nat.le_add_right _ _)
  have hfitc : s.Fits c.length := State.fits_mono hfite (by simp)
  have hput : put (codeOfEof s) (s.encoded n c) = .ok () (s.encoded n (c ++ codeOfEof s)) := by
    rw [put_ok ((State.encoded_fits n _ ha hfitc).1 (by simpa using hfite)) (by simpa using hl),
      State.encoded_putBits]
  have hpad := State.encoded_padding n ha hfite
  obtain ⟨k, hflush⟩ := flushPad_ok (State.appended_encoded n ha hfite).2.2.1
    (by rw [hpad]; exact (State.encoded_fits n _ ha hfite).1 hfit) (by simpa using hl)
  rw [encodeEnds, State.codeOfEof_encoded, hput, Res.andThen_ok, hflush, Res.andThen_ok, hpad, State.encoded_putBits]

/-- Settles O51: the loop over the symbols, then the EOF code and the padding. -/
theorem encodeWritesThePayload : Obligations.EncodeWritesThePayload := by
  rintro s vs c e d ⟨he, hw, htree, hl, ha⟩ hwin hspell hlead hk hfit
  obtain rfl : e = codeOfEof s := (eq_codeOfEof_iff htree e).2 ⟨d, hlead.2, hk⟩
  have hturns := hwin.turns hw.1
  obtain ⟨hm, -, hi, hv⟩ := hwin
  have hfitc : s.Fits c.length := State.fits_mono hfit (by rw [List.length_append]; omega)
  have hloop := encodeLoop_symbols 0 0 hw.1 hl ha ((codesOf_eq_some_iff htree).2 hspell) hm.symm hi hv hfitc
  have hpad : s.Fits (c ++ codeOfEof s ++ padding (s.wbit.toNat + (c ++ codeOfEof s).length)).length := by
    rwa [List.length_append]
  refine ⟨(s.encoded (vs.length * s.symw.toNat) _).respond .done _, ?_, rfl, State.encoded_run_readPos _ hm,
    State.appended_encoded _ ha hpad, ?_⟩
  · rw [exec_encode_run he hw htree, hturns, ← Nat.add_zero vs.length, hloop, Nat.add_zero, Nat.zero_add, encodeLoop,
      Res.andThen_ok, encodeEnds_ok _ ha hl.2.1 hfit, Res.answer_ok]
  · have hfix := s.encoded_eq (vs.length * s.symw.toNat) (c ++ codeOfEof s ++ padding (s.wbit.toNat + (c ++ codeOfEof s).length))
    unfold OnlyCursors at hfix ⊢
    exact congrArg (fun t : State => t.respond .done (BitVec.ofNat 64 vs.length)) hfix

end Sys2Proof.Machine
end

section
/-! SUPPORT. ENCODE read back from its answer (spec/42_bit_packer.md R124): what a DONE says was read and appended; and that DECODE
inverts it (R108). -/

namespace Sys2Proof.Machine

/-! ## Fields read -/

/-- Bit strings of one length that write the same number are the same. -/
theorem bitsNat_inj {c d : Code} (hlen : c.length = d.length) (h : bitsNat c = bitsNat d) : c = d := by
  induction c using List.reverseRecOn generalizing d with
  | nil => exact (List.length_eq_zero_iff.1 hlen.symm).symm
  | append_singleton c b ih =>
    rcases List.eq_nil_or_concat' d with rfl | ⟨d, b', rfl⟩
    · simp at hlen
    · rw [bitsNat_snoc, bitsNat_snoc] at h
      have hb := Bool.toNat_lt b
      have hb' := Bool.toNat_lt b'
      have hlow : b.toNat = b'.toNat := by omega
      rw [ih (by simpa using hlen) (by omega), ← Bool.ofNat_toNat b, hlow, Bool.ofNat_toNat]

/-- The value read from a field has the field's bits (R41, R81). -/
theorem valueBits_ofNat_bitsNat {c : Code} (h : c.length ≤ 64) : valueBits (BitVec.ofNat 64 (bitsNat c)) c.length = c := by
  have hlt := bitsNat_lt c
  refine bitsNat_inj (valueBits_length _ _) ?_
  rw [bitsNat_valueBits, BitVec.toNat_ofNat, Nat.mod_eq_of_lt (hlt.trans_le (Nat.pow_le_pow_right (by decide) h)),
    Nat.mod_eq_of_lt hlt]

/-! ## A run of symbols packed -/

/-- What ENCODE's loop did, when it has packed the symbols `vs` as the bits `c`: the window held their fields, the lookup gave their
codes, and these fitted. -/
structure State.Packs (s : State) (vs : List Word) (c : Code) : Prop where
  codes : codesOf s vs = some c
  fits : s.Fits c.length
  window : vs = [] ∨ s.readPos + vs.length * s.symw.toNat ≤ 8 * s.rlim.toNat
  fields : s.inCode s.readPos (vs.length * s.symw.toNat) = symbolStream s.symw.toNat vs

theorem State.packs_nil {s : State} : s.Packs [] [] :=
  ⟨rfl, .inl (Nat.div_eq_of_lt s.wbit.isLt), .inl rfl, by simp [State.inCode, symbolStream]⟩

theorem State.encoded_nil (s : State) : s.encoded 0 [] = s := s.setReadPos_self

/-- One symbol after another. -/
theorem State.encoded_encoded {s : State} {m : Nat} (n : Nat) (c e : Code) (hm : s.readPos + m ≤ 8 * s.rlim.toNat) :
    (s.encoded m c).encoded n e = s.encoded (m + n) (c ++ e) := by
  rw [State.encoded, State.encoded_readPos c hm]
  simp only [State.encoded, putBits_setReadPos, putBits_append, Nat.add_assoc]
  rfl

/-- A symbol packed, and then the others. -/
theorem State.packs_cons {s : State} {v : Word} {vs : List Word} {c1 c2 : Code} (ha : s.AccClear) (hc : codeOf s v = some c1)
    (hf : s.Fits c1.length) (hm : s.readPos + s.symw.toNat ≤ 8 * s.rlim.toNat)
    (hi : s.inCode s.readPos s.symw.toNat = valueBits v s.symw.toNat) (h : (s.encoded s.symw.toNat c1).Packs vs c2) :
    s.Packs (v :: vs) (c1 ++ c2) := by
  obtain ⟨hcodes, hfits, hwin, hfields⟩ := h
  have hlen : (v :: vs).length * s.symw.toNat = s.symw.toNat + vs.length * s.symw.toNat := by
    rw [List.length_cons, Nat.succ_mul, Nat.add_comm]
  rw [State.encoded_readPos c1 hm, State.encoded_symw] at hwin hfields
  rw [State.inCode_congr (s.encoded_inMem _ c1)] at hfields
  rw [State.encoded_rlim] at hwin
  refine ⟨codesOf_cons.2 ⟨c1, c2, hc, ?_, rfl⟩, ?_, .inr ?_, ?_⟩
  · rw [← hcodes]
    exact codesOf_congr (s.encoded_nodeMem _ c1).symm (s.encoded_ncnt _ c1).symm (s.encoded_root _ c1).symm vs
  · rw [List.length_append]
    exact (State.encoded_fits _ _ ha hf).2 hfits
  · rw [hlen]
    rcases hwin with rfl | hwin
    · simpa using hm
    · omega
  · rw [hlen, State.inCode_add, hi, hfields, symbolStream_cons]

/-! ## ENCODE backwards -/

/-- A turn that ends with a value read a symbol, found its code, and appended it. -/
theorem encodeOne_inv {s u : State} (h64 : s.symw.toNat ≤ 64) (h : encodeOne s = .ok () u) :
    ∃ v c, codeOf s v = some c ∧ s.Fits c.length ∧ s.readPos + s.symw.toNat ≤ 8 * s.rlim.toNat ∧
      s.inCode s.readPos s.symw.toNat = valueBits v s.symw.toNat ∧ u = s.encoded s.symw.toNat c := by
  obtain ⟨v, s1, hget, hrest⟩ := Res.andThen_eq_ok h
  rcases getBits_cases s.symw.toNat s with ⟨hok, hmore, -⟩ | ⟨hbad, -⟩ | ⟨hbad, -⟩
  · cases hok.symm.trans hget
    have hcong : ∀ v, codeOf (s.setReadPos (s.readPos + s.symw.toNat)) v = codeOf s v :=
      codeOf_congr (s := s.setReadPos (s.readPos + s.symw.toNat)) (t := s) rfl rfl rfl
    have hfield := valueBits_ofNat_bitsNat (c := s.inCode s.readPos s.symw.toNat) (by rwa [State.inCode_length])
    rw [State.inCode_length] at hfield
    rw [hcong] at hrest
    split at hrest
    · cases hrest
    · rename_i c hc
      rcases put_cases c (s.setReadPos (s.readPos + s.symw.toNat)) with ⟨hput, hfit, -⟩ | ⟨hput, -⟩ | ⟨a, hput, -⟩
      · rw [hput] at hrest
        cases hrest
        exact ⟨_, c, hc, hfit, (State.hasMore_iff _ _).1 hmore, hfield.symm, rfl⟩
      · rw [hput] at hrest
        cases hrest
      · rw [hput] at hrest
        cases hrest
  · cases hbad.symm.trans hget
  · cases hbad.symm.trans hget

/-- A loop that ends where it stands has packed no symbol. -/
theorem encodeLoop_none {count n : Nat} {s u : State} (h : (Res.ok count s : Res Nat) = .ok n u) :
    ∃ vs c, s.Packs vs c ∧ n = count + vs.length ∧ u = s.encoded (vs.length * s.symw.toNat) c := by
  cases h
  exact ⟨[], [], State.packs_nil, rfl, by rw [List.length_nil, Nat.zero_mul, State.encoded_nil]⟩

/-- A loop that ends with a value has packed a run of symbols, and answers their number. -/
theorem encodeLoop_inv {k count n : Nat} {s u : State} (ha : s.AccClear) (h64 : s.symw.toNat ≤ 64)
    (h : encodeLoop k count s = .ok n u) :
    ∃ vs c, s.Packs vs c ∧ n = count + vs.length ∧ u = s.encoded (vs.length * s.symw.toNat) c := by
  induction k generalizing s count with
  | zero => exact encodeLoop_none h
  | succ k ih =>
    rw [encodeLoop] at h
    split at h
    · obtain ⟨_, s1, hone, hrest⟩ := Res.andThen_eq_ok h
      obtain ⟨v, c1, hc, hf, hm, hi, rfl⟩ := encodeOne_inv h64 hone
      obtain ⟨vs, c2, hpack, hn, hu⟩ := ih (State.appended_encoded _ ha hf).2.2.1 (by rwa [State.encoded_symw]) hrest
      refine ⟨v :: vs, c1 ++ c2, State.packs_cons ha hc hf hm hi hpack, by rw [List.length_cons]; omega, ?_⟩
      rw [hu, State.encoded_symw, State.encoded_encoded _ _ _ hm, List.length_cons, Nat.succ_mul, Nat.add_comm]
    · exact encodeLoop_none h

/-- A flush that ends with a value appended the padding, which fitted. -/
theorem flushPad_inv {s u : State} {k : Nat} (hc : s.AccClear) (h : flushPad s = .ok k u) :
    s.Fits (padding s.wbit.toNat).length ∧ u = s.putBits (padding s.wbit.toNat) := by
  have hfit : s.Fits (padding s.wbit.toNat).length := by
    by_contra hf
    cases (flushPad_overrun hf).symm.trans h
  refine ⟨hfit, ?_⟩
  rcases flushPad_cases s with ⟨hok, h0⟩ | ⟨hok, h0, -⟩ | ⟨hbad, -⟩ | ⟨hbad, -⟩
  · cases hok.symm.trans h
    rw [h0]
    rfl
  · cases hok.symm.trans h
    exact flushPad_eq_putBits hc h0
  · cases hbad.symm.trans h
  · cases hbad.symm.trans h

/-- An end that ends with a value appended the EOF code and the padding, which fitted. -/
theorem encodeEnds_inv {s u : State} {n m count : Nat} {c : Code} (ha : s.AccClear) (hf : s.Fits c.length)
    (h : encodeEnds count (s.encoded n c) = .ok m u) :
    m = count ∧ s.FitsPadded (c ++ codeOfEof s).length ∧
      u = s.encoded n (c ++ codeOfEof s ++ padding (s.wbit.toNat + (c ++ codeOfEof s).length)) := by
  obtain ⟨_, s1, hput, hrest⟩ := Res.andThen_eq_ok h
  obtain ⟨k, s2, hflush, hlast⟩ := Res.andThen_eq_ok hrest
  cases hlast
  rw [State.codeOfEof_encoded] at hput
  rcases put_cases (codeOfEof s) (s.encoded n c) with ⟨hok, hfe, -⟩ | ⟨hbad, -⟩ | ⟨a, hbad, -⟩
  · cases hok.symm.trans hput
    rw [State.encoded_putBits] at hflush
    have hfit : s.Fits (c ++ codeOfEof s).length := by
      rw [List.length_append]
      exact (State.encoded_fits n _ ha hf).2 hfe
    obtain ⟨hfp, rfl⟩ := flushPad_inv (State.appended_encoded n ha hfit).2.2.1 hflush
    have hpad := State.encoded_padding n ha hfit
    rw [hpad] at hfp ⊢
    exact ⟨rfl, (State.encoded_fits n _ ha hfit).2 hfp, State.encoded_putBits _ _ _ _⟩
  · cases hbad.symm.trans hput
  · cases hbad.symm.trans hput

/-- An ENCODE that answers DONE has packed a run of symbols, and after them the EOF code and the padding; it answers their number. -/
theorem exec_encode_inv {s t : State} {k : Word} (ha : s.AccClear) (h : exec .encode s = .next t) (hr : t.rsp = some ⟨.done, k⟩) :
    wfTree s = true ∧ ∃ vs c, s.Packs vs c ∧ s.FitsPadded (c ++ codeOfEof s).length ∧ k = BitVec.ofNat 64 vs.length ∧
      t = (s.encoded (vs.length * s.symw.toNat)
        (c ++ codeOfEof s ++ padding (s.wbit.toNat + (c ++ codeOfEof s).length))).respond .done k := by
  rcases issue_cases .encode s (exec .encode s) with ⟨hgate, -⟩ | ⟨-, hbad⟩ | ⟨-, -, hgate⟩
  · cases h.symm.trans ((exec_issue _ _).trans hgate)
    cases hr
  · cases hbad
  · have he : s.err = 0 := hgate.resolve_right (by decide)
    by_cases hset : s.widthUnset = true
    · cases h.symm.trans ((issue_run _ he rfl).trans (if_pos hset))
      cases hr
    · have hbody := h.symm.trans ((issue_run _ he rfl).trans (if_neg hset))
      obtain ⟨htree, hans⟩ := whenTree_next hbody.symm
      rcases Res.answer_next hans with ⟨n, u, hok, rfl⟩ | ⟨f, info, u, -, rfl⟩
      · cases hr
        obtain ⟨m, w, hloop, hends⟩ := Res.andThen_eq_ok hok
        obtain ⟨vs, c, hpack, rfl, rfl⟩ := encodeLoop_inv ha (State.widthUnset_iff.1 hset).2 hloop
        obtain ⟨rfl, hfit, rfl⟩ := encodeEnds_inv ha hpack.fits hends
        rw [Nat.zero_add]
        exact ⟨htree, vs, c, hpack, hfit, rfl, rfl⟩
      · cases hr

/-! ## DECODE inverts ENCODE -/

/-- The padding ends at a byte boundary. -/
theorem State.wbit_encoded_padding {s : State} (n : Nat) {c : Code} (ha : s.AccClear) (hf : s.FitsPadded c.length) :
    (s.encoded n (c ++ padding (s.wbit.toNat + c.length))).wbit = 0 := by
  have hfit : s.Fits (c ++ padding (s.wbit.toNat + c.length)).length := by rwa [List.length_append]
  obtain ⟨-, hwbit⟩ := putBits_cursor (s := s.setReadPos (s.readPos + n)) _ ha
    (State.fits_lt (s := s.setReadPos (s.readPos + n)) hfit)
  apply BitVec.eq_of_toNat_eq
  refine hwbit.trans ?_
  show s.wbit.toNat + _ - 8 * s.bytesFor _ = 0
  simp only [State.bytesFor, List.length_append, padding, List.length_replicate]
  omega

/-- What an ENCODE that answers DONE leaves: the symbols consumed; the codes, the EOF code and the padding appended, up to a byte
boundary. -/
theorem exec_encode_appended {s t : State} {k : Word} (ha : s.AccClear) (h : exec .encode s = .next t)
    (hr : t.rsp = some ⟨.done, k⟩) :
    wfTree s = true ∧ ∃ vs c, s.Packs vs c ∧ k = BitVec.ofNat 64 vs.length ∧
      t.readPos = s.readPos + vs.length * s.symw.toNat ∧ t.wbit = 0 ∧
      Appended s t (c ++ codeOfEof s ++ padding (s.wbit.toNat + (c ++ codeOfEof s).length)) := by
  obtain ⟨htree, vs, c, hpack, hfit, hk, rfl⟩ := exec_encode_inv ha h hr
  exact ⟨htree, vs, c, hpack, hk, State.encoded_run_readPos _ hpack.window, State.wbit_encoded_padding _ ha hfit,
    State.appended_encoded _ ha (by rwa [List.length_append])⟩

theorem padding_length_lt (n : Nat) : (padding n).length < 8 := by
  rw [padding, List.length_replicate]
  exact Nat.mod_lt _ (by decide)

theorem eq_false_of_mem_padding {n : Nat} {b : Bool} (h : b ∈ padding n) : b = false := List.eq_of_mem_replicate h

/-- Settles O55: ENCODE's bits are the codes, the EOF code and padding to a byte boundary; IN holds them, and DECODE follows them. -/
theorem decodeInvertsEncode : Obligations.DecodeInvertsEncode := by
  rintro s t u k henc hrsp ha hwbit hmem hroot hncnt hsymw ⟨he, hw, hf, htcur, hrn, hl, hau⟩ hpos hrlim hin hfit
  obtain ⟨htree, vs, c, hpack, rfl, hread, ht0, happ⟩ := exec_encode_appended ha henc hrsp
  have hconsumed : t.readPos - s.readPos = vs.length * s.symw.toNat := by omega
  obtain ⟨hend, hbits⟩ := happ.inCode_eq hwbit ht0 hin
  rw [List.length_append] at hend hbits
  rw [State.inCode_add] at hbits
  obtain ⟨hcode, -⟩ := List.append_inj hbits (by simp)
  have hrun := State.decodes_of_spells hrn
    (State.spells_congr hmem.symm hncnt.symm hroot.symm ((codesOf_eq_some_iff htree).1 hpack.codes))
  obtain ⟨d, hwalk, hk⟩ := (eq_codeOfEof_iff htree _).1 rfl
  obtain ⟨hne, hwalk⟩ := leads_of_walk htree hwalk (by simp [hk])
  rw [← hroot, ← State.walk_congr hmem hncnt] at hwalk
  rw [hconsumed, ← symbolStream_length, ← hsymw] at hfit
  obtain ⟨x, hx, hxrsp, hxpos, hxapp, -⟩ := decodeWritesTheStreamUpToEof u vs c (codeOfEof s) u.root.toNat d
    ⟨he, hw, hf, hl, hau⟩ (htcur ▸ hrun) hrn ⟨hne, hwalk⟩ ((State.kind_congr hmem d).trans hk)
    (by rw [hpos, hrlim]; omega) (by rw [hpos]; exact hcode) hfit
  rw [hconsumed, hpack.fields, ← hsymw]
  have hpad := padding_length_lt (s.wbit.toNat + (c ++ codeOfEof s).length)
  exact ⟨x, padding _, hx, hxrsp, hxapp, fun _ => eq_false_of_mem_padding, padding_length_lt _, by omega⟩

end Sys2Proof.Machine
end

section
/-! SUPPORT. REWIND, HASMORE and REWIND after RDBITS (spec/40_bitcursor.md R80, R86, R87, R89); ENCSYM and ENCEOF where the code fits
(spec/42_bit_packer.md R122, R123). -/

namespace Sys2Proof.Machine

/-! ## REWIND -/

/-- REWIND of a legal count, with no fault recorded and the bits there, puts the read cursor back (R86). -/
theorem exec_rewind_done {s : State} {n : BitVec 8} (he : s.err = 0) (hn : bitCountOk n = true) (hq : n.toNat ≤ s.readPos) :
    exec (.rewind n) s = .next ((s.setReadPos (s.readPos - n.toNat)).respond .done 0) :=
  (issue_run (i := .rewind n) _ he hn).trans (if_neg (Nat.not_lt.2 hq))

/-- The position before the read cursor's is held by the cursor. -/
theorem State.readPos_retreat (s : State) (n : Nat) : (s.setReadPos (s.readPos - n)).readPos = s.readPos - n := by
  have hbyte := s.rbyte.isLt
  have hbit := s.rbit.isLt
  refine State.readPos_setReadPos _ _ ?_
  unfold State.readPos
  omega

/-- Settles O28: the position `n` bits before the cursor's is one the cursor can hold. -/
theorem rewindCompletes : Obligations.RewindCompletes := by
  intro s n he h1 h64 hq
  exact ⟨_, exec_rewind_done he (decide_eq_true ⟨h1, h64⟩) hq, rfl, s.readPos_retreat _⟩

/-! ## REWIND after RDBITS -/

/-- What a DONE of RDBITS says: the command was let through, the bits were there, and only the read cursor moved (R81, R84). -/
theorem exec_rdbits_inv {s t : State} {n : BitVec 8} {v : Word} (h : exec (.rdbits n) s = .next t) (hr : t.rsp = some ⟨.done, v⟩) :
    s.err = 0 ∧ bitCountOk n = true ∧ s.readPos + n.toNat ≤ 8 * s.rlim.toNat ∧
      t = (s.setReadPos (s.readPos + n.toNat)).respond .done v := by
  rcases issue_cases (.rdbits n) s ((getBits n.toNat s).answer (fun _ => .done) (fun v => v)) with
    ⟨hi, -⟩ | ⟨hi, -⟩ | ⟨hi, hn, he⟩
  · cases hi.symm.trans h
    simp at hr
  · cases hi.symm.trans h
    simp at hr
  · have hrun := hi.symm.trans h
    rcases getBits_cases n.toNat s with ⟨hg, hm, -⟩ | ⟨hg, -⟩ | ⟨hg, -⟩
    · rw [hg] at hrun
      cases hrun
      cases hr
      exact ⟨he.resolve_right (by simp [Instr.passesGate]), hn, (s.hasMore_iff _).1 hm, rfl⟩
    · rw [hg] at hrun
      cases hrun
      simp at hr
    · rw [hg] at hrun
      cases hrun

/-- Settles O32: RDBITS left the cursor `n` bits on, at a position it holds, so REWIND puts it where it stood. -/
theorem rewindUndoesRdbits : Obligations.RewindUndoesRdbits := by
  intro s t n v h hr
  obtain ⟨he, hn, hm, ht⟩ := exec_rdbits_inv h hr
  have herr : t.err = 0 := by rw [ht]; exact he
  have hpos : t.readPos = s.readPos + n.toNat := by rw [ht]; exact State.readPos_advance hm
  rw [exec_rewind_done herr hn (by omega), hpos, Nat.add_sub_cancel, ht]
  change Host.Outcome.next ((s.setReadPos s.readPos).respond .done 0) = _
  rw [State.setReadPos_self]
  rfl

/-! ## HASMORE -/

/-- RDBITS raises READ_UNDERRUN exactly where `hasMore` is false (R81, R84). -/
theorem exec_rdbits_underrun_iff {s : State} {n : BitVec 8} (he : s.err = 0) (hn : bitCountOk n = true) :
    (∃ t, exec (.rdbits n) s = .next t ∧ t.rsp = some ⟨.fault .readUnderrun, 0⟩) ↔ s.hasMore n.toNat = false := by
  have hrun : exec (.rdbits n) s = (getBits n.toNat s).answer (fun _ => .done) (fun v => v) := issue_run _ he hn
  rw [hrun]
  rcases getBits_cases n.toNat s with ⟨hg, hm, -⟩ | ⟨hg, hm⟩ | ⟨hg, hm, -⟩
  · simp [hg, hm]
  · simp [hg, hm]
  · simp [hg, hm]

/-- Settles O29: HASMORE answers `hasMore`, the check that RDBITS makes. -/
theorem hasmoreCompletes : Obligations.HasmoreCompletes := by
  refine ⟨fun s n _ => s.hasMore_iff n, fun s n he h1 h64 => ?_⟩
  have hn : bitCountOk n = true := decide_eq_true ⟨h1, h64⟩
  have hrun : exec (.hasmore n) s = .next (s.respond .done (if s.hasMore n.toNat then 1 else 0)) := issue_run _ he hn
  rw [exec_rdbits_underrun_iff he hn, Bool.not_eq_false, hrun]
  constructor
  · simp only [State.hasMore_iff]
    rfl
  · cases s.hasMore n.toNat <;> simp

/-! ## ENCSYM and ENCEOF -/

/-- A code that fits is appended whole, its length answered, and nothing else changes (R82). -/
theorem putCode_completes {s : State} {c : Code} (hl : s.wlim.toNat ≤ s.size.outSize.val) (ha : s.AccClear) (hf : s.Fits c.length) :
    ∃ t, (putCode c s).answer (fun _ => .done) (fun n => BitVec.ofNat 64 n) = .next t ∧ OnlyWriteSide s t ∧
      t.rsp = some ⟨.done, BitVec.ofNat 64 c.length⟩ ∧ Appended s t c := by
  refine ⟨(s.putBits c).respond .done (BitVec.ofNat 64 c.length), ?_, ?_, rfl, appended_putBits c ha (State.fits_lt hf)⟩
  · rw [putCode, put_ok hf hl, Res.andThen_ok, Res.answer_ok]
  · rw [OnlyWriteSide, putBits_eq]
    rfl

/-- Settles O48: the lookup gives the code, which is appended. -/
theorem encsymCompletes : Obligations.EncsymCompletes := by
  intro s v c d he ht hl ha hlead hk hv hf
  have hc : codeOf s v = some c := (codeOf_eq_some_iff ht v c).2 ⟨d, hlead.2, hk, hv⟩
  have hrun : exec (.encsym v) s = (putCode c s).answer (fun _ => .done) (fun n => BitVec.ofNat 64 n) := by
    refine (issue_run _ he rfl).trans ((if_pos ht).trans ?_)
    rw [hc]
  rw [hrun]
  exact putCode_completes hl ha hf

/-- Settles O49: the lookup gives the EOF leaf's code, which is appended. -/
theorem enceofCompletes : Obligations.EnceofCompletes := by
  intro s c d he ht hl ha hlead hk hf
  obtain rfl : c = codeOfEof s := (eq_codeOfEof_iff ht c).2 ⟨d, hlead.2, hk⟩
  have hrun : exec .enceof s = (putCode (codeOfEof s) s).answer (fun _ => .done) (fun n => BitVec.ofNat 64 n) :=
    (issue_run _ he rfl).trans (if_pos ht)
  rw [hrun]
  exact putCode_completes hl ha hf

end Sys2Proof.Machine
end

section
/-! SUPPORT. TRESET and TSTEP (spec/41_tree_decoder.md R100, R102, R103), and DSYM where the input ends or movement is impossible
(R101, R104, R106). -/

namespace Sys2Proof.Machine

/-! ## TRESET and TSTEP -/

/-- Settles O34: TRESET is legal, and its body is the two writes. -/
theorem tresetCompletes : Obligations.TresetCompletes :=
  fun _ he => issue_run _ he rfl

/-- TSTEP with no fault recorded is `descend` (R103). -/
theorem exec_tstep_run {s : State} (b : Bool) (he : s.err = 0) :
    exec (.tstep b) s = (descend b s).answer Arrival.stat Arrival.val :=
  issue_run _ he rfl

/-- Settles O35: `descend` arrives at the child, by the child's kind. -/
theorem tstepCompletes : Obligations.TstepCompletes := by
  intro s b he hn hc hk hd
  rw [exec_tstep_run b he, descend_arrive hn hc hk hd]
  refine ⟨fun h => ?_, fun h => ?_, fun h => ?_⟩
  · rw [arrive_internal h]
    rfl
  · rw [arrive_leaf h]
    rfl
  · rw [arrive_eof h]
    rfl

/-- Settles O36: `descend` raises before any write. -/
theorem tstepInconsistency : Obligations.TstepInconsistency := by
  intro s b he hn hno
  rw [exec_tstep_run b he, descend_noWay hn hno, inconsistent, Res.answer_raise, State.raise_first _ _ he]
  rfl

/-! ## The input ends -/

/-- At ROOT the end of the input is a normal one (R106). -/
theorem inputEnds_root {s : State} (h : s.tcur.toNat = s.root.toNat) : inputEnds s = .ok .exhausted s :=
  if_pos (BitVec.eq_of_toNat_eq h)

/-- On another node it is TRUNCATED_INPUT with the node, and the cursor goes back to ROOT (R101). -/
theorem inputEnds_midPath {s : State} {d : Nat} (ht : s.tcur.toNat = d) (hd : d ≠ s.root.toNat) :
    inputEnds s = .raise .truncatedInput (BitVec.ofNat 64 d) (s.setTcur s.root) := by
  subst ht
  rw [inputEnds, if_neg fun he => hd (congrArg BitVec.toNat he), BitVec.ofNat_toNat]

/-- The end of the window is a position that the read cursor holds. -/
theorem State.readPos_bitsLeft (s : State) : (s.setReadPos (s.readPos + s.bitsLeft)).readPos = s.readPos + s.bitsLeft := by
  by_cases h0 : s.bitsLeft = 0
  · rw [h0, Nat.add_zero, State.setReadPos_self]
  · refine State.readPos_advance ?_
    unfold State.bitsLeft at h0 ⊢
    omega

/-- Where all bits left lead to a node `d` that is no leaf, `decodeOne` consumes them, and the input ends on `d` (R101). -/
theorem decodeOne_inputEnds {s : State} {r : Code} {d : Nat} (hf : s.flags = 0) (hr : s.rlim.toNat ≤ s.size.inSize.val)
    (hn : s.ncnt.toNat ≤ s.size.nNodes.val) (hw : s.walk s.tcur.toNat r = some d)
    (hc : r ≠ [] → s.tcur.toNat < s.ncnt.toNat ∧ s.kind d = .internal) (hm : r.length = s.bitsLeft)
    (hi : s.inCode s.readPos r.length = r) :
    decodeOne s = inputEnds (s.descended r.length d) ∧ (s.descended r.length d).readPos = s.readPos + r.length ∧
      (s.descended r.length d).tcur.toNat = d := by
  have hone : decodeOne s = descendInput (r.length + 0) s := by
    rw [decodeOne, if_neg (by simp [State.eofSeen, hf]), hm, Nat.add_zero]
  refine ⟨hone.trans ?_, by rw [hm]; exact s.readPos_bitsLeft, State.descended_tcur (State.walk_lt (BitVec.isLt _) hw)⟩
  rcases List.eq_nil_or_concat r with rfl | ⟨r', b, rfl⟩
  · obtain rfl : s.tcur.toNat = d := Option.some.inj hw
    rw [List.length_nil, State.descended_zero]
    rfl
  · have hne : r'.concat b ≠ [] := by simp
    have hpos := List.length_pos_iff.2 hne
    refine descendInput_follow 0 _ d hr hn ?_ (fun _ => (hc hne).1) (hi.symm ▸ hw) fun _ => (hc hne).2
    unfold State.bitsLeft at hm
    omega

/-- DSYM takes the fault that `decodeOne` raises (R104). -/
theorem exec_dsym_raise {s u : State} {c : FaultCode} {info : Word} (he : s.err = 0) (h : decodeOne s = .raise c info u)
    (hu : u.err = 0) : exec .dsym s = .next { u with err := c.code, einfo := info, rsp := some ⟨.fault c, info⟩ } := by
  rw [exec_dsym_run he, h, Res.answer_raise, State.raise_first _ _ hu]

/-- Settles O38: `decodeOne` consumes the bits, and the end of the input is one of two. -/
theorem dsymAtTheEndOfInput : Obligations.DsymAtTheEndOfInput := by
  intro s d he hf hr hn hc hw
  have hlen := s.inCode_length s.readPos s.bitsLeft
  obtain ⟨hone, hpos, htcur⟩ := decodeOne_inputEnds hf hr hn hw
    (fun hne => hc fun h0 => hne (List.length_eq_zero_iff.1 (hlen.trans h0))) hlen (by rw [hlen])
  rw [hlen] at hone hpos htcur
  constructor
  · rintro rfl
    refine ⟨(s.descended s.bitsLeft s.root.toNat).respond .exhausted 0, ?_, hpos, ?_⟩
    · rw [exec_dsym_run he, hone, inputEnds_root htcur]
      rfl
    · simp only [State.descended, BitVec.ofNat_toNat, BitVec.setWidth_eq]
      rfl
  · intro hd
    exact ⟨_, exec_dsym_raise he (hone.trans (inputEnds_midPath htcur hd)) he, hpos, rfl⟩

/-! ## Movement is impossible -/

/-- Where the next `n` bits lead to a node from which movement on the bit after them is impossible, `decodeOne` consumes that bit and
raises INTERNAL_CONSISTENCY with the cursor on the node (R100, R101). -/
theorem decodeOne_noWay {s : State} {n d : Nat} (hf : s.flags = 0) (hr : s.rlim.toNat ≤ s.size.inSize.val)
    (hn : s.ncnt.toNat ≤ s.size.nNodes.val) (hm : s.readPos + n + 1 ≤ 8 * s.rlim.toNat)
    (hc : n ≠ 0 → s.tcur.toNat < s.ncnt.toNat ∧ s.kind d = .internal) (hw : s.walk s.tcur.toNat (s.inCode s.readPos n) = some d)
    (hb : s.NoWay d (s.inBit (s.readPos + n))) :
    decodeOne s = .raise .internalConsistency (BitVec.ofNat 64 d) (s.descended (n + 1) d) := by
  obtain ⟨k, hk⟩ : ∃ k, s.bitsLeft = n + 1 + k := Nat.exists_eq_add_of_le (by unfold State.bitsLeft; omega)
  rw [decodeOne, if_neg (by simp [State.eofSeen, hf]), hk]
  exact descendInput_noWay k n d hr hn hm (fun h => (hc h).1) hw (fun h => (hc h).2) hb

/-- Settles O39: by `decodeOne_noWay`. -/
theorem dsymInconsistency : Obligations.DsymInconsistency := by
  intro s n d he hf hr hn hm hc hw hb
  exact ⟨_, exec_dsym_raise he (decodeOne_noWay hf hr hn hm hc hw hb) he, State.readPos_advance (s := s) (n := n + 1) hm, rfl⟩

end Sys2Proof.Machine
end

section
/-! SUPPORT. The faults of DECODE (spec/41_tree_decoder.md R105, spec/60_exceptions.md R207): a run of symbols, the turn that raises
after it, and what stands then. -/

namespace Sys2Proof.Machine

/-! ## The turn that raises -/

/-- A turn in which `decodeOne` raises. -/
theorem decodeLoop_raise {s u : State} {f : FaultCode} {info : Word} (h : decodeOne s = .raise f info u) (k count : Nat) :
    decodeLoop (k + 1) count s = .raise f info u := by
  rw [decodeLoop, h, Res.andThen_raise]

/-- A turn whose symbol does not fit. -/
theorem decodeLoop_overrun {s u : State} {v : Word} (h : decodeOne s = .ok (.symbol v) u) (hf : ¬ u.Fits u.symw.toNat)
    (k count : Nat) : decodeLoop (k + 1) count s = .raise .writeOverrun 0 u := by
  rw [decodeLoop, h, Res.andThen_ok]
  simp only
  rw [put_overrun (by rwa [msbFirst_length]), Res.andThen_raise]

/-- An end whose padding does not fit. -/
theorem decodeEnds_overrun {s : State} (hf : ¬ s.Fits (padding s.wbit.toNat).length) (stat : Stat) (count : Nat) :
    decodeEnds stat count s = .raise .writeOverrun 0 s := by
  rw [decodeEnds, flushPad_overrun hf, Res.andThen_raise]

theorem State.noWay_congr {s t : State} (h : s.nodeMem = t.nodeMem) (hn : s.ncnt = t.ncnt) (i : Nat) (b : Bool) :
    s.NoWay i b ↔ t.NoWay i b := by
  simp only [State.NoWay, hn, State.kind_congr h, State.child_congr h]

/-! ## A run of symbols, with more bits after it -/

/-- The window of an armed decoder begins with the codes `c` of the symbols `vs`, whose fields fit, and then the bits `r`; the codes
lead from the tree cursor to node `j`. -/
structure State.ReadsRun (s : State) (vs : List Word) (c r : Code) (j : Nat) : Prop where
  armed : s.DecodeArmed
  decodes : s.Decodes s.tcur.toNat vs c j
  fits : s.Fits (symbolStream s.symw.toNat vs).length
  window : (c ++ r).length ≤ s.bitsLeft
  bits : s.inCode s.readPos (c ++ r).length = c ++ r

theorem State.le_bitsLeft {s : State} {n : Nat} (h : s.readPos + n ≤ 8 * s.rlim.toNat) : n ≤ s.bitsLeft := by
  unfold State.bitsLeft
  omega

section
variable {s : State} {vs : List Word} {c r : Code} {j : Nat}

/-- The codes are none, or lie below RLIM. -/
theorem State.ReadsRun.below (h : s.ReadsRun vs c r j) : c = [] ∨ s.readPos + c.length ≤ 8 * s.rlim.toNat := by
  have hw := h.window
  rw [List.length_append] at hw
  unfold State.bitsLeft at hw
  rw [← List.length_eq_zero_iff]
  omega

theorem State.ReadsRun.readPos (h : s.ReadsRun vs c r j) : (s.decoded c vs j).readPos = s.readPos + c.length :=
  State.decoded_readPos vs j h.below

theorem State.ReadsRun.bitsLeft (h : s.ReadsRun vs c r j) : (s.decoded c vs j).bitsLeft = s.bitsLeft - c.length := by
  obtain ⟨-, -, -, hrlim, -⟩ := s.decoded_fields c vs j
  rw [State.bitsLeft, h.readPos, hrlim, State.bitsLeft, Nat.sub_sub]

/-- The codes consumed leave the decoder armed on node `j`, with the bits `r` next. -/
theorem State.ReadsRun.next (h : s.ReadsRun vs c r j) :
    (s.decoded c vs j).DecodeArmed ∧ (s.decoded c vs j).tcur.toNat = j ∧
      (s.decoded c vs j).inCode (s.decoded c vs j).readPos r.length = r := by
  have hpos := h.readPos
  obtain ⟨⟨he, hw, hf, hl, ha⟩, hdec, hfit, -, hi⟩ := h
  obtain ⟨-, -, hncnt, hrlim, hwlim, hsize, -, hin, hsymw, hflags, herr⟩ := s.decoded_fields c vs j
  rw [List.length_append, State.inCode_add] at hi
  have hbits := (List.append_inj hi (by simp)).2
  obtain ⟨-, -, hacc, -⟩ := State.appended_decoded c j ha hfit
  refine ⟨⟨herr.trans he, by rw [hsymw]; exact hw, hflags.trans hf, ?_, hacc⟩, State.decoded_node hdec, ?_⟩
  · rw [State.LimitsLegal, hncnt, hrlim, hwlim, hsize]
    exact hl
  · rw [hpos, State.inCode_congr hin]
    exact hbits

/-- DECODE's loop takes a turn for each symbol, and one at least is left; the padding need not fit, as it must in `decodeLoop_run`. -/
theorem State.ReadsRun.loop (h : s.ReadsRun vs c r j) :
    ∃ k, decodeLoop (s.bitsLeft + 1) 0 s = decodeLoop (k + 1) vs.length (s.decoded c vs j) := by
  have hlen := h.window
  have hbelow := h.below
  obtain ⟨⟨-, -, hf, hl, ha⟩, hdec, hfit, -, hi⟩ := h
  rw [List.length_append, State.inCode_add] at hi
  have hturns : s.bitsLeft + 1 = vs.length + (s.bitsLeft - vs.length + 1) := by
    have := State.decodes_length hdec
    rw [List.length_append] at hlen
    omega
  have hrun := decodeLoop_symbols (s.bitsLeft - vs.length + 1) 0 hf hl ha hdec hbelow (List.append_inj hi (by simp)).1 hfit
  rw [← hturns, Nat.zero_add] at hrun
  exact ⟨_, hrun⟩

/-- Where the bits after the run are all that is left and lead to a node `d` that is no leaf, the next `decodeOne` consumes them, and
the input ends on `d`. -/
theorem State.ReadsRun.endsOn (h : s.ReadsRun vs c r j) {d : Nat} (hw : s.walk j r = some d)
    (hc : r ≠ [] → j < s.ncnt.toNat ∧ s.kind d = .internal) (hm : (c ++ r).length = s.bitsLeft) :
    decodeOne (s.decoded c vs j) = inputEnds ((s.decoded c vs j).descended r.length d) ∧
      ((s.decoded c vs j).descended r.length d).readPos = s.readPos + (c ++ r).length ∧
      ((s.decoded c vs j).descended r.length d).tcur.toNat = d := by
  obtain ⟨⟨-, -, hf, ⟨hrl, -, hnl⟩, -⟩, hnode, hbits⟩ := h.next
  obtain ⟨-, -, hncnt, -, -, -, hmem, -⟩ := s.decoded_fields c vs j
  rw [List.length_append] at hm ⊢
  rw [← Nat.add_assoc, ← h.readPos]
  exact decodeOne_inputEnds hf hrl hnl (by rw [hnode, State.walk_congr hmem hncnt]; exact hw)
    (by rw [hnode, hncnt, State.kind_congr hmem]; exact hc) (by rw [h.bitsLeft]; omega) hbits

/-- Where the bits after the run lead to a node `d` from which movement on the bit after them is impossible, the next `decodeOne`
consumes that bit and raises (R100, R101). -/
theorem State.ReadsRun.sticks {b : Bool} (h : s.ReadsRun vs c (r ++ [b]) j) {d : Nat} (hw : s.walk j r = some d)
    (hc : r ≠ [] → j < s.ncnt.toNat ∧ s.kind d = .internal) (hno : s.NoWay d b)
    (hm : s.readPos + (c ++ (r ++ [b])).length ≤ 8 * s.rlim.toNat) :
    decodeOne (s.decoded c vs j) =
      .raise .internalConsistency (BitVec.ofNat 64 d) ((s.decoded c vs j).descended (r.length + 1) d) ∧
    ((s.decoded c vs j).descended (r.length + 1) d).readPos = s.readPos + (c ++ (r ++ [b])).length := by
  obtain ⟨⟨-, -, hf, ⟨hrl, -, hnl⟩, -⟩, hnode, hbits⟩ := h.next
  obtain ⟨-, -, hncnt, hrlim, -, -, hmem, -⟩ := s.decoded_fields c vs j
  rw [List.length_append, State.inCode_add] at hbits
  obtain ⟨hr, hb⟩ := List.append_inj hbits (by simp)
  rw [List.length_append, ← Nat.add_assoc, ← h.readPos, List.length_append, List.length_singleton] at hm ⊢
  rw [← hrlim] at hm
  refine ⟨decodeOne_noWay hf hrl hnl hm ?_ (by rw [hnode, hr, State.walk_congr hmem hncnt]; exact hw) ?_,
    State.readPos_advance hm⟩
  · rw [hnode, hncnt, State.kind_congr hmem]
    exact fun h0 => hc fun hnil => h0 (List.length_eq_zero_iff.2 hnil)
  · have hlast : (s.decoded c vs j).inBit ((s.decoded c vs j).readPos + r.length) = b := List.head_eq_of_cons_eq hb
    rw [hlast]
    exact (State.noWay_congr hmem hncnt d b).2 hno

/-- Where the bits after the run are a code, the next `decodeOne` follows it to its leaf (R101). -/
theorem State.ReadsRun.follows (h : s.ReadsRun vs c r j) {d : Nat} (hj : j < s.ncnt.toNat) (hr : s.Leads j r d)
    (hm : s.readPos + (c ++ r).length ≤ 8 * s.rlim.toNat) :
    (s.kind d = .leaf → decodeOne (s.decoded c vs j) =
      .ok (.symbol (s.payload d)) ((s.decoded c vs j).descended r.length s.root.toNat)) ∧
    (s.kind d = .eof → decodeOne (s.decoded c vs j) =
      .ok .eof ((s.decoded c vs j).descended r.length s.root.toNat).setEofSeen) ∧
    ((s.decoded c vs j).descended r.length s.root.toNat).readPos = s.readPos + (c ++ r).length := by
  obtain ⟨⟨-, -, hf, hl, -⟩, hnode, hbits⟩ := h.next
  obtain ⟨-, hroot, hncnt, hrlim, -, -, hmem, -⟩ := s.decoded_fields c vs j
  rw [List.length_append, ← Nat.add_assoc, ← h.readPos] at hm ⊢
  rw [← hrlim] at hm
  have hone := decodeOne_leads (c := r) (d := d) hf (by rw [hnode, hncnt]; exact hj) hl
    ⟨hr.1, by rw [hnode, State.walk_congr hmem hncnt]; exact hr.2⟩ hm hbits
  rw [State.kind_congr hmem, State.payload_congr hmem, hroot] at hone
  simp only [State.descended, BitVec.ofNat_toNat, BitVec.setWidth_eq]
  exact ⟨hone.1, hone.2, State.readPos_advance hm⟩

/-- Where the padding does not fit after the run's fields, an end that only the read side has come to raises. -/
theorem State.ReadsRun.ends_overrun (h : s.ReadsRun vs c r j) {u : State} (hu : OnlyDescent (s.decoded c vs j) u)
    (hf : ¬ s.FitsPadded (symbolStream s.symw.toNat vs).length) (stat : Stat) (count : Nat) :
    decodeEnds stat count u = .raise .writeOverrun 0 u := by
  obtain ⟨-, -, -, -, ha⟩ := h.armed
  rw [State.FitsPadded, ← State.decoded_padding c j ha h.fits, State.decoded_fits c j _ ha h.fits] at hf
  refine decodeEnds_overrun ?_ stat count
  rw [hu]
  exact hf

/-- Where the turn after the run raises, DECODE takes the fault: the symbols stay appended, and the read side stands where the turn
left it (R105, R207). -/
theorem State.ReadsRun.raises (h : s.ReadsRun vs c r j) {u : State} {f : FaultCode} {info : Word} {p : Nat} {i : BitVec 32}
    {b : BitVec 1} (hturn : ∀ k count, decodeLoop (k + 1) count (s.decoded c vs j) = .raise f info u)
    (hu : OnlyDescent (s.decoded c vs j) u) (hpos : u.readPos = p) (htcur : u.tcur = i) (hflags : u.flags = b) :
    ∃ t, exec .decode s = .next t ∧ t.rsp = some ⟨.fault f, info⟩ ∧ t.readPos = p ∧
      Appended s t (symbolStream s.symw.toNat vs) ∧
      OnlyCursors { s with tcur := i, flags := b, err := f.code, einfo := info } t := by
  obtain ⟨he, hw, -, -, ha⟩ := h.armed
  obtain ⟨k, hloop⟩ := h.loop
  obtain ⟨⟨herr, -⟩, -, -⟩ := h.next
  have happ := State.appended_decoded c j ha h.fits
  have hfix := s.decoded_eq c vs j
  replace herr : u.err = 0 := by
    rw [hu]
    exact herr
  subst hpos htcur hflags
  refine ⟨u.raise f info, ?_, rfl, by rw [State.raise_first _ _ herr]; rfl, ?_, ?_⟩
  · rw [exec_decode_run he hw, hloop, hturn, Res.answer_raise]
  · rw [State.raise_first _ _ herr, hu]
    exact happ
  · unfold OnlyCursors at hfix ⊢
    rw [State.raise_first _ _ herr, hu, hfix]

end

/-! ## The two statements -/

/-- Settles O43: the turn after the run ends the input mid-path, or finds no way on. -/
theorem decodeInputFaultsKeepTheSymbols : Obligations.DecodeInputFaultsKeepTheSymbols := by
  intro s vs c r j d hs hdec hfit hw hc
  obtain ⟨-, hroot, -, -, -, -, -, -, -, hflags, -⟩ := s.decoded_fields c vs j
  refine ⟨fun hd hm hi => ?_, fun b hno hm hi => ?_⟩
  · have hrun : s.ReadsRun vs c r j := ⟨hs, hdec, hfit, hm.le, hi⟩
    obtain ⟨hone, hpos, htcur⟩ := hrun.endsOn hw hc hm
    exact hrun.raises (decodeLoop_raise (hone.trans (inputEnds_midPath htcur fun h => hd (h.trans (congrArg _ hroot))))) rfl
      hpos hroot hflags
  · have hrun : s.ReadsRun vs c (r ++ [b]) j :=
      ⟨hs, hdec, hfit, by rw [← List.append_assoc]; exact State.le_bitsLeft hm, by rw [← List.append_assoc]; exact hi⟩
    obtain ⟨hone, hpos⟩ := hrun.sticks hw hc hno (by rw [← List.append_assoc]; exact hm)
    exact hrun.raises (decodeLoop_raise hone) rfl (by rw [hpos, List.append_assoc]) rfl hflags

/-- Settles O44: the turn after the run puts a field that does not fit, or ends the loop with padding that does not fit. -/
theorem decodeOverrunKeepsTheSymbols : Obligations.DecodeOverrunKeepsTheSymbols := by
  refine ⟨fun s vs c j hs hdec hfit => ?_, fun s he h1 h64 hf hpad => ?_⟩
  · have ⟨_, _, _, _, ha⟩ := hs
    obtain ⟨-, hroot, -, -, -, -, -, -, hsymw, hflags, -⟩ := s.decoded_fields c vs j
    have hback : BitVec.ofNat 32 s.root.toNat = s.root := by simp
    refine ⟨fun c1 d hj hlead hk hm hi hover => ?_,
      fun hpad => ⟨fun e d hj hlead hk hm hi => ?_, fun r hw hc hm hi => ?_⟩⟩
    · have hrun : s.ReadsRun vs c c1 j := ⟨hs, hdec, hfit, State.le_bitsLeft hm, hi⟩
      obtain ⟨hone, -, hpos⟩ := hrun.follows hj hlead hm
      have hfield : ¬ (s.decoded c vs j).Fits (s.decoded c vs j).symw.toNat := by
        rw [symbolStream_append, List.length_append, symbolStream_length _ [_], List.length_singleton, Nat.one_mul,
          State.decoded_fits c j _ ha hfit] at hover
        rwa [hsymw]
      exact hrun.raises (decodeLoop_overrun (hone hk) hfield) rfl hpos hback hflags
    · have hrun : s.ReadsRun vs c e j := ⟨hs, hdec, hfit, State.le_bitsLeft hm, hi⟩
      obtain ⟨-, hone, hpos⟩ := hrun.follows hj hlead hm
      exact hrun.raises (fun k count => (decodeLoop_eof k count (hone hk)).trans (hrun.ends_overrun (by rfl) hpad _ _))
        (by rfl) hpos hback rfl
    · have hrun : s.ReadsRun vs c r j := ⟨hs, hdec, hfit, hm.le, hi⟩
      obtain ⟨hone, hpos, htcur⟩ := hrun.endsOn hw hc hm
      have hend := hone.trans (inputEnds_root (htcur.trans (congrArg _ hroot.symm)))
      exact hrun.raises (fun k count => (decodeLoop_exhausted k count hend).trans (hrun.ends_overrun (by rfl) hpad _ _))
        (by rfl) hpos hback hflags
  · have hone : decodeOne s = .ok .eof s := if_pos (by simp [State.eofSeen, hf])
    have hover : ¬ s.Fits (padding s.wbit.toNat).length := by simpa [State.FitsPadded] using hpad
    rw [exec_decode_run he ⟨h1, h64⟩, decodeLoop_eof _ _ hone, decodeEnds_overrun hover, Res.answer_raise,
      State.raise_first _ _ he]
    rfl

end Sys2Proof.Machine
end

section
/-! SUPPORT. The codes as paths from ROOT, the faults of ENCSYM and ENCEOF, and the refusal outside WF(tree) (spec/42_bit_packer.md
R120 to R123, spec/93_implementation_defined.md U5). -/

namespace Sys2Proof.Machine

/-- Settles O46: ROOT is internal, so a path to a leaf is not empty. -/
theorem codesAreRootPaths : Obligations.CodesAreRootPaths := by
  intro s h
  have heof := eq_codeOfEof_iff h
  refine ⟨fun v c => ?_, ?_, fun c d hlead hk => (heof c).2 ⟨d, hlead.2, hk⟩⟩
  · rw [codeOf_eq_some_iff h]
    exact exists_congr fun d =>
      ⟨fun ⟨hw, hk, hv⟩ => ⟨leads_of_walk h hw (by simp [hk]), hk, hv⟩, fun ⟨hlead, hk, hv⟩ => ⟨hlead.2, hk, hv⟩⟩
  · obtain ⟨d, hw, hk⟩ := (heof (codeOfEof s)).1 rfl
    exact ⟨d, leads_of_walk h hw (by simp [hk]), hk⟩

/-- Under WF(tree) `codeOf` answers None exactly where no data leaf holds the symbol (R120). -/
theorem codeOf_eq_none_iff {s : State} (h : wfTree s = true) (v : Word) :
    codeOf s v = none ↔ ∀ c d, s.Leads s.root.toNat c d → s.kind d = .leaf → s.payload d ≠ v := by
  rw [Option.eq_none_iff_forall_ne_some]
  simp only [ne_eq, (codesAreRootPaths s h).1, not_exists, not_and]

/-! ## ENCSYM and ENCEOF -/

/-- ENCSYM of a symbol that has a code is `put` of that code (R122). -/
theorem exec_encsym_coded {s : State} {v : Word} {c : Code} (he : s.err = 0) (ht : wfTree s = true) (hc : codeOf s v = some c) :
    exec (.encsym v) s = (putCode c s).answer (fun _ => .done) (fun n => BitVec.ofNat 64 n) := by
  refine (issue_run _ he rfl).trans ((if_pos ht).trans ?_)
  rw [hc]

/-- ENCSYM of a symbol that has none raises INCOMPATIBLE_TABLE with it (R122). -/
theorem exec_encsym_uncoded {s : State} {v : Word} (he : s.err = 0) (ht : wfTree s = true) (hc : codeOf s v = none) :
    exec (.encsym v) s = .next (s.raise .incompatibleTable v) := by
  refine (issue_run _ he rfl).trans ((if_pos ht).trans ?_)
  rw [hc]

/-- ENCEOF is `put` of the EOF leaf's code (R123). -/
theorem exec_enceof_run {s : State} (he : s.err = 0) (ht : wfTree s = true) :
    exec .enceof s = (putCode (codeOfEof s) s).answer (fun _ => .done) (fun n => BitVec.ofNat 64 n) :=
  (issue_run _ he rfl).trans (if_pos ht)

/-- A code that does not fit raises WRITE_OVERRUN and writes nothing (R82). -/
theorem putCode_overrun {s : State} {c : Code} (hf : ¬ s.Fits c.length) : putCode c s = .raise .writeOverrun 0 s := by
  rw [putCode, put_overrun hf, Res.andThen_raise]

/-- Settles O50: the lookup gives no code, or `put` refuses the one it gives. -/
theorem codeCommandFaultsChangeNothing : Obligations.CodeCommandFaultsChangeNothing := by
  intro s v he ht
  refine ⟨fun hnone => ?_, fun c d hlead hf => ⟨fun hk hv => ?_, fun hk => ?_⟩⟩
  · rw [exec_encsym_uncoded he ht ((codeOf_eq_none_iff ht v).2 hnone), State.raise_first _ _ he]
    rfl
  · have hc : codeOf s v = some c := ((codesAreRootPaths s ht).1 v c).2 ⟨d, hlead, hk, hv⟩
    rw [exec_encsym_coded he ht hc, putCode_overrun hf, Res.answer_raise, State.raise_first _ _ he]
    rfl
  · obtain rfl : c = codeOfEof s := (codesAreRootPaths s ht).2.2 c d hlead hk
    rw [exec_enceof_run he ht, putCode_overrun hf, Res.answer_raise, State.raise_first _ _ he]
    rfl

/-! ## Outside WF(tree) -/

/-- Settles O53: the check of the tree stands before every packer command's own work, and after ENCODE's check of SYMW. -/
theorem packerNeedsAWellFormedTree : Obligations.PackerNeedsAWellFormedTree := by
  intro s i he hwf hi
  have htree : ¬ wfTree s = true := fun h => hwf ((treeCheckDecidesWellFormedness s).1 h)
  rcases hi with ⟨v, rfl⟩ | rfl | ⟨rfl, hw⟩
  · exact (issue_run _ he rfl).trans (if_neg htree)
  · exact (issue_run _ he rfl).trans (if_neg htree)
  · exact (issue_run _ he rfl).trans ((if_neg (State.widthUnset_iff.2 hw)).trans (if_neg htree))

end Sys2Proof.Machine
end

section
/-! SUPPORT. The faults of ENCODE (spec/42_bit_packer.md R124, R126, spec/60_exceptions.md R207): a run of symbols packed, what raises
after it, and what stands then. -/

namespace Sys2Proof.Machine

/-! ## What raises -/

/-- A turn in which `encodeOne` raises. -/
theorem encodeLoop_raise {s u : State} {f : FaultCode} {info : Word} (hm : s.hasMore s.symw.toNat = true)
    (h : encodeOne s = .raise f info u) (k count : Nat) : encodeLoop (k + 1) count s = .raise f info u := by
  rw [encodeLoop, if_pos hm, h, Res.andThen_raise]

/-- An end whose EOF code does not fit after the bits appended so far. -/
theorem encodeEnds_overrun {s : State} {n : Nat} {c : Code} (count : Nat) (ha : s.AccClear) (hf : s.Fits c.length)
    (hover : ¬ s.Fits (c ++ codeOfEof s).length) : encodeEnds count (s.encoded n c) = .raise .writeOverrun 0 (s.encoded n c) := by
  rw [List.length_append, State.encoded_fits n _ ha hf] at hover
  rw [encodeEnds, State.codeOfEof_encoded, put_overrun hover, Res.andThen_raise]

/-- An end whose EOF code fits after the bits appended so far, and whose padding does not. -/
theorem encodeEnds_flush_overrun {s : State} {n : Nat} {c : Code} (count : Nat) (ha : s.AccClear)
    (hl : s.wlim.toNat ≤ s.size.outSize.val) (hf : s.Fits (c ++ codeOfEof s).length)
    (hover : ¬ s.FitsPadded (c ++ codeOfEof s).length) :
    encodeEnds count (s.encoded n c) = .raise .writeOverrun 0 (s.encoded n (c ++ codeOfEof s)) := by
  have hfc : s.Fits c.length := State.fits_mono hf (by simp)
  have hput : put (codeOfEof s) (s.encoded n c) = .ok () (s.encoded n (c ++ codeOfEof s)) := by
    rw [put_ok ((State.encoded_fits n _ ha hfc).1 (by simpa using hf)) (by simpa using hl), State.encoded_putBits]
  rw [State.FitsPadded, ← State.encoded_padding n ha hf, State.encoded_fits n _ ha hf] at hover
  rw [encodeEnds, State.codeOfEof_encoded, hput, Res.andThen_ok, flushPad_overrun hover, Res.andThen_raise]

/-- What ENCODE leaves where it raises after `n` bits read and the bits `c` appended: these stay, and ERR and EINFO hold the fault
(R126, R207). -/
theorem exec_encode_raises {s : State} {n : Nat} {c : Code} {f : FaultCode} {info : Word} (hs : s.EncodeReady) (hf : s.Fits c.length)
    (hq : (s.encoded n c).readPos = s.readPos + n)
    (h : (encodeLoop (s.bitsLeft / s.symw.toNat) 0 s).andThen encodeEnds = .raise f info (s.encoded n c)) :
    ∃ t, exec .encode s = .next t ∧ t.rsp = some ⟨.fault f, info⟩ ∧ t.readPos = s.readPos + n ∧ Appended s t c ∧
      OnlyCursors { s with err := f.code, einfo := info } t := by
  obtain ⟨he, hw, ht, -, ha⟩ := hs
  have hfix := s.encoded_eq n c
  have happ := State.appended_encoded n ha hf
  have herr : (s.encoded n c).err = 0 := by
    rw [hfix]
    exact he
  refine ⟨(s.encoded n c).raise f info, ?_, State.raise_rsp _ _ _, ?_, ?_, ?_⟩
  · rw [exec_encode_run he hw ht, h, Res.answer_raise]
  · rw [State.raise_first _ _ herr]
    exact hq
  · rw [State.raise_first _ _ herr]
    exact happ
  · unfold OnlyCursors at hfix ⊢
    rw [State.raise_first _ _ herr, hfix]

/-! ## A run of symbols, with one more after it -/

/-- A window that holds the fields of `vs` and of `v` holds those of `vs`, and then that of `v`. -/
theorem State.inCode_fields_snoc {s : State} {vs : List Word} {v : Word} {n q : Nat}
    (h : s.inCode q ((vs.length + 1) * n) = symbolStream n (vs ++ [v])) :
    s.inCode q (vs.length * n) = symbolStream n vs ∧ s.inCode (q + vs.length * n) n = valueBits v n := by
  rw [Nat.succ_mul, State.inCode_add, symbolStream_append] at h
  obtain ⟨hvs, hv⟩ := List.append_inj h (by rw [State.inCode_length, symbolStream_length])
  exact ⟨hvs, by simpa [symbolStream] using hv⟩

/-- ENCODE's loop packs the symbols `vs`; at the symbol `v` after them, which has no code or one that does not fit, it raises, with that
symbol put back (R124). -/
theorem encodeLoop_faults {s : State} {vs : List Word} {v : Word} {c : Code} (hs : s.EncodeReady) (hspell : s.Spells vs c)
    (hf : s.Fits c.length) (hm : s.readPos + (vs.length + 1) * s.symw.toNat ≤ 8 * s.rlim.toNat)
    (hi : s.inCode s.readPos ((vs.length + 1) * s.symw.toNat) = symbolStream s.symw.toNat (vs ++ [v]))
    (hv : ∀ u ∈ vs ++ [v], u.toNat < 2 ^ s.symw.toNat) :
    (codeOf s v = none → encodeLoop (s.bitsLeft / s.symw.toNat) 0 s =
      .raise .incompatibleTable v (s.encoded (vs.length * s.symw.toNat) c)) ∧
    ∀ c1, codeOf s v = some c1 → ¬ s.Fits (c ++ c1).length → encodeLoop (s.bitsLeft / s.symw.toNat) 0 s =
      .raise .writeOverrun 0 (s.encoded (vs.length * s.symw.toNat) c) := by
  obtain ⟨-, ⟨hw, -⟩, ht, hl, ha⟩ := hs
  obtain ⟨hivs, hiv⟩ := State.inCode_fields_snoc hi
  obtain ⟨k, hk⟩ : ∃ k, s.bitsLeft / s.symw.toNat = vs.length + (k + 1) := by
    have hle := (Nat.le_div_iff_mul_le hw).2 (State.le_bitsLeft hm)
    exact ⟨s.bitsLeft / s.symw.toNat - (vs.length + 1), by omega⟩
  rw [Nat.succ_mul, ← Nat.add_assoc] at hm
  have hloop := encodeLoop_symbols (k + 1) 0 hw hl ha ((codesOf_eq_some_iff ht).2 hspell) (.inl (by omega)) hivs
    (fun u hu => hv u (List.mem_append_left _ hu)) hf
  have hq := State.encoded_readPos (s := s) c (n := vs.length * s.symw.toNat) (by omega)
  have hcode : codeOf (s.encoded (vs.length * s.symw.toNat) c) v = codeOf s v :=
    codeOf_congr (State.encoded_nodeMem _ _ _) (State.encoded_ncnt _ _ _) (State.encoded_root _ _ _) v
  have hone := encodeOne_eq (s := s.encoded (vs.length * s.symw.toNat) c) (v := v) (by simpa using hw)
    (by simpa [State.LimitsLegal] using hl) (by rw [hq]; simpa using hm)
    (by rw [hq, State.inCode_congr (State.encoded_inMem _ _ _)]; simpa using hiv) (by simpa using hv v (by simp))
  have hmore : State.hasMore (s.encoded (vs.length * s.symw.toNat) c) (s.encoded (vs.length * s.symw.toNat) c).symw.toNat = true :=
    (State.hasMore_iff _ _).2 (by rw [hq]; simpa using hm)
  rw [hcode] at hone
  rw [hk, hloop]
  refine ⟨fun hnone => encodeLoop_raise hmore (hone.1 hnone) _ _, fun c1 hc1 hover => ?_⟩
  rw [List.length_append, State.encoded_fits _ _ ha hf] at hover
  exact encodeLoop_raise hmore ((hone.2 c1 hc1).2 hover) _ _

/-- ENCODE's loop packs the whole window, and its end is run on what that leaves. -/
theorem encodeLoop_window {s : State} {vs : List Word} {c : Code} (hs : s.EncodeReady) (hwin : s.WindowHolds vs)
    (hspell : s.Spells vs c) (hf : s.Fits c.length) :
    encodeLoop (s.bitsLeft / s.symw.toNat) 0 s = .ok vs.length (s.encoded (vs.length * s.symw.toNat) c) := by
  obtain ⟨-, ⟨hw, -⟩, ht, hl, ha⟩ := hs
  have hturns := hwin.turns hw
  obtain ⟨hm, -, hi, hv⟩ := hwin
  have hloop := encodeLoop_symbols 0 0 hw hl ha ((codesOf_eq_some_iff ht).2 hspell) hm.symm hi hv hf
  rw [hturns, ← Nat.add_zero vs.length, hloop, Nat.add_zero, Nat.zero_add, encodeLoop]

/-- Settles O52: the loop raises at the symbol after the run; or it packs the window, and its end raises. -/
theorem encodeFaultsAreSymbolPrecise : Obligations.EncodeFaultsAreSymbolPrecise := by
  intro s vs c hs hspell hf
  have ⟨_, _, ht, hl, ha⟩ := hs
  refine ⟨fun v ⟨hm, hi, hv⟩ => ?_, fun e d hwin hlead hk => ?_⟩
  · obtain ⟨huncoded, hover⟩ := encodeLoop_faults hs hspell hf hm hi hv
    have hq := State.encoded_readPos (s := s) c (n := vs.length * s.symw.toNat) (by rw [Nat.succ_mul] at hm; omega)
    refine ⟨fun hnone => exec_encode_raises hs hf hq ?_, fun c1 d hlead hk hpay hfit => exec_encode_raises hs hf hq ?_⟩
    · rw [huncoded ((codeOf_eq_none_iff ht v).2 hnone), Res.andThen_raise]
    · rw [hover c1 (((codesAreRootPaths s ht).1 v c1).2 ⟨d, hlead, hk, hpay⟩) hfit, Res.andThen_raise]
  · obtain rfl : e = codeOfEof s := (codesAreRootPaths s ht).2.2 e d hlead hk
    have hloop := encodeLoop_window hs hwin hspell hf
    obtain ⟨hm, -⟩ := hwin
    refine ⟨fun hover => exec_encode_raises hs hf (State.encoded_run_readPos c hm) ?_,
      fun hfit hover => exec_encode_raises hs hfit (State.encoded_run_readPos _ hm) ?_⟩
    · rw [hloop, Res.andThen_ok, encodeEnds_overrun _ ha hf hover]
    · rw [hloop, Res.andThen_ok, encodeEnds_flush_overrun _ ha hl.2.1 hfit hover]

end Sys2Proof.Machine
end

section
/-! SUPPORT. Two runs of the packer side by side (spec/42_bit_packer.md R122 to R124): what it does where fields beside its
own hold something else: the tree cursor and FLAGS (R244), then the read cursor and the response, for the commands that read no input. -/

namespace Sys2Proof.Machine

/-- A change of the state beside what `put` and `flushPad` read and write, and beside the tree. -/
structure BesideWrites (f : State → State) : Prop where
  writeSide : ∀ s, (f s).wbyte = s.wbyte ∧ (f s).wbit = s.wbit ∧ (f s).wacc = s.wacc ∧ (f s).wlim = s.wlim ∧ (f s).size = s.size
  tree : ∀ s, (f s).nodeMem = s.nodeMem ∧ (f s).ncnt = s.ncnt ∧ (f s).root = s.root
  storeOut : ∀ s a b, (f s).storeOut a b = f (s.storeOut a b)
  setWrite : ∀ s byte bit acc, (f s).setWrite byte bit acc = f (s.setWrite byte bit acc)

section
variable {f : State → State} (hf : BesideWrites f)
include hf

theorem putBits_map (s : State) (c : Code) : (f s).putBits c = f (s.putBits c) := by
  induction c generalizing s with
  | nil => rfl
  | cons b c ih =>
    obtain ⟨hbyte, hbit, hacc, -⟩ := hf.writeSide s
    have hb : (f s).putBit b = f (s.putBit b) := by
      simp only [State.putBit, hbyte, hbit, hacc, hf.storeOut, hf.setWrite, apply_ite f]
    rw [putBits_cons, putBits_cons, hb, ih]

theorem put_map (s : State) (c : Code) : put c (f s) = (put c s).map f := by
  obtain ⟨hbyte, hbit, -, hlim, hsize⟩ := hf.writeSide s
  simp only [put, hbyte, hbit, hlim, hsize, putBits_map hf, apply_ite (Res.map f)]
  rfl

theorem flushPad_map (s : State) : flushPad (f s) = (flushPad s).map f := by
  obtain ⟨hbyte, hbit, hacc, hlim, hsize⟩ := hf.writeSide s
  simp only [flushPad, hbyte, hbit, hacc, hlim, hsize, hf.storeOut, hf.setWrite, apply_ite (Res.map f)]
  rfl

theorem codeOf_map (s : State) (v : Word) : codeOf (f s) v = codeOf s v := by
  obtain ⟨hmem, hncnt, hroot⟩ := hf.tree s
  exact codeOf_congr hmem hncnt hroot v

theorem codeOfEof_map (s : State) : codeOfEof (f s) = codeOfEof s := by
  obtain ⟨hmem, hncnt, hroot⟩ := hf.tree s
  exact codeOfEof_congr hmem hncnt hroot

theorem wfTree_map (s : State) : wfTree (f s) = wfTree s := by
  obtain ⟨hmem, hncnt, hroot⟩ := hf.tree s
  obtain ⟨-, -, -, -, hsize⟩ := hf.writeSide s
  exact wfTree_congr hmem hncnt hroot hsize

end

/-! ## The tree cursor and FLAGS -/

/-- The state with TCUR and FLAGS replaced. -/
def State.withTreeCursor (i : BitVec 32) (b : BitVec 1) (s : State) : State := { s with tcur := i, flags := b }

section
variable (i : BitVec 32) (b : BitVec 1)

theorem withTreeCursor_beside : BesideWrites (State.withTreeCursor i b) :=
  ⟨fun _ => ⟨rfl, rfl, rfl, rfl, rfl⟩, fun _ => ⟨rfl, rfl, rfl⟩, fun _ _ _ => rfl, fun _ _ _ _ => rfl⟩

theorem State.withTreeCursor_raise (s : State) (c : FaultCode) (info : Word) :
    (s.raise c info).withTreeCursor i b = (s.withTreeCursor i b).raise c info := by
  rw [State.raise_eq, State.raise_eq]
  rfl

theorem Res.answer_withTreeCursor {α : Type} {r r' : Res α} (stat : α → Stat) (val : α → Word)
    (h : r' = r.map (State.withTreeCursor i b)) :
    r'.answer stat val = mapNext (State.withTreeCursor i b) (r.answer stat val) := by
  subst h
  cases r with
  | ok a s => rfl
  | raise c info s => exact congrArg Host.Outcome.next (State.withTreeCursor_raise i b s c info).symm
  | stop e => rfl

/-- The order of checks and the check of the tree look at neither. -/
theorem issue_withTreeCursor {j : Instr} {s : State} {body body' : Outcome}
    (h : body' = mapNext (State.withTreeCursor i b) body) :
    issue j (s.withTreeCursor i b) body' = mapNext (State.withTreeCursor i b) (issue j s body) :=
  issue_map rfl rfl (State.withTreeCursor_raise i b s) h

theorem whenTree_withTreeCursor {s : State} {body body' : Outcome} (h : body' = mapNext (State.withTreeCursor i b) body) :
    whenTree (s.withTreeCursor i b) body' = mapNext (State.withTreeCursor i b) (whenTree s body) := by
  subst h
  rw [whenTree, whenTree, wfTree_map (withTreeCursor_beside i b), apply_ite (mapNext (State.withTreeCursor i b))]
  rfl

theorem putCode_withTreeCursor (c : Code) (s : State) :
    putCode c (s.withTreeCursor i b) = (putCode c s).map (State.withTreeCursor i b) :=
  Res.map_andThen (put_map (withTreeCursor_beside i b) s c) (Res.all_true _) fun _ _ _ => rfl

theorem getBits_withTreeCursor (n : Nat) (s : State) :
    getBits n (s.withTreeCursor i b) = (getBits n s).map (State.withTreeCursor i b) := by
  have hval : (s.withTreeCursor i b).inValue s.readPos n 0 = s.inValue s.readPos n 0 := by
    rw [State.inValue_eq, State.inValue_eq]
    rfl
  simp only [getBits, apply_ite (Res.map (State.withTreeCursor i b)), ← hval]
  rfl

theorem encodeOne_withTreeCursor (s : State) :
    encodeOne (s.withTreeCursor i b) = (encodeOne s).map (State.withTreeCursor i b) := by
  refine Res.map_andThen (getBits_withTreeCursor i b s.symw.toNat s) (Res.all_true _) fun v s1 _ => ?_
  rw [codeOf_map (withTreeCursor_beside i b)]
  cases codeOf s1 v with
  | none => rfl
  | some c =>
    simp only [put_map (withTreeCursor_beside i b) s1 c]
    cases put c s1 <;> rfl

theorem encodeLoop_withTreeCursor (k count : Nat) (s : State) :
    encodeLoop k count (s.withTreeCursor i b) = (encodeLoop k count s).map (State.withTreeCursor i b) := by
  induction k generalizing count s with
  | zero => rfl
  | succ k ih =>
    rw [encodeLoop, encodeLoop, apply_ite (Res.map (State.withTreeCursor i b))]
    exact if_congr Iff.rfl
      (Res.map_andThen (encodeOne_withTreeCursor i b s) (Res.all_true _) fun _ s1 _ => ih _ s1) rfl

theorem encodeEnds_withTreeCursor (count : Nat) (s : State) :
    encodeEnds count (s.withTreeCursor i b) = (encodeEnds count s).map (State.withTreeCursor i b) := by
  rw [encodeEnds, codeOfEof_map (withTreeCursor_beside i b)]
  exact Res.map_andThen (put_map (withTreeCursor_beside i b) s _) (Res.all_true _) fun _ s1 _ =>
    Res.map_andThen (flushPad_map (withTreeCursor_beside i b) s1) (Res.all_true _) fun _ _ _ => rfl

/-- A packer command does the same in both runs. -/
theorem exec_packer_withTreeCursor {j : Instr} (hj : j.op ∈ [Op.encsym, Op.enceof, Op.encode]) (s : State) :
    exec j (s.withTreeCursor i b) = mapNext (State.withTreeCursor i b) (exec j s) := by
  cases j
  case encsym v =>
    refine issue_withTreeCursor i b (whenTree_withTreeCursor i b ?_)
    rw [codeOf_map (withTreeCursor_beside i b)]
    cases codeOf s v with
    | none => exact congrArg Host.Outcome.next (State.withTreeCursor_raise i b s _ _).symm
    | some c => exact Res.answer_withTreeCursor i b _ _ (putCode_withTreeCursor i b c s)
  case enceof =>
    refine issue_withTreeCursor i b (whenTree_withTreeCursor i b (Res.answer_withTreeCursor i b _ _ ?_))
    rw [codeOfEof_map (withTreeCursor_beside i b)]
    exact putCode_withTreeCursor i b _ s
  case encode =>
    refine issue_withTreeCursor i b ?_
    rw [apply_ite (mapNext (State.withTreeCursor i b))]
    refine if_congr Iff.rfl ?_ (whenTree_withTreeCursor i b (Res.answer_withTreeCursor i b _ _ ?_))
    · exact congrArg Host.Outcome.next (State.withTreeCursor_raise i b s _ _).symm
    · exact Res.map_andThen (encodeLoop_withTreeCursor i b _ _ s) (Res.all_true _)
        fun n s1 _ => encodeEnds_withTreeCursor i b n s1
  all_goals simp [Instr.op] at hj

end

/-- Settles O18: the outcome in the other run is the outcome here, with the other TCUR and FLAGS; and no packer command writes either. -/
theorem packerIgnoresTheTreeCursor : Obligations.PackerIgnoresTheTreeCursor := by
  intro i s c f hi
  have hrun : exec i (s.withTreeCursor c f) = mapNext (State.withTreeCursor c f) (exec i s) := exec_packer_withTreeCursor c f hi s
  have hnot : ∀ o ∈ [Op.encsym, Op.enceof, Op.encode], o ∉ [Op.reset, Op.treset, Op.tstep, Op.dsym, Op.decode] := by decide
  refine ⟨fun t ht => ?_, fun r ht => ?_⟩ <;> rw [ht] at hrun
  · obtain ⟨-, -, -, -, -, -, -, htcur, -, -, hflags, -⟩ := stateIsWrittenOnlyBy i s t ht
    refine ⟨hrun, by_contra fun hne => ?_, by_contra fun hne => hnot _ hi (hflags hne)⟩
    rcases htcur hne with hop | ⟨v, rfl⟩
    · exact hnot _ hi hop
    · simp [Instr.op] at hi
  · exact hrun

/-! ## The read cursor and the response -/

/-- The state with the read cursor and the response replaced. -/
def State.withRead (q : BitVec 61) (d : BitVec 3) (r : Option Response) (s : State) : State :=
  { s with rbyte := q, rbit := d, rsp := r }

theorem withRead_beside (q : BitVec 61) (d : BitVec 3) (r : Option Response) : BesideWrites (State.withRead q d r) :=
  ⟨fun _ => ⟨rfl, rfl, rfl, rfl, rfl⟩, fun _ => ⟨rfl, rfl, rfl⟩, fun _ _ _ => rfl, fun _ _ _ _ => rfl⟩

/-- Where `put` of a code ends with a value, so it does wherever the read cursor stands, and the code's length is answered. -/
theorem putCode_withRead {s u : State} {c : Code} (h : put c s = .ok () u) (q : BitVec 61) (d : BitVec 3) (r : Option Response) :
    (putCode c (s.withRead q d r)).answer (fun _ => .done) (fun n => BitVec.ofNat 64 n) =
      .next (u.withRead q d (some ⟨.done, BitVec.ofNat 64 c.length⟩)) := by
  rw [putCode, put_map (withRead_beside q d r), h]
  rfl

theorem exec_encsym_withRead {s u : State} {v : Word} {c : Code} (he : s.err = 0) (ht : wfTree s = true) (hc : codeOf s v = some c)
    (h : put c s = .ok () u) (q : BitVec 61) (d : BitVec 3) (r : Option Response) :
    exec (.encsym v) (s.withRead q d r) = .next (u.withRead q d (some ⟨.done, BitVec.ofNat 64 c.length⟩)) :=
  (exec_encsym_coded (s := s.withRead q d r) he ((wfTree_map (withRead_beside q d r) s).trans ht)
    ((codeOf_map (withRead_beside q d r) s v).trans hc)).trans (putCode_withRead h q d r)

theorem exec_enceof_withRead {s u : State} (he : s.err = 0) (ht : wfTree s = true) (h : put (codeOfEof s) s = .ok () u)
    (q : BitVec 61) (d : BitVec 3) (r : Option Response) :
    exec .enceof (s.withRead q d r) = .next (u.withRead q d (some ⟨.done, BitVec.ofNat 64 (codeOfEof s).length⟩)) := by
  rw [exec_enceof_run (s := s.withRead q d r) he ((wfTree_map (withRead_beside q d r) s).trans ht), codeOfEof_map (withRead_beside q d r)]
  exact putCode_withRead h q d r

theorem exec_flush_withRead {s u : State} {k : Nat} (he : s.err = 0) (h : flushPad s = .ok k u) (q : BitVec 61) (d : BitVec 3)
    (r : Option Response) :
    exec .flush (s.withRead q d r) = .next (u.withRead q d (some ⟨.done, BitVec.ofNat 64 k⟩)) := by
  refine (issue_run (s := s.withRead q d r) _ he rfl).trans ?_
  rw [flushPad_map (withRead_beside q d r), h]
  rfl

end Sys2Proof.Machine
end

section
/-! SUPPORT. ENCODE and the script of the per-symbol commands (spec/42_bit_packer.md R124, R128): each turn of the loop beside its
ENCSYM, the end of ENCODE beside ENCEOF and FLUSH. -/

namespace Sys2Proof.Machine

/-! ## A script in which every command answers DONE -/

/-- The script runs from `s` to `u`, and every command of it answers DONE. -/
def RunsDone (l : List Instr) (s u : State) : Prop := ∃ rs, execAll l s = some (u, rs) ∧ ∀ r ∈ rs, r.stat = .done

theorem runsDone_nil (s : State) : RunsDone [] s s := ⟨[], rfl, by simp⟩

theorem RunsDone.cons {i : Instr} {l : List Instr} {s t u : State} {v : Word} (hi : exec i s = .next t)
    (hr : t.rsp = some ⟨.done, v⟩) (hl : RunsDone l t u) : RunsDone (i :: l) s u := by
  obtain ⟨rs, hrs, hdone⟩ := hl
  refine ⟨⟨.done, v⟩ :: rs, execAll_cons_eq_some.2 ⟨t, _, rs, hi, hr, hrs, rfl⟩, fun r hmem => ?_⟩
  rcases List.mem_cons.1 hmem with rfl | hmem
  · rfl
  · exact hdone r hmem

/-! ## What the window holds -/

theorem State.windowHolds_nil {s : State} (h : 8 * s.rlim.toNat < s.readPos + s.symw.toNat) : s.WindowHolds [] :=
  ⟨.inl rfl, by simpa using h, by simp [State.inCode, symbolStream], by simp⟩

/-- A symbol read, and then the others. -/
theorem State.windowHolds_cons {s : State} {v : Word} {vs : List Word} (c : Code)
    (hm : s.readPos + s.symw.toNat ≤ 8 * s.rlim.toNat) (hi : s.inCode s.readPos s.symw.toNat = valueBits v s.symw.toNat)
    (hv : v.toNat < 2 ^ s.symw.toNat) (h : (s.encoded s.symw.toNat c).WindowHolds vs) : s.WindowHolds (v :: vs) := by
  have hlen : ∀ n, (n + 1) * s.symw.toNat = s.symw.toNat + n * s.symw.toNat := fun n => by rw [Nat.succ_mul, Nat.add_comm]
  obtain ⟨hbelow, hres, hfields, hvs⟩ := h
  rw [State.encoded_symw] at hbelow hres hfields hvs
  rw [State.encoded_rlim, State.encoded_readPos c hm] at hbelow hres
  rw [State.encoded_readPos c hm, State.inCode_congr (s.encoded_inMem _ c)] at hfields
  refine ⟨.inr ?_, ?_, ?_, fun u hu => ?_⟩
  · rw [List.length_cons, hlen]
    rcases hbelow with rfl | hbelow
    · simpa using hm
    · omega
  · rw [List.length_cons, hlen]
    omega
  · rw [List.length_cons, hlen, State.inCode_add, hi, hfields, symbolStream_cons]
  · rcases List.mem_cons.1 hu with rfl | hu
    · exact hv
    · exact hvs u hu

/-! ## The loop and its end -/

/-- The tree of the state is the one it found. -/
theorem wfTree_encoded (s : State) (n : Nat) (c : Code) : wfTree (s.encoded n c) = wfTree s :=
  wfTree_congr (s.encoded_nodeMem n c) (s.encoded_ncnt n c) (s.encoded_root n c) (s.encoded_size n c)

/-- A symbol read leaves one turn fewer for the loop. -/
theorem State.encoded_turns {s : State} (c : Code) (hm : s.readPos + s.symw.toNat ≤ 8 * s.rlim.toNat) :
    (s.encoded s.symw.toNat c).bitsLeft / s.symw.toNat = s.bitsLeft / s.symw.toNat - 1 := by
  have hsub := Nat.sub_mul_div s.bitsLeft s.symw.toNat 1
  rw [Nat.mul_one] at hsub
  rw [State.bitsLeft, State.encoded_readPos c hm, State.encoded_rlim, ← Nat.sub_sub]
  exact hsub

/-- A turn that ends with a value read a symbol of SYMW bits, and `put` the code found for it. -/
theorem encodeOne_puts {s u : State} (h64 : s.symw.toNat ≤ 64) (h : encodeOne s = .ok () u) :
    ∃ v c, codeOf s v = some c ∧ put c (s.setReadPos (s.readPos + s.symw.toNat)) = .ok () u ∧
      s.readPos + s.symw.toNat ≤ 8 * s.rlim.toNat ∧ s.inCode s.readPos s.symw.toNat = valueBits v s.symw.toNat ∧
      v.toNat < 2 ^ s.symw.toNat := by
  obtain ⟨v, s1, hget, hrest⟩ := Res.andThen_eq_ok h
  rcases getBits_cases s.symw.toNat s with ⟨hok, hmore, -⟩ | ⟨hbad, -⟩ | ⟨hbad, -⟩
  · cases hok.symm.trans hget
    have hlen := State.inCode_length s s.readPos s.symw.toNat
    have hfield := valueBits_ofNat_bitsNat (hlen.trans_le h64)
    have hlt := bitsNat_lt (s.inCode s.readPos s.symw.toNat)
    rw [hlen] at hfield hlt
    split at hrest
    · cases hrest
    · rename_i c hc
      split at hrest
      · rename_i hput
        cases hrest
        refine ⟨_, c, ?_, hput, (State.hasMore_iff _ _).1 hmore, hfield.symm, ?_⟩
        · rw [← hc]
          exact codeOf_congr (s := s) (t := s.setReadPos _) rfl rfl rfl _
        · rw [BitVec.toNat_ofNat]
          exact (Nat.mod_le _ _).trans_lt hlt
      · cases hrest
      · cases hrest
  · cases hbad.symm.trans hget
  · cases hbad.symm.trans hget

theorem eq_putBits_of_put_ok {c : Code} {s u : State} (h : put c s = .ok () u) : u = s.putBits c := by
  rcases put_cases c s with ⟨hok, -⟩ | ⟨hbad, -⟩ | ⟨a, hbad, -⟩
  · cases hok.symm.trans h
    rfl
  · cases hbad.symm.trans h
  · cases hbad.symm.trans h

/-- ENCODE's loop has led from `s` to `u` over the symbols `vs`, all that the window holds; and whatever script runs from `u`, wherever
the read cursor then stands, runs from `s` after the ENCSYM commands of these symbols. -/
structure LoopsBeside (s u : State) (vs : List Word) : Prop where
  window : s.WindowHolds vs
  err : u.err = 0
  tree : wfTree u = true
  script : ∀ q d r l y, (∀ r', RunsDone l (u.withRead q d r') y) → RunsDone (vs.map Instr.encsym ++ l) (s.withRead q d r) y

/-- The loop ends where no whole symbol is left. -/
theorem loopsBeside_nil {s : State} (he : s.err = 0) (ht : wfTree s = true)
    (h : 8 * s.rlim.toNat < s.readPos + s.symw.toNat) : LoopsBeside s s [] :=
  ⟨State.windowHolds_nil h, he, ht, fun _ _ r _ _ hl => hl r⟩

/-- A turn of the loop, and its ENCSYM. -/
theorem LoopsBeside.cons {s u : State} {v : Word} {vs : List Word} {c : Code} (he : s.err = 0) (ht : wfTree s = true)
    (hc : codeOf s v = some c) (hput : put c (s.setReadPos (s.readPos + s.symw.toNat)) = .ok () (s.encoded s.symw.toNat c))
    (hm : s.readPos + s.symw.toNat ≤ 8 * s.rlim.toNat) (hi : s.inCode s.readPos s.symw.toNat = valueBits v s.symw.toNat)
    (hv : v.toNat < 2 ^ s.symw.toNat) (h : LoopsBeside (s.encoded s.symw.toNat c) u vs) : LoopsBeside s u (v :: vs) := by
  obtain ⟨hwin, heu, htu, hscript⟩ := h
  refine ⟨State.windowHolds_cons c hm hi hv hwin, heu, htu, fun q d r l y hl => ?_⟩
  have htree : wfTree (s.setReadPos (s.readPos + s.symw.toNat)) = true :=
    (wfTree_congr (s := s.setReadPos _) (t := s) rfl rfl rfl rfl).trans ht
  have hcode : codeOf (s.setReadPos (s.readPos + s.symw.toNat)) v = some c :=
    (codeOf_congr (s := s.setReadPos _) (t := s) rfl rfl rfl v).trans hc
  exact RunsDone.cons (exec_encsym_withRead (s := s.setReadPos _) he htree hcode hput q d r) rfl (hscript q d _ l y hl)

/-- The loop of ENCODE, with turns enough for the window, where it ends with a value. -/
theorem encodeLoop_beside {k count n : Nat} {s u : State} (he : s.err = 0) (ht : wfTree s = true)
    (hw : 1 ≤ s.symw.toNat ∧ s.symw.toNat ≤ 64) (hk : s.bitsLeft / s.symw.toNat ≤ k) (h : encodeLoop k count s = .ok n u) :
    ∃ vs, LoopsBeside s u vs ∧ n = count + vs.length := by
  induction k generalizing s count with
  | zero =>
    cases h
    refine ⟨[], loopsBeside_nil he ht ?_, rfl⟩
    rw [Nat.le_zero, Nat.div_eq_zero_iff_lt hw.1, State.bitsLeft] at hk
    omega
  | succ k ih =>
    rw [encodeLoop] at h
    split at h
    · obtain ⟨_, s1, hone, hrest⟩ := Res.andThen_eq_ok h
      obtain ⟨v, c, hc, hput, hm, hi, hv⟩ := encodeOne_puts hw.2 hone
      obtain rfl : s1 = s.encoded s.symw.toNat c := eq_putBits_of_put_ok hput
      obtain ⟨vs, hvs, hn⟩ := ih (s := s.encoded s.symw.toNat c) ((putBits_err _ _).trans he)
        ((wfTree_encoded s _ c).trans ht) (by rwa [State.encoded_symw])
        (by rw [State.encoded_symw, State.encoded_turns c hm]; omega) hrest
      exact ⟨v :: vs, hvs.cons he ht hc hput hm hi hv, by rw [List.length_cons]; omega⟩
    · rename_i hmore
      cases h
      rw [State.hasMore_iff] at hmore
      exact ⟨[], loopsBeside_nil he ht (by omega), rfl⟩

/-- The end of ENCODE, where it ends with a value: ENCEOF and FLUSH leave the same, wherever the read cursor stands. -/
theorem encodeEnds_beside {count n : Nat} {s u : State} (he : s.err = 0) (ht : wfTree s = true)
    (h : encodeEnds count s = .ok n u) (q : BitVec 61) (d : BitVec 3) :
    n = count ∧ ∃ r', ∀ r, RunsDone [.enceof, .flush] (s.withRead q d r) (u.withRead q d r') := by
  obtain ⟨_, s1, hput, hrest⟩ := Res.andThen_eq_ok h
  obtain ⟨k, s2, hflush, hlast⟩ := Res.andThen_eq_ok hrest
  cases hlast
  have he1 : s1.err = 0 := by
    rw [eq_putBits_of_put_ok hput, putBits_err]
    exact he
  exact ⟨rfl, _, fun r => RunsDone.cons (exec_enceof_withRead he ht hput q d r) rfl
    (RunsDone.cons (exec_flush_withRead he1 hflush q d _) rfl (runsDone_nil _))⟩

/-- An ENCODE that answers DONE has come through its checks, its loop and its end. -/
theorem exec_encode_done {s t : State} {k : Word} (h : exec .encode s = .next t) (hr : t.rsp = some ⟨.done, k⟩) :
    s.err = 0 ∧ (1 ≤ s.symw.toNat ∧ s.symw.toNat ≤ 64) ∧ wfTree s = true ∧
      ∃ n u m w, encodeLoop (s.bitsLeft / s.symw.toNat) 0 s = .ok n u ∧ encodeEnds n u = .ok m w ∧ k = BitVec.ofNat 64 m ∧
        t = w.respond .done k := by
  by_cases he : s.err = 0
  · by_cases hw : 1 ≤ s.symw.toNat ∧ s.symw.toNat ≤ 64
    · by_cases ht : wfTree s = true
      · rw [exec_encode_run he hw ht] at h
        rcases Res.answer_next h with ⟨m, w, hok, rfl⟩ | ⟨f, info, w, -, rfl⟩
        · cases hr
          obtain ⟨n, u, hloop, hends⟩ := Res.andThen_eq_ok hok
          exact ⟨he, hw, ht, n, u, m, w, hloop, hends, rfl, rfl⟩
        · cases hr
      · cases h.symm.trans (packerNeedsAWellFormedTree s .encode he
          (fun hwf => ht ((treeCheckDecidesWellFormedness s).2 hwf)) (.inr (.inr ⟨rfl, hw⟩)))
    · cases h.symm.trans (unsetWidthIsUnsupported s .encode he (by omega) (.inr rfl))
      cases hr
  · cases h.symm.trans (exec_sticky he rfl)
    cases hr

/-- Settles O54: the script is run beside the loop and its end, with the read cursor left where it stood. -/
theorem encodeEqualsTheScript : Obligations.EncodeEqualsTheScript := by
  intro s t k h hr
  obtain ⟨he, hw, ht, n, u, m, w, hloop, hends, rfl, rfl⟩ := exec_encode_done h hr
  obtain ⟨vs, hvs, rfl⟩ := encodeLoop_beside he ht hw le_rfl hloop
  obtain ⟨rfl, r', hend⟩ := encodeEnds_beside hvs.err hvs.tree hends s.rbyte s.rbit
  obtain ⟨rs, hrun, hdone⟩ := hvs.script s.rbyte s.rbit s.rsp _ _ hend
  exact ⟨vs, _, rs, hvs.window, by rw [Nat.zero_add], hrun, hdone, rfl, rfl, rfl, rfl⟩

end Sys2Proof.Machine
end

section
/-! SUPPORT. GETREG, WRNODE and RDNODE (spec/43_system.md R142 to R144). -/

namespace Sys2Proof.Machine

/-! ## GETREG -/

/-- GETREG is legal and passes the gate, so it runs whatever ERR holds (R142, R205). -/
theorem exec_getreg (r : Reg) (s : State) : exec (.getreg r) s = .next (s.respond .done (s.readReg r)) :=
  issue_exempt _ rfl rfl

/-- Settles O23: `readReg` is the zero-extension of the register named. -/
theorem getregReadsEveryRegister : Obligations.GetregReadsEveryRegister := by
  intro s
  exact ⟨exec_getreg .symw s, exec_getreg .rbyte s, exec_getreg .rbit s, exec_getreg .rlim s, exec_getreg .wbyte s,
    exec_getreg .wbit s, exec_getreg .wacc s, exec_getreg .wlim s, exec_getreg .root s, exec_getreg .tcur s,
    exec_getreg .naddr s, exec_getreg .ncnt s, exec_getreg .flags s, exec_getreg .err s, exec_getreg .einfo s⟩

/-! ## WRNODE and RDNODE below the end of NODE -/

theorem exec_wrnode_next {s : State} (w : Word) (he : s.err = 0) (hn : s.naddr.toNat < 2 * s.size.nNodes.val) :
    exec (.wrnode w) s = .next (((s.storeNode s.naddr.toNat w).setNaddr (s.naddr + 1)).respond .done 0) :=
  (issue_run _ he rfl).trans (if_neg (Nat.not_le.2 hn))

theorem exec_rdnode_next {s : State} (he : s.err = 0) (hn : s.naddr.toNat < 2 * s.size.nNodes.val) :
    exec .rdnode s = .next ((s.setNaddr (s.naddr + 1)).respond .done (s.nodeWord s.naddr.toNat)) :=
  (issue_run _ he rfl).trans (if_neg (Nat.not_le.2 hn))

/-- The 33 bits of NADDR hold the end of the NODE space, so NADDR below it does not wrap (R21). -/
theorem State.toNat_naddr_succ {s : State} (hn : s.naddr.toNat < 2 * s.size.nNodes.val) :
    (s.naddr + 1).toNat = s.naddr.toNat + 1 := by
  have hmax := s.size.nNodes.isLt
  exact BitVec.toNat_add_of_lt (show s.naddr.toNat + 1 < 2 ^ 33 by omega)

/-- Settles O24: the one word written is the one `storeNode` stores at NADDR. -/
theorem nodeWordsAreWrittenAndRead : Obligations.NodeWordsAreWrittenAndRead := by
  intro s w he hn
  refine ⟨⟨_, exec_wrnode_next w he hn, rfl, fun a => ?_⟩, exec_rdnode_next he hn, State.toNat_naddr_succ hn⟩
  have hkept : (((s.storeNode s.naddr.toNat w).setNaddr (s.naddr + 1)).respond .done 0).nodeWord a =
      (s.storeNode s.naddr.toNat w).nodeWord a := State.nodeWord_congr rfl a
  rw [hkept, State.nodeWord_storeNode]
  exact if_congr eq_comm rfl rfl

/-! ## WRNODE and RDNODE at or past the end of NODE -/

/-- Settles O25: the range is the first check of both commands. -/
theorem nodeRangeFaults : Obligations.NodeRangeFaults := by
  intro s i he hn hi
  have hraise : exec i s = .next (s.raise .nodeRange (s.naddr.setWidth 64)) := by
    rcases hi with rfl | ⟨w, rfl⟩ <;> exact (issue_run _ he rfl).trans (if_pos hn)
  rw [hraise, State.raise_first _ _ he]
  rfl

end Sys2Proof.Machine
end

section
/-! SUPPORT. The frequency table and the order of insertion (spec/45_host_tree_construction.md R160, R161, R167). -/

namespace Sys2Proof

/-! ## Cells taken out of a memory -/

theorem Memory.wf_filter {w : Nat} (p : Nat × BitVec w → Bool) (m : Memory w) (hm : Memory.wf m = true) :
    Memory.wf (m.filter p) = true := by
  induction m with
  | nil => rfl
  | cons c m ih =>
    obtain ⟨habove, hwf⟩ := (Memory.wf_cons c.1 c.2 m).1 hm
    rw [List.filter_cons]
    split
    · refine (Memory.wf_cons c.1 c.2 _).2 ⟨?_, ih hwf⟩
      rw [Memory.above, List.all_eq_true] at habove ⊢
      exact fun e he => habove e (List.mem_of_mem_filter he)
    · exact ih hwf

theorem Memory.cell?_filter_ne {w : Nat} (m : Memory w) (a b : Nat) :
    Memory.cell? (m.filter fun c => c.1 != a) b = if a = b then none else Memory.cell? m b := by
  induction m with
  | nil => exact (ite_self _).symm
  | cons c m ih =>
    obtain ⟨d, v⟩ := c
    by_cases hd : d = a
    · subst hd
      rw [List.filter_cons_of_neg (by simp), ih, Memory.cell?]
      exact ite_congr rfl (fun _ => rfl) fun hb => (if_neg hb).symm
    · rw [List.filter_cons_of_pos (by simpa using hd), Memory.cell?, Memory.cell?, ih]
      exact ite_ite_comm _ _ _ _ fun hdb hab => hd (hdb.trans hab.symm)

namespace Machine

/-! ## What `setFrequency` changes and keeps -/

@[simp] theorem FreqTable.setFrequency_width (t : FreqTable) (v c : Word) : (t.setFrequency v c).width = t.width := by
  unfold FreqTable.setFrequency
  split <;> rfl

@[simp] theorem FreqTable.setFrequency_declaredSize (t : FreqTable) (v c : Word) :
    (t.setFrequency v c).declaredSize = t.declaredSize := by
  unfold FreqTable.setFrequency
  split <;> rfl

theorem FreqTable.cell?_setFrequency (t : FreqTable) (v c : Word) (a : Nat) :
    Memory.cell? (t.setFrequency v c).counts a =
      if v.toNat = a then (if c = 0 then none else some c) else Memory.cell? t.counts a := by
  unfold FreqTable.setFrequency
  split
  · exact Memory.cell?_filter_ne ..
  · exact Memory.cell?_store ..

theorem FreqTable.wf_setFrequency {t : FreqTable} (v c : Word) (ht : Memory.wf t.counts = true) :
    Memory.wf (t.setFrequency v c).counts = true := by
  unfold FreqTable.setFrequency
  split
  · exact Memory.wf_filter _ _ ht
  · exact Memory.wf_store _ _ _ ht

/-! ## The order of insertion (R167) -/

/-- Counts of two different symbols may be set in either order: the two tables have the same cells, and a table in ascending order of
its symbols is determined by them. -/
theorem FreqTable.setFrequency_comm {t : FreqTable} (ht : Memory.wf t.counts = true) {u v : Word} (huv : u ≠ v) (c d : Word) :
    (t.setFrequency u c).setFrequency v d = (t.setFrequency v d).setFrequency u c := by
  have hcounts : ((t.setFrequency u c).setFrequency v d).counts = ((t.setFrequency v d).setFrequency u c).counts := by
    refine Memory.eq_of_cells _ _ (wf_setFrequency v d (wf_setFrequency u c ht)) (wf_setFrequency u c (wf_setFrequency v d ht))
      fun a => ?_
    simp only [cell?_setFrequency]
    exact ite_ite_comm _ _ _ _ fun hv hu => huv (BitVec.eq_of_toNat_eq (hu.trans hv.symm))
  rw [FreqTable.mk.injEq]
  exact ⟨by simp, by simp, hcounts⟩

theorem FreqTable.foldl_setFrequency_perm {l l' : List (Word × Word)} (hperm : l.Perm l') (honce : (l.map Prod.fst).Nodup)
    {t : FreqTable} (ht : Memory.wf t.counts = true) :
    l.foldl (fun t e => t.setFrequency e.1 e.2) t = l'.foldl (fun t e => t.setFrequency e.1 e.2) t := by
  induction hperm generalizing t with
  | nil => rfl
  | cons e _ ih => exact ih (List.nodup_cons.1 honce).2 (wf_setFrequency e.1 e.2 ht)
  | swap e f l =>
    have hne : f.1 ≠ e.1 := (List.pairwise_cons.1 honce).1 _ (List.mem_cons_self ..)
    exact congrArg (l.foldl _) (setFrequency_comm ht hne ..)
  | trans hfirst _ ih ih' => exact (ih honce ht).trans (ih' ((hfirst.map _).nodup honce) ht)

theorem FreqTable.wf_new {w : Nat} {t : FreqTable} (h : FreqTable.new w = .ok t) : Memory.wf t.counts = true := by
  unfold FreqTable.new at h
  split at h
  · cases h
    rfl
  · cases h

/-- Settles O56: the tables are equal, by induction on the permutation, and the tree is a function of the table. -/
theorem insertionOrderDoesNotMatter : Obligations.InsertionOrderDoesNotMatter := by
  intro w t l l' hnew hperm honce
  have htable := FreqTable.foldl_setFrequency_perm hperm honce (FreqTable.wf_new hnew)
  exact ⟨htable, congrArg buildTree htable⟩

end Machine
end Sys2Proof
end

section
/-! SUPPORT. The sticky-fault gate over packets (spec/60_exceptions.md R205, R206, R208). -/

namespace Sys2Proof

/-- A legal packet holds the opcode of the command it decodes to. -/
theorem opOf_of_decode_legal {p : Packet} {i : Instr} (h : decode p = .legal i) : opOf p = i.op.code := by
  obtain ⟨-, rfl⟩ := encodeOfDecode p i h
  exact opOf_packet ..

namespace Machine

/-- The gate of a command is the gate of its opcode. -/
theorem Instr.passesGate_iff (i : Instr) :
    Instr.passesGate i = true ↔ i.op.code = Op.reset.code ∨ i.op.code = Op.getreg.code := by
  cases i <;> simp [Instr.passesGate, Instr.op, Op.code]

/-- RESET and GETREG end with DONE, whatever ERR holds (R140, R142). -/
theorem exec_done_of_passesGate {i : Instr} (hp : Instr.passesGate i = true) (s : State) :
    ∃ t v, exec i s = .next t ∧ t.rsp = some ⟨.done, v⟩ := by
  cases i with
  | reset => exact ⟨_, _, resetCompletes s, rfl⟩
  | getreg r => exact ⟨_, _, exec_getreg r s, rfl⟩
  | _ => cases hp

/-- A fault taken with another one recorded is answered and not recorded (R203). -/
theorem State.raise_later {s : State} (c : FaultCode) (info : Word) (he : s.err ≠ 0) :
    s.raise c info = { s with rsp := some ⟨.fault c, info⟩ } := by
  rw [State.raise_eq, if_neg he, if_neg he]

/-- While a fault is recorded the gate turns a packet away by its OP alone, before legality is looked at (R205, R206). -/
theorem runPacket_sticky {p : Packet} {s : State} (he : s.err ≠ 0) (hreset : opOf p ≠ Op.reset.code)
    (hget : opOf p ≠ Op.getreg.code) : runPacket p s = .next s.refuseSticky := by
  cases hd : decode p with
  | illegal why => exact (runPacket_illegal hd s).trans (congrArg _ (if_pos ⟨he, hreset, hget⟩))
  | legal i =>
    have hp : Instr.passesGate i = false := by
      rw [Bool.eq_false_iff, ne_eq, Instr.passesGate_iff, ← opOf_of_decode_legal hd]
      exact not_or.2 ⟨hreset, hget⟩
    exact (runPacket_legal hd s).trans (exec_sticky he hp)

/-- An illegal packet that passes the gate raises ILLEGAL_COMMAND (R206, R208). -/
theorem illegalPacket_of_passes {p : Packet} (hop : opOf p = Op.reset.code ∨ opOf p = Op.getreg.code) (s : State) :
    illegalPacket p s = s.raise .illegalCommand (headInfo (opOf p) (immOf p)) :=
  if_neg fun ⟨_, hreset, hget⟩ => hop.elim hreset hget

/-- Settles O12: the gate looks at OP alone; a legal packet with OP 0x01 or 0x03 is RESET or GETREG, which answer DONE, and an illegal
one takes its fault with another recorded. -/
theorem stickyFaultGate : Obligations.StickyFaultGate := by
  intro s p rest hscript he
  have hstep : step s = runPacket p (s.setScript rest) := step_move hscript
  refine ⟨fun hreset hget => hstep.trans (runPacket_sticky he hreset hget), fun i hop hdec => ?_, fun why hop hdec => ?_⟩
  · have hexec := hstep.trans (runPacket_legal hdec _)
    rw [opOf_of_decode_legal hdec] at hop
    obtain ⟨t, v, ht, hdone⟩ := exec_done_of_passesGate ((Instr.passesGate_iff i).2 hop) (s.setScript rest)
    exact ⟨hexec, t, hexec.trans ht, fun w => by simp [hdone]⟩
  · rw [hstep, runPacket_illegal hdec, illegalPacket_of_passes hop, State.raise_later (s := s.setScript rest) _ _ he,
      headInfo_fields]
    rfl

end Machine

end Sys2Proof
end
